-- ==== Sys2Proof/Word.lean ====
section
/-! DEFINITION. The machine's bit vectors: 32-bit registers (R16), 8-bit bytes (R11), 4-bit colour codes (R54). -/

namespace Sys2Proof

/-- A register value (R16). -/
abbrev Word := BitVec 32

/-- A byte of `MEM` or of the stream (R11). -/
abbrev Byte := BitVec 8

/-- A 4-bit colour index code (R54) or error code (R20). -/
abbrev Nibble := BitVec 4

end Sys2Proof
end

