-- ==== Sys2Proof/Config.lean ====
section
/-! DEFINITION. The configuration `CFG` (R7): the values the spec fixes, the parameters it leaves open, and the model's free
values. A configuration is plain data, so that a state that carries one can be written out and compared. -/

namespace Sys2Proof

/-- The six colours (R13). A colour is an abstract name; its 4-bit code is `Config.code`. -/
inductive Color where
  | black | white | red | green | blue | yellow
deriving DecidableEq, Repr, Inhabited

/-- The six colours in tier-1 order (R13): "Check order is black, white, red, green, blue, yellow". -/
def Color.tier1Order : List Color := [.black, .white, .red, .green, .blue, .yellow]

/-- A 24-bit sample or palette triple, channels 0..255 (R8 (d)). -/
structure RGB where
  r : Byte
  g : Byte
  b : Byte
deriving DecidableEq, Repr, Inhabited

/-- One entry of the tier-2 table: a triple and its colour (R14, "Palette entry"). -/
structure PalEntry where
  rgb   : RGB
  color : Color
deriving DecidableEq, Repr, Inhabited

/-- The six colour index codes `IDX[c]` (R7, R54). -/
structure IdxTable where
  black  : Nibble
  white  : Nibble
  red    : Nibble
  green  : Nibble
  blue   : Nibble
  yellow : Nibble
deriving DecidableEq, Repr, Inhabited

/-- `IDX[c]`. -/
def IdxTable.get (t : IdxTable) : Color → Nibble
  | .black  => t.black
  | .white  => t.white
  | .red    => t.red
  | .green  => t.green
  | .blue   => t.blue
  | .yellow => t.yellow

/-- The open parameters of R7: `IDX`, `PAL12`, `WIDTH`, `HEIGHT`, `MEM_BYTES`, `SKIP_CHUNK`. -/
structure Config where
  idx       : IdxTable
  pal12     : List PalEntry
  width     : Nat
  height    : Nat
  memBytes  : Nat
  skipChunk : Nat
deriving DecidableEq, Repr, Inhabited

namespace Config

/-- `PRIM[c]` (R7), the spec's reading of "pure" in its decision D31. DESIGN CHOICE of the spec, log entry 3. -/
def prim : Color → RGB
  | .black  => ⟨0, 0, 0⟩
  | .white  => ⟨255, 255, 255⟩
  | .red    => ⟨255, 0, 0⟩
  | .green  => ⟨0, 255, 0⟩
  | .blue   => ⟨0, 0, 255⟩
  | .yellow => ⟨255, 255, 0⟩

/-- `TOL`, inclusive (R7). -/
def tol : Nat := 6

/-- `NPAL` (R7). -/
def npal : Nat := 12

/-- `HDR_BYTES` (R7). -/
def hdrBytes : Nat := 54

/-- `BPP` (R7). -/
def bpp : Nat := 24

/-- `TIMEOUT_DEFAULT` in milliseconds (R7, R21). -/
def timeoutDefault : Word := 15000

/-- `DMAX = 3 × 255²` (R7). -/
def dmax : Nat := 195075

/-- `FRAME_BYTES = WIDTH/2 × HEIGHT` (R7, R55). -/
def frameBytes (c : Config) : Nat := c.width / 2 * c.height

/-- The linear position of the pixel at column `x` of row `y` (R55): "0-based, row-major". -/
def position (c : Config) (x y : Nat) : Nat := y * c.width + x

/-- `IDX[c]` of a configuration. -/
def code (c : Config) (col : Color) : Nibble := c.idx.get col

/-- The parameters of the build at hand. The spec gives none of them (`91_not_in_source.md` N3 to N6): an opaque constant, of
which nothing can be proved. DESIGN CHOICE, log entry 2. -/
opaque deviceParameters : Config

/-- The free values behind `anyvalue` (R12): draw number, then address. Nothing can be proved of a value. Log entry 4. -/
opaque freeByte : Nat → Nat → Byte

/-- The codes of the spec's test configurations (`95_test_vectors.md` section 0), general knowledge and not the document's. -/
def testIdx : IdxTable := ⟨0, 1, 3, 6, 5, 2⟩

/-- Test configuration TC-A of `95_test_vectors.md` section 0: well-formed, invented by the spec for its vectors. -/
def tcA : Config where
  idx := testIdx
  pal12 :=
    [⟨⟨0, 0, 0⟩, .black⟩, ⟨⟨255, 255, 255⟩, .white⟩, ⟨⟨255, 0, 0⟩, .red⟩, ⟨⟨0, 255, 0⟩, .green⟩, ⟨⟨0, 0, 255⟩, .blue⟩,
     ⟨⟨255, 255, 0⟩, .yellow⟩, ⟨⟨30, 30, 30⟩, .black⟩, ⟨⟨230, 230, 230⟩, .white⟩, ⟨⟨200, 30, 30⟩, .red⟩,
     ⟨⟨30, 160, 60⟩, .green⟩, ⟨⟨30, 60, 200⟩, .blue⟩, ⟨⟨230, 220, 40⟩, .yellow⟩]
  width := 4
  height := 2
  memBytes := 128
  skipChunk := 64

end Config

end Sys2Proof
end

