-- ==== Sys2Proof/Syntax.lean ====
section
/-! DEFINITION. The command set S6FCU-1 (R50): one constructor per row of spec/opcode_table.json. No command has an operand in
its word; operands are in registers (R51). -/

namespace Sys2Proof

/-- The six commands (R50): "The six commands ... are the whole command set" (R124). -/
inductive Instr where
  /-- RDX, read exact (R72). -/
  | rdx
  /-- SKP, skip exact (R73). -/
  | skp
  /-- MAP, quantize one sample (R83). -/
  | map
  /-- PCK, pack one colour index code (R89). -/
  | pck
  /-- HDR, validate a BMP header (R95). -/
  | hdr
  /-- CVR, convert one row (R99). -/
  | cvr
deriving DecidableEq, Repr

/-- Every command, in opcode order (R50). -/
def Instr.all : List Instr := [.rdx, .skp, .map, .pck, .hdr, .cvr]

end Sys2Proof
end

