-- ==== Sys2Proof/WellFormed.lean ====
section
/-! DEFINITION. Well-formedness. A command has no field that could be out of range; a configuration has, and R8 lists its
conditions: "the rules of this spec speak only of well-formed configurations". -/

namespace Sys2Proof

/-- Every command is well-formed: its word has no operand field (R49). -/
def Instr.wellFormed : Instr → Bool
  | .rdx | .skp | .map | .pck | .hdr | .cvr => true

namespace Config

/-- R8 (a): the panel's dimensions. -/
abbrev DimensionsWF (c : Config) : Prop :=
  c.width % 2 = 0 ∧ 1 ≤ c.width ∧ 1 ≤ c.height ∧ c.width < 2 ^ 31 ∧ c.height < 2 ^ 31 ∧ c.width * c.height ≤ 2 ^ 32

/-- R8 (b): the six codes are pairwise distinct (each is in 0..15 by its type). -/
abbrev CodesWF (c : Config) : Prop := (Color.tier1Order.map c.code).Nodup

/-- R8 (c) for one colour: exactly two entries of the table, one of them with the triple `PRIM[c]`. -/
abbrev ColorWF (c : Config) (col : Color) : Prop :=
  (c.pal12.filter fun e => e.color = col).length = 2 ∧ (⟨prim col, col⟩ : PalEntry) ∈ c.pal12

/-- R8 (c): twelve entries, and the condition of each colour. R8 (d), channels in 0..255, holds by type. -/
abbrev PaletteWF (c : Config) : Prop := c.pal12.length = npal ∧ ∀ col ∈ Color.tier1Order, c.ColorWF col

/-- R8 (e): the chunk size of `skipExact`. -/
abbrev ChunkWF (c : Config) : Prop := 1 ≤ c.skipChunk ∧ c.skipChunk ≤ 64

/-- R8 (f): the size of `MEM`. -/
abbrev MemBytesWF (c : Config) : Prop := 1 ≤ c.memBytes ∧ c.memBytes ≤ 2 ^ 32

/-- A well-formed configuration (R8). -/
abbrev WF (c : Config) : Prop := c.DimensionsWF ∧ c.CodesWF ∧ c.PaletteWF ∧ c.ChunkWF ∧ c.MemBytesWF

end Config

end Sys2Proof
end

