-- ==== Sys2Proof/Decode.lean ====
section
/-! DEFINITION. Decoding and encoding of command words (R49, R50, R52). -/

namespace Sys2Proof

/-- Why a command word is reserved (R52). -/
inductive Reserved where
  /-- Bits 31:4 are not all 0. -/
  | upperBits
  /-- `op` is 0x0 or 0x7..0xF. -/
  | opcode
deriving DecidableEq, Repr

/-- What a command word is: a command, or reserved. -/
inductive Decoded where
  | command (i : Instr)
  | reserved (r : Reserved)
deriving DecidableEq, Repr

/-- Bits 31:4 of a command word, the field `zero` (R49). -/
def zeroField (w : Word) : BitVec 28 := w.extractLsb' 4 28

/-- Bits 3:0 of a command word, the field `op` (R49). -/
def opField (w : Word) : Nibble := w.extractLsb' 0 4

/-- The opcode map (R50). -/
def decodeOp (op : Nibble) : Decoded :=
  match op.toNat with
  | 1 => .command .rdx
  | 2 => .command .skp
  | 3 => .command .map
  | 4 => .command .pck
  | 5 => .command .hdr
  | 6 => .command .cvr
  | _ => .reserved .opcode

/-- Decoding, total on 32-bit words (R49, R50, R52). -/
def decode (w : Word) : Decoded :=
  if zeroField w = 0 then decodeOp (opField w) else .reserved .upperBits

/-- The opcode of a command (R50). -/
def opcode : Instr → Nibble
  | .rdx => 0x1
  | .skp => 0x2
  | .map => 0x3
  | .pck => 0x4
  | .hdr => 0x5
  | .cvr => 0x6

/-- The command word of a command: `zero ++ op` (R49). -/
def encode (i : Instr) : Word := (0 : BitVec 28) ++ opcode i

/-- The low `nbits` bits of `w`, the word the opcode table numbers. Log entry 20. -/
def tableWord (nbits w : Nat) : Nat := w % 2 ^ nbits

/-- The command that the decoder reads from a word of the opcode table. A number that does not fit the one 32-bit format (R53)
is no command. Log entry 20. -/
def decodeTableWord (nbits w : Nat) : Option Instr :=
  if tableWord nbits w < 2 ^ 32 then
    match decode (BitVec.ofNat 32 (tableWord nbits w)) with
    | .command i => some i
    | .reserved _ => none
  else none

end Sys2Proof
end

