-- ==== Sys2Proof/Machine/Build.lean ====
section
/-! DEFINITION. The configuration of the machine after reset: the unknown build's parameters. -/

namespace Sys2Proof.Machine

/-- The build's configuration. The rules speak only of well-formed configurations (R8), so where the unknown parameters are
not well-formed the spec's test configuration stands in. DESIGN CHOICE, log entry 2. -/
def buildConfig : Config :=
  if Config.deviceParameters.WF then Config.deviceParameters else Config.tcA

end Sys2Proof.Machine
end

