-- ==== Sys2Proof/Machine/State.lean ====
section
/-! DEFINITION. The state of the block (R15), its configuration, and the two sides that drive it: the environment's events and
the host's actions (R27, R104). All of it is plain data. -/

namespace Sys2Proof.Machine

/-- The register numbers 0..7 by name (R16). -/
inductive Reg where
  | cmd | arg0 | arg1 | arg2 | res | status | timeout | reserved
deriving DecidableEq, Repr

/-- The error codes of STATUS.ERR (R113). Codes 9..15 are never produced, so they have no name (log entry 18). -/
inductive Err where
  | none | timeout | hdrSmall | hdrSig | hdrBpp | hdrDim | opcode | addr | operand
deriving DecidableEq, Repr

/-- What `NextEvent()` returns (R61), and the model's own marker `hostTurn`: at this point of the running command the host acts
next (log entry 7). -/
inductive Event where
  /-- The next byte of the stream arrived. -/
  | byte (v : Byte)
  /-- One more millisecond passed. -/
  | tick
  /-- No event of the block: the host moves here. -/
  | hostTurn
deriving DecidableEq, Repr

/-- The host's actions (R104). A command starts by a write to CMD. `wait` is no further action on the block: it is the script line
WAIT (R59), which stands for its reads of STATUS (log entry 23). -/
inductive HostAction where
  /-- Register read. -/
  | readReg (r : Reg)
  /-- `WAIT`: "repeat `RD STATUS` until BUSY = 0" (R59). -/
  | wait
  /-- Register write. -/
  | writeReg (r : Reg) (w : Word)
  /-- Buffer read `HostMemRead(a)` (R31). -/
  | readMem (a : Nat)
  /-- Buffer write `HostMemWrite(a, v)` (R31). -/
  | writeMem (a : Nat) (v : Byte)
  /-- Reset (R130). -/
  | reset
deriving DecidableEq, Repr

/-- What the last host action got back (R105). Log entry 14. -/
inductive Reply where
  | nothing
  | word (w : Word)
  | byte (v : Byte)
deriving DecidableEq, Repr

/-- The operand values latched when a command starts (R17, R26). A register that the command does not name is latched as 0
(log entry 13). -/
structure Operands where
  a0 : Word
  a1 : Word
  a2 : Word
  t  : Word
deriving DecidableEq, Repr

/-- The hidden state of a running command (R26). -/
structure Running where
  /-- The command. -/
  instr : Instr
  /-- Its latched operands. -/
  ops   : Operands
  /-- Bytes received so far by this command. -/
  got   : Nat
  /-- Ticks since the later of the command's start and the last received byte. -/
  stall : Nat
  /-- SKP's chunk buffer (R26, R74). Log entry 12. -/
  chunk : List Byte
deriving DecidableEq, Repr

/-- `MEM` (R25): the bytes that have been written since reset, addresses strictly rising. An address that is not listed has no
specified byte (R29); what it reads as is `State.byte`. Log entry 5. -/
abbrev Memory := List Host.Cell

/-- The canonical form of `MEM`: addresses strictly rising. A listed address has a byte and an unlisted one has none, so no entry
equals what an unlisted address reads as (log entry 5). -/
abbrev Memory.wf (m : Memory) : Prop := m.Pairwise fun c d => c.1 < d.1

/-- The state. Field by field: INVENTORY.md, "State". -/
structure State where
  /-- ARG0 (R16). -/
  arg0    : Word
  /-- ARG1 (R16). -/
  arg1    : Word
  /-- ARG2 (R16). -/
  arg2    : Word
  /-- RES (R18). -/
  res     : Word
  /-- TIMEOUT (R21). -/
  timeout : Word
  /-- STATUS.BUSY (R20). -/
  busy    : Bool
  /-- STATUS.DONE (R20). -/
  done    : Bool
  /-- STATUS.ERR (R20). -/
  err     : Err
  /-- `MEM` (R25). -/
  mem     : Memory
  /-- The hidden state of the running command, none when no command runs (R26). -/
  running : Option Running
  /-- The configuration (R7): no register, written by nothing (R28). Log entry 1. -/
  cfg     : Config
  /-- The environment's next events (R27, R61); after the last one only ticks follow. Log entry 6. -/
  env     : List Event
  /-- The stream position, how many stream bytes the block has consumed (R27). -/
  spos    : Nat
  /-- The host's next actions (R104). Log entry 8. -/
  host    : List HostAction
  /-- What the last host action got back. -/
  reply   : Reply
  /-- The draw that the unlisted bytes of `MEM` belong to. Log entry 4. -/
  memDraw : Nat
  /-- The next fresh draw of `anyvalue` (R12). Log entry 4. -/
  draws   : Nat
deriving DecidableEq, Repr

/-- Why the machine stops with a fault: never. Every command ends (R65) and every defined host action has a successor state
("No case is treated as stuck", 93_implementation_defined.md), so the type has no constructor. Log entry 10. -/
inductive Fault where
deriving DecidableEq, Repr

/-- Why the model gives a run no meaning. -/
inductive Refusal where
  /-- Raised by `exec` for a command without a meaning yet; no arm raises it. Safe: the run stops. -/
  | notModelled (mnemonic : String)
  /-- Raised by the host port for any host access while BUSY = 1 but a read of STATUS or a reset, and by a command started while
  BUSY = 1 (R135: "a model refuses them"). Safe: the run stops where the spec gives no meaning. -/
  | hostAccessWhileBusy
  /-- Raised by the host port for a buffer read or write at an address ≥ MEM_BYTES (R31: "a model refuses it"). Safe: the run
  stops where the spec gives no meaning. -/
  | hostAddressOutsideMem
deriving DecidableEq, Repr

/-- The state after reset (R29, R130), idle, with no host action and no event pending. -/
def State.reset : State where
  arg0 := 0
  arg1 := 0
  arg2 := 0
  res := 0
  timeout := Config.timeoutDefault
  busy := false
  done := false
  err := .none
  mem := []
  running := none
  cfg := buildConfig
  env := []
  spos := 0
  host := []
  reply := .nothing
  memDraw := 0
  draws := 1

end Sys2Proof.Machine
end

