-- ==== Sys2Proof/Machine/Flags.lean ====
section
/-! DEFINITION. STATUS, the only flags of the block (R20, R23): the numbers of the error codes, the word a host read returns, and
what the start and the end of a command do to its fields. -/

namespace Sys2Proof.Machine

/-- The 4-bit error codes (R113). -/
def Err.code : Err → Nibble
  | .none     => 0
  | .timeout  => 1
  | .hdrSmall => 2
  | .hdrSig   => 3
  | .hdrBpp   => 4
  | .hdrDim   => 5
  | .opcode   => 6
  | .addr     => 7
  | .operand  => 8

/-- The word a read of STATUS returns (R20): ERR in bits 7:4, DONE in bit 1, BUSY in bit 0, every other bit 0. -/
def State.statusWord (s : State) : Word :=
  (0 : BitVec 24) ++ s.err.code ++ (0 : BitVec 2) ++ BitVec.ofBool s.done ++ BitVec.ofBool s.busy

/-- The fields of STATUS when a command starts (R115): DONE and ERR cleared, BUSY set. -/
def State.statusStart (s : State) : State := { s with done := false, err := .none, busy := true }

/-- The fields of STATUS when a command ends with code `e` (R116): ERR written, BUSY cleared, DONE set. -/
def State.statusEnd (e : Err) (s : State) : State := { s with err := e, busy := false, done := true }

end Sys2Proof.Machine
end

