-- ==== Sys2Proof/Machine/Operands.lean ====
section
/-! DEFINITION. The operands of the commands (R51): what each command latches, how ARG0 splits, and the addresses a command may
touch with their range checks (R39, R42). Addresses are unbounded naturals, with no wrap at 2^32. -/

namespace Sys2Proof.Machine

/-- The operand registers that a command reads, latched when it starts (R17, R51). Registers it does not name are not read. -/
def latch (i : Instr) (s : State) : Operands :=
  match i with
  | .rdx => ⟨s.arg0, s.arg1, 0, s.timeout⟩
  | .skp => ⟨0, s.arg1, 0, s.timeout⟩
  | .map => ⟨s.arg0, 0, 0, 0⟩
  | .pck => ⟨s.arg0, s.arg1, s.arg2, 0⟩
  | .hdr => ⟨s.arg0, s.arg1, 0, 0⟩
  | .cvr => ⟨s.arg0, s.arg1, s.arg2, s.timeout⟩

/-- MAP: bits 31:24 of ARG0, which must be 0 (R51). -/
def rgbReserved (w : Word) : Byte := w.extractLsb' 24 8

/-- MAP: the sample in bits 23:16, 15:8 and 7:0 of ARG0 (R51). -/
def rgbOf (w : Word) : RGB := ⟨w.extractLsb' 16 8, w.extractLsb' 8 8, w.extractLsb' 0 8⟩

/-- PCK: bits 31:4 of ARG0, which must be 0 (R51). -/
def idxReserved (w : Word) : BitVec 28 := w.extractLsb' 4 28

/-- PCK: the colour index code in bits 3:0 of ARG0 (R51). -/
def idxOf (w : Word) : Nibble := w.extractLsb' 0 4

/-- `addr .. addr+n-1` lies in `MEM`; for n = 0, `addr ≤ MEM_BYTES` (R42). -/
abbrev Fits (c : Config) (addr n : Nat) : Prop := addr + n ≤ c.memBytes

/-- PCK and CVR: the address of the byte that holds the pixel at position `p` (R34, R39). -/
def packedAddr (base p : Nat) : Nat := base + p / 2

/-- CVR: the length in bytes of a row of BGR triples (R56). -/
def rowBytes (c : Config) : Nat := 3 * c.width

/-- CVR: the last packed byte touched (R99). -/
def packedLast (c : Config) (base p0 : Nat) : Nat := base + (p0 + c.width - 1) / 2

/-- CVR: every address of its set lies in `MEM` (R42, R99). -/
abbrev RowFits (c : Config) (scratch p0 base : Nat) : Prop :=
  Fits c scratch (rowBytes c) ∧ packedLast c base p0 < c.memBytes

/-- CVR: the scratch and the packed bytes are disjoint (R99). -/
abbrev RowDisjoint (c : Config) (scratch p0 base : Nat) : Prop :=
  scratch + rowBytes c ≤ packedAddr base p0 ∨ packedLast c base p0 < scratch

/-- How many stream bytes a running command wants (R63, R72, R73, R99); 0 for a command without a reader. -/
def wanted (c : Config) (i : Instr) (o : Operands) : Nat :=
  match i with
  | .rdx => o.a1.toNat
  | .skp => o.a1.toNat
  | .map => 0
  | .pck => 0
  | .hdr => 0
  | .cvr => rowBytes c

end Sys2Proof.Machine
end

