-- ==== Sys2Proof/Machine/Ops.lean ====
section
/-! DEFINITION. The shared operations: bytes of `MEM`, registers at the host port, `anyvalue`, the start and the two ends of a
command (R115, R116), and reset (R130). There are no traps (R112): `State.raise` is what takes an exception's place, and there
is no return from it (R119). -/

namespace Sys2Proof.Machine

/-! ### The memory list -/

/-- The byte written at an address since reset, if one was. -/
def Memory.lookup : Memory → Nat → Option Byte
  | [], _ => none
  | (b, v) :: m, a => if b = a then some v else Memory.lookup m a

/-- Store one byte, in the canonical form. -/
def Memory.write : Memory → Nat → Byte → Memory
  | [], a, v => [(a, v)]
  | (b, w) :: m, a, v =>
    if a < b then (a, v) :: (b, w) :: m
    else if a = b then (a, v) :: m
    else (b, w) :: Memory.write m a v

/-- Store bytes at ascending addresses, the first at `a` (R32). -/
def Memory.writeList : Memory → Nat → List Byte → Memory
  | m, _, [] => m
  | m, a, v :: vs => Memory.writeList (m.write a v) (a + 1) vs

/-! ### Bytes of `MEM` as commands and host see them -/

/-- `MEM[a]` (R12). A byte that nothing has written since reset is a free value, the same at every read (R29, R41; log entry 4). -/
def State.byte (s : State) (a : Nat) : Byte := (s.mem.lookup a).getD (Config.freeByte s.memDraw a)

/-- `MemRead(a, n)`: n bytes, least significant byte at the lowest address (R12, R33). -/
def State.memRead (s : State) (a : Nat) : Nat → Nat
  | 0 => 0
  | n + 1 => (s.byte a).toNat + 256 * s.memRead (a + 1) n

/-- `MemWrite(a, 1, v)` (R12). -/
def State.setByte (s : State) (a : Nat) (v : Byte) : State := { s with mem := s.mem.write a v }

/-- Bytes stored at ascending addresses. -/
def State.setBytes (s : State) (a : Nat) (vs : List Byte) : State := { s with mem := s.mem.writeList a vs }

/-- A run of free bytes for the addresses `a .. a+n-1`, all of one draw. -/
def freeBytes (draw a n : Nat) : List Byte := (List.range n).map fun i => Config.freeByte draw (a + i)

/-- `MEM[a + i] <- anyvalue` for i = 0..n-1 (R72, R99): a fresh draw. -/
def State.scramble (s : State) (a n : Nat) : State :=
  { s.setBytes a (freeBytes s.draws a n) with draws := s.draws + 1 }

/-! ### The start and the end of a command -/

/-- `complete(v)` (R12, R116). -/
def State.complete (v : Word) (s : State) : State := { s.statusEnd .none with res := v, running := none }

/-- `raise Error(code)` (R12, R112, R116): the code in STATUS.ERR, RES = 0, and nothing else (R114). -/
def State.raise (e : Err) (s : State) : State := { s.statusEnd e with res := 0, running := none }

/-- A command starts (R115): STATUS, then the operands it names are latched. RES keeps its value. -/
def State.start (i : Instr) (s : State) : State :=
  { s.statusStart with running := some { instr := i, ops := latch i s, got := 0, stall := 0, chunk := [] } }

/-- The write of a reserved word starts and at once ends a command with E_OPCODE (R52). -/
def State.reservedCommand (s : State) : State := s.statusStart.raise .opcode

/-- The running command goes on with `body`, unless the host moves first (log entry 7). -/
def goOn (body : Running → State → State) (s : State) : State :=
  match s.env with
  | .hostTurn :: _ => s
  | _ =>
    match s.running with
    | some r => body r s
    | none => s

/-- A command as the host sees it (R115, R117): refused while another runs (R135), else started and run. It always answers a next
state. -/
def command (i : Instr) (body : Running → State → State) (s : State) : Host.Outcome State Fault Refusal :=
  if s.busy then .refused .hostAccessWhileBusy else .next (goOn body (s.start i))

/-! ### Registers at the host port -/

/-- The 3-bit register numbers (R16). -/
def Reg.number : Reg → BitVec 3
  | .cmd      => 0
  | .arg0     => 1
  | .arg1     => 2
  | .arg2     => 3
  | .res      => 4
  | .status   => 5
  | .timeout  => 6
  | .reserved => 7

/-- The byte offset of a register, 4 × its number (R16). -/
def Reg.offset (r : Reg) : Nat := 4 * r.number.toNat

/-- A register read (R16 to R21): CMD and register 7 read 0. No side effect (R41). -/
def State.readReg (s : State) : Reg → Word
  | .cmd      => 0
  | .arg0     => s.arg0
  | .arg1     => s.arg1
  | .arg2     => s.arg2
  | .res      => s.res
  | .status   => s.statusWord
  | .timeout  => s.timeout
  | .reserved => 0

/-- A register write other than to CMD (R16 to R21): writes to RES, STATUS and register 7 are ignored. A write to CMD stores
nothing (R19); what it starts is in the host port. -/
def State.writeReg (s : State) (w : Word) : Reg → State
  | .cmd      => s
  | .arg0     => { s with arg0 := w }
  | .arg1     => { s with arg1 := w }
  | .arg2     => { s with arg2 := w }
  | .res      => s
  | .status   => s
  | .timeout  => { s with timeout := w }
  | .reserved => s

/-! ### Reset -/

/-- The reset input (R130, R131): registers as in R29, `MEM` unspecified by a fresh draw, a running command abandoned; the
configuration, the stream and the host stay. -/
def State.doReset (s : State) : State :=
  { State.reset with
    cfg := s.cfg, env := s.env, spos := s.spos, host := s.host, memDraw := s.draws, draws := s.draws + 1 }

end Sys2Proof.Machine
end

