-- ==== Sys2Proof/Machine/Header.lean ====
section
/-! DEFINITION. The BMP Header Validator (R91, R92) and the command HDR (R95). -/

namespace Sys2Proof.Machine

/-- The distinct rejection reasons of `ParseHeader` (R91). -/
inductive HdrReject where
  | small | sig | bpp | dim
deriving DecidableEq, Repr

/-- The result of `ParseHeader` (R91). -/
inductive HdrResult where
  | accept (offset : Word)
  | reject (why : HdrReject)
deriving DecidableEq, Repr

/-- The error code of a rejection (R113). -/
def HdrReject.err : HdrReject → Err
  | .small => .hdrSmall
  | .sig   => .hdrSig
  | .bpp   => .hdrBpp
  | .dim   => .hdrDim

/-- The bits-per-pixel field, little-endian 16-bit at offset 28 (R57). -/
def hdrBppField (s : State) (h : Nat) : Nat := s.memRead (h + 28) 2

/-- `signed_32` (R11) of the width field at offset 18 (R57). Two's complement: PRESUMED, log entry 16. -/
def hdrWidthField (s : State) (h : Nat) : Int := (BitVec.ofNat 32 (s.memRead (h + 18) 4)).toInt

/-- `signed_32` of the height field at offset 22 (R57). -/
def hdrHeightField (s : State) (h : Nat) : Int := (BitVec.ofNat 32 (s.memRead (h + 22) 4)).toInt

/-- The pixel-data offset, little-endian 32-bit unsigned at offset 10 (R57). -/
def hdrOffsetField (s : State) (h : Nat) : Word := BitVec.ofNat 32 (s.memRead (h + 10) 4)

/-- The ASCII pair 'B','M' in the first two bytes (R57). ASCII: PRESUMED, log entry 16. -/
abbrev HdrSignature (s : State) (h : Nat) : Prop := s.byte h = 0x42 ∧ s.byte (h + 1) = 0x4D

/-- The dimension check (R91, R92): the width as a signed number, the height by its mathematical absolute value. -/
abbrev HdrDimensions (s : State) (h : Nat) : Prop :=
  hdrWidthField s h = s.cfg.width ∧ (hdrHeightField s h).natAbs = s.cfg.height

/-- `ParseHeader(h, n)` for the header at `h` in `MEM`, the checks in order (R91). -/
def parseHeader (s : State) (h n : Nat) : HdrResult :=
  if n < Config.hdrBytes then .reject .small
  else if ¬ HdrSignature s h then .reject .sig
  else if hdrBppField s h ≠ Config.bpp then .reject .bpp
  else if ¬ HdrDimensions s h then .reject .dim
  else .accept (hdrOffsetField s h)

/-- HDR once started (R95): the length check comes before the address check. -/
def hdrBody (r : Running) (s : State) : State :=
  if r.ops.a1.toNat < Config.hdrBytes then s.raise .hdrSmall
  else if Fits s.cfg r.ops.a0.toNat Config.hdrBytes then
    match parseHeader s r.ops.a0.toNat r.ops.a1.toNat with
    | .reject why => s.raise why.err
    | .accept offset => s.complete offset
  else s.raise .addr

/-- HDR (R95). -/
def execHdr (s : State) : Host.Outcome State Fault Refusal := command .hdr hdrBody s

end Sys2Proof.Machine
end

