-- ==== Sys2Proof/Machine/Packer.lean ====
section
/-! DEFINITION. The Pixel Packer (R85) and the command PCK (R89). -/

namespace Sys2Proof.Machine

/-- `Pack(old, idx, p)` (R85): even p, `idx[3:0] ++ old[3:0]`; odd p, `old[7:4] ++ idx[3:0]`. -/
def pack (old : Byte) (idx : Nibble) (p : Nat) : Byte :=
  if p % 2 = 0 then idx ++ old.extractLsb' 0 4 else old.extractLsb' 4 4 ++ idx

/-- Read, pack and write back the byte that holds position `p` (R39, R40). -/
def State.packPixel (s : State) (base p : Nat) (idx : Nibble) : State :=
  s.setByte (packedAddr base p) (pack (s.byte (packedAddr base p)) idx p)

/-- PCK once started (R89). -/
def pckBody (r : Running) (s : State) : State :=
  if idxReserved r.ops.a0 = 0 then
    if packedAddr r.ops.a2.toNat r.ops.a1.toNat < s.cfg.memBytes then
      (s.packPixel r.ops.a2.toNat r.ops.a1.toNat (idxOf r.ops.a0)).complete 0
    else s.raise .addr
  else s.raise .operand

/-- PCK (R89). -/
def execPck (s : State) : Host.Outcome State Fault Refusal := command .pck pckBody s

end Sys2Proof.Machine
end

