-- ==== Sys2Proof/Machine/Quantizer.lean ====
section
/-! DEFINITION. The Color Quantizer (R76 to R81) and the command MAP (R83). Arithmetic is on unbounded integers (R81). -/

namespace Sys2Proof.Machine

/-- `|a - b|`, the mathematical absolute value (R11, R81). -/
def absDiff (a b : Byte) : Nat := ((a.toNat : Int) - (b.toNat : Int)).natAbs

/-- Within the tolerance of a triple in every channel, inclusive (R77). -/
abbrev WithinTol (x p : RGB) : Prop :=
  absDiff x.r p.r ≤ Config.tol ∧ absDiff x.g p.g ≤ Config.tol ∧ absDiff x.b p.b ≤ Config.tol

/-- `Tier1(r, g, b)` (R77): the first colour in tier-1 order whose primary is within the tolerance. -/
def tier1 (x : RGB) : Option Color := Color.tier1Order.find? fun c => WithinTol x (Config.prim c)

/-- The squared Euclidean distance (R79). -/
def dist2 (x p : RGB) : Nat := absDiff x.r p.r ^ 2 + absDiff x.g p.g ^ 2 + absDiff x.b p.b ^ 2

/-- The best colour so far and its distance; no distance stands for `+infinity` (R79, R80). -/
structure Best where
  color : Color
  dist  : Option Nat
deriving DecidableEq, Repr

/-- One comparison of tier 2, strict (R79). -/
def tier2Step (x : RGB) (best : Best) (e : PalEntry) : Best :=
  match best.dist with
  | none => ⟨e.color, some (dist2 x e.rgb)⟩
  | some d => if dist2 x e.rgb < d then ⟨e.color, some (dist2 x e.rgb)⟩ else best

/-- `Tier2(r, g, b)` (R79): in table order, starting from WHITE and `+infinity`. -/
def tier2 (c : Config) (x : RGB) : Color := (c.pal12.foldl (tier2Step x) ⟨.white, none⟩).color

/-- `Quantize(r, g, b)` (R76). -/
def quantize (c : Config) (x : RGB) : Color :=
  match tier1 x with
  | some col => col
  | none => tier2 c x

/-- MAP once started (R83). -/
def mapBody (r : Running) (s : State) : State :=
  if rgbReserved r.ops.a0 = 0 then
    s.complete ((s.cfg.code (quantize s.cfg (rgbOf r.ops.a0))).setWidth 32)
  else s.raise .operand

/-- MAP (R83). -/
def execMap (s : State) : Host.Outcome State Fault Refusal := command .map mapBody s

end Sys2Proof.Machine
end

