-- ==== Sys2Proof/Machine/Reader.lean ====
section
/-! DEFINITION. The Byte-Stream Reader: the engine shared by RDX, SKP and CVR (R63), and the commands RDX (R72) and SKP (R73). -/

namespace Sys2Proof.Machine

/-- How a stretch of the engine ended. -/
inductive RunStatus where
  /-- All wanted bytes have arrived. -/
  | ok
  /-- The stall counter reached the timeout. -/
  | fail
  /-- The host moves next; the run goes on afterwards. -/
  | paused
deriving DecidableEq, Repr

/-- A stretch of the engine: how it ended, the bytes it received in order, its counters and the events it left. -/
structure Run where
  status : RunStatus
  bytes  : List Byte
  got    : Nat
  stall  : Nat
  rest   : List Event
deriving DecidableEq, Repr

/-- `ReaderRun(n, T, sink)` from the counters `got` and `stall` (R63); the sink is the caller's, on `bytes`. When no event is
left, the timebase goes on (R61) and the run fails by timeout (R69). -/
def readerRun (n t : Nat) : Nat → Nat → List Event → Run
  | got, stall, [] =>
    if n ≤ got then ⟨.ok, [], got, stall, []⟩ else ⟨.fail, [], got, stall, []⟩
  | got, stall, e :: es =>
    if n ≤ got then ⟨.ok, [], got, stall, e :: es⟩
    else
      match e with
      | .byte v =>
        let r := readerRun n t (got + 1) 0 es
        { r with bytes := v :: r.bytes }
      | .tick => if t ≤ stall + 1 then ⟨.fail, [], got, stall + 1, es⟩ else readerRun n t got (stall + 1) es
      | .hostTurn => ⟨.paused, [], got, stall, .hostTurn :: es⟩

/-- The engine of a running command: `n` bytes wanted, the latched timeout, from its counters. -/
def engine (n : Nat) (r : Running) (s : State) : Run := readerRun n r.ops.t.toNat r.got r.stall s.env

/-- The stream position and the events after a stretch of the engine (R61). -/
def State.consume (u : Run) (s : State) : State := { s with env := u.rest, spos := s.spos + u.bytes.length }

/-- The counters kept while the command waits for the host's turn (R26). -/
def State.keep (r : Running) (u : Run) (chunk : List Byte) (s : State) : State :=
  { s with running := some { r with got := u.got, stall := u.stall, chunk := chunk } }

/-- Read `n` bytes into `MEM` at `addr`, then `done`; on a timeout the destination is unspecified and the command ends with
E_TIMEOUT (R72, R99). -/
def readInto (addr n : Nat) (done : State → State) (r : Running) (s : State) : State :=
  let u := engine n r s
  let s' := (s.consume u).setBytes (addr + r.got) u.bytes
  match u.status with
  | .ok => done s'
  | .fail => (s'.scramble addr n).raise .timeout
  | .paused => s'.keep r u r.chunk

/-- RDX once started (R72). -/
def rdxBody (r : Running) (s : State) : State :=
  if Fits s.cfg r.ops.a0.toNat r.ops.a1.toNat then
    readInto r.ops.a0.toNat r.ops.a1.toNat (State.complete 0) r s
  else s.raise .addr

/-- RDX (R72). -/
def execRdx (s : State) : Host.Outcome State Fault Refusal := command .rdx rdxBody s

/-- SKP's chunk buffer after one more byte: emptied when it holds SKIP_CHUNK bytes (R74; log entry 12). -/
def chunkPush (cap : Nat) (chunk : List Byte) (v : Byte) : List Byte :=
  if cap ≤ chunk.length + 1 then [] else chunk ++ [v]

/-- SKP once started (R73): the bytes go to the chunk buffer and nowhere else. -/
def skpBody (r : Running) (s : State) : State :=
  let u := engine r.ops.a1.toNat r s
  let s' := s.consume u
  match u.status with
  | .ok => s'.complete 0
  | .fail => s'.raise .timeout
  | .paused => s'.keep r u (u.bytes.foldl (chunkPush s.cfg.skipChunk) r.chunk)

/-- SKP (R73). -/
def execSkp (s : State) : Host.Outcome State Fault Refusal := command .skp skpBody s

end Sys2Proof.Machine
end

