-- ==== Sys2Proof/Machine/RowConverter.lean ====
section
/-! DEFINITION. The row converter, command CVR (R99): a whole row is read into the scratch, then each triple is quantized and
packed, in ascending order (R100). -/

namespace Sys2Proof.Machine

/-- The BGR triple stored at `t` (R35). -/
def State.bgr (s : State) (t : Nat) : RGB := ⟨s.byte (t + 2), s.byte (t + 1), s.byte t⟩

/-- Convert pixel `x` of the row: quantize its triple and pack its code (R99). -/
def convertPixel (scratch p0 base x : Nat) (s : State) : State :=
  s.packPixel base (p0 + x) (s.cfg.code (quantize s.cfg (s.bgr (scratch + 3 * x))))

/-- Convert `n` pixels from pixel `x` on, ascending (R99). -/
def convertPixels (scratch p0 base : Nat) : Nat → Nat → State → State
  | _, 0, s => s
  | x, n + 1, s => convertPixels scratch p0 base (x + 1) n (convertPixel scratch p0 base x s)

/-- CVR once started (R99): E_ADDR, then E_OPERAND for an overlap, then the row. -/
def cvrBody (r : Running) (s : State) : State :=
  if RowFits s.cfg r.ops.a0.toNat r.ops.a1.toNat r.ops.a2.toNat then
    if RowDisjoint s.cfg r.ops.a0.toNat r.ops.a1.toNat r.ops.a2.toNat then
      readInto r.ops.a0.toNat (rowBytes s.cfg)
        (fun t => (convertPixels r.ops.a0.toNat r.ops.a1.toNat r.ops.a2.toNat 0 s.cfg.width t).complete 0) r s
    else s.raise .operand
  else s.raise .addr

/-- CVR (R99). -/
def execCvr (s : State) : Host.Outcome State Fault Refusal := command .cvr cvrBody s

end Sys2Proof.Machine
end

