-- ==== Sys2Proof/Machine/Dispatch.lean ====
section
/-! DEFINITION. The meaning of each command, one arm per constructor. -/

namespace Sys2Proof.Machine

/-- The command `i` started in state `s` (R115), as one transition (R117). -/
def exec (i : Instr) (s : State) : Host.Outcome State Fault Refusal :=
  match i with
  | .rdx => Sys2Proof.Machine.execRdx s
  | .skp => Sys2Proof.Machine.execSkp s
  | .map => Sys2Proof.Machine.execMap s
  | .pck => Sys2Proof.Machine.execPck s
  | .hdr => Sys2Proof.Machine.execHdr s
  | .cvr => Sys2Proof.Machine.execCvr s

end Sys2Proof.Machine
end

