-- ==== Sys2Proof/Machine/HostPort.lean ====
section
/-! DEFINITION. The host port (R104): what each host action does, what is refused while a command runs (R135), and how a command
that waited for the host goes on. -/

namespace Sys2Proof.Machine

/-- A write of `w` to CMD while BUSY = 0 (R19, R115): the command that `w` encodes, or E_OPCODE (R52). -/
def writeCmd (w : Word) (s : State) : Host.Outcome State Fault Refusal :=
  match decode w with
  | .command i => exec i s
  | .reserved _ => .next s.reservedCommand

/-- A buffer access at `a`: refused outside `MEM` (R31). -/
def withAddress (a : Nat) (s t : State) : Host.Outcome State Fault Refusal :=
  if a < s.cfg.memBytes then .next t else .refused .hostAddressOutsideMem

/-- A read of STATUS (R20), the one access that has a meaning at all times. -/
def State.pollStatus (s : State) : State := { s with reply := .word (s.readReg .status) }

/-- A host action while BUSY = 0 (R105). The read of a `WAIT` finds BUSY = 0, so the line is done (R59). -/
def idleAction (a : HostAction) (s : State) : Host.Outcome State Fault Refusal :=
  match a with
  | .readReg r => .next { s with reply := .word (s.readReg r) }
  | .wait => .next s.pollStatus
  | .writeReg .cmd w => writeCmd w { s with reply := .nothing }
  | .writeReg r w => .next ({ s with reply := .nothing }.writeReg w r)
  | .readMem a => withAddress a s { s with reply := .byte (s.byte a) }
  | .writeMem a v => withAddress a s ({ s with reply := .nothing }.setByte a v)
  | .reset => .next s.doReset

/-- A host action while BUSY = 1 (R105, R135): only a read of STATUS and a reset have a meaning. The read of a `WAIT` finds BUSY = 1,
so the line stays the host's next one (R59). -/
def busyAction (a : HostAction) (s : State) : Host.Outcome State Fault Refusal :=
  match a with
  | .readReg .status => .next s.pollStatus
  | .wait => .next { s.pollStatus with host := .wait :: s.host }
  | .reset => .next s.doReset
  | .readReg _ => .refused .hostAccessWhileBusy
  | .writeReg _ _ => .refused .hostAccessWhileBusy
  | .readMem _ => .refused .hostAccessWhileBusy
  | .writeMem _ _ => .refused .hostAccessWhileBusy

/-- The body of a command that was started. -/
def bodyOf : Instr → Running → State → State
  | .rdx => rdxBody
  | .skp => skpBody
  | .map => mapBody
  | .pck => pckBody
  | .hdr => hdrBody
  | .cvr => cvrBody

/-- The running command goes on. A busy state without a running command is reached by no run; it stays (log entry 19). -/
def resume (s : State) : State :=
  match s.running with
  | some r => bodyOf r.instr r s
  | none => s

/-- One step while idle: the host's next action; without one the block does nothing and keeps all its state (R129). -/
def idleStep (s : State) : Host.Outcome State Fault Refusal :=
  match s.host with
  | [] => .next s
  | a :: rest => idleAction a { s with host := rest }

/-- One step while a command runs: at a host turn the host's next action, else the command goes on (log entry 7). -/
def busyStep (s : State) : Host.Outcome State Fault Refusal :=
  match s.env with
  | .hostTurn :: es =>
    match s.host with
    | [] => .next { s with env := es }
    | a :: rest => busyAction a { s with env := es, host := rest }
  | _ => .next (resume s)

/-- The state in which the host's next action is the write of `w` to CMD, with no command running. Log entry 8. -/
def State.withCommandWord (s : State) (w : Word) : State :=
  { s with busy := false, running := none, host := .writeReg .cmd w :: s.host }

end Sys2Proof.Machine
end

