-- ==== Sys2Proof/Machine/Step.lean ====
section
/-! DEFINITION. One step of the machine (R10): a host action, or a stretch of the running command up to its end or to the host's
next turn (R117). -/

namespace Sys2Proof.Machine

/-- One step. -/
def step (s : State) : Host.Outcome State Fault Refusal :=
  if s.busy then busyStep s else idleStep s

/-- The state whose next step runs the command word `w` of the opcode table. A command word comes from the host's write to CMD
and from nowhere else (R47), so that write is what is placed. Log entry 8. -/
def State.withFetchWord (s : State) (nbits w : Nat) : State :=
  s.withCommandWord (BitVec.ofNat 32 (tableWord nbits w))

end Sys2Proof.Machine
end

