-- ==== Sys2Proof/Machine/Script.lean ====
section
/-! DEFINITION. Host scripts (R59): the pseudo-instructions (R60) as lists of host actions, and the host's two transfer paths (R109,
R110), which run such scripts, branch on what STATUS and RES read back (R58) and call the panel driver (R107). Log entry 24. -/

namespace Sys2Proof.Machine

/-! ### Running scripts -/

/-- Go on with the result; a stop stays. -/
def andThen {α β : Type} (o : Host.Outcome α Fault Refusal) (f : α → Host.Outcome β Fault Refusal) :
    Host.Outcome β Fault Refusal :=
  match o with
  | .next x => f x
  | .fault r => .fault r
  | .refused r => .refused r

/-- `n` steps, up to the first stop. -/
def runFor : Nat → State → Host.Outcome State Fault Refusal
  | 0, s => .next s
  | n + 1, s => andThen (step s) (runFor n)

/-- The word that a register read got back (R105); a register read always answers a word (R16), so the other cases do not arise. -/
def Reply.value : Reply → Word
  | .nothing => 0
  | .word w => w
  | .byte v => v.setWidth 32

/-- The byte that a buffer read got back (R31), as a list of one; a buffer read always answers a byte. -/
def Reply.bytes : Reply → List Byte
  | .nothing => []
  | .word _ => []
  | .byte v => [v]

/-- The field ERR of a STATUS word that the host read (R20). -/
def Reply.errCode (r : Reply) : Nibble := r.value.extractLsb' 4 4

/-! ### The host's transfers -/

/-- A call of the panel driver (R107). Nothing of the block depends on it. -/
inductive PanelCall where
  /-- Bytes forwarded by the direct path (R109). -/
  | stream (vs : List Byte)
  /-- `displayPackedBuffer` (R110). -/
  | packedBuffer (vs : List Byte)
  /-- `sleep()` (R109). -/
  | sleep
deriving DecidableEq, Repr

/-- What a transfer returns (R109, R110). -/
inductive Verdict where
  | success
  | failure
  /-- The loop of the direct path does not end: only with chunk size 0, which R109 does not use. Log entry 24. -/
  | unfinished
deriving DecidableEq, Repr

/-- A transfer at its end: the block, the panel calls in order, and what it returns. -/
structure Transfer where
  block   : State
  panel   : List PanelCall
  verdict : Verdict
deriving DecidableEq, Repr

namespace Script

/-- `GO mnemonic`: write the command word to CMD (R59). -/
def go (i : Instr) : HostAction := .writeReg .cmd (encode i)

/-- `WAIT`: reads of STATUS until BUSY = 0 (R59), one where no host turn stands in the command (R117). -/
def wait : HostAction := .wait

/-- `RDX addr, len` (R60). -/
def rdx (addr len : Word) : List HostAction := [.writeReg .arg0 addr, .writeReg .arg1 len, go .rdx, wait]

/-- `SKP len` (R60). -/
def skp (len : Word) : List HostAction := [.writeReg .arg1 len, go .skp, wait]

/-- `MAP r, g, b` (R60): ARG0 = (r << 16) + (g << 8) + b. -/
def map (x : RGB) : List HostAction := [.writeReg .arg0 ((0 : Byte) ++ x.r ++ x.g ++ x.b), go .map, wait]

/-- `PCK idx, p, base` (R60). -/
def pck (idx p base : Word) : List HostAction :=
  [.writeReg .arg0 idx, .writeReg .arg1 p, .writeReg .arg2 base, go .pck, wait]

/-- `HDR addr, n` (R60). -/
def hdr (addr n : Word) : List HostAction := [.writeReg .arg0 addr, .writeReg .arg1 n, go .hdr, wait]

/-- `CVR S, p0, base` (R60). -/
def cvr (scratch p0 base : Word) : List HostAction :=
  [.writeReg .arg0 scratch, .writeReg .arg1 p0, .writeReg .arg2 base, go .cvr, wait]

/-- `SETT ms` (R60). -/
def sett (ms : Word) : List HostAction := [.writeReg .timeout ms]

/-- The host runs these lines to their end. Each step of an unfinished script uses up a line, an event or the end of a command, so
that this many steps are enough; a finished host waits. -/
def run (lines : List HostAction) (s : State) : Host.Outcome State Fault Refusal :=
  runFor (2 * lines.length + s.env.length + 1) { s with host := lines }

/-- The lines of a pseudo-instruction, then the test of `STATUS.ERR` (R60, R105): go on when it is 0, else make the panel calls of
the error and return FAILURE. -/
def tested (lines : List HostAction) (onError : List PanelCall) (s : State)
    (next : State → Host.Outcome Transfer Fault Refusal) : Host.Outcome Transfer Fault Refusal :=
  andThen (run (lines ++ [.readReg .status]) s) fun t =>
    if t.reply.errCode = 0 then next t else .next ⟨t, onError, .failure⟩

/-- `MR a .. MR a+n-1` (R59), with the bytes read. -/
def readOut : Nat → Nat → State → Host.Outcome (State × List Byte) Fault Refusal
  | _, 0, s => .next (s, [])
  | a, n + 1, s =>
    andThen (run [.readMem a] s) fun t =>
      andThen (readOut (a + 1) n t) fun u => .next (u.1, t.reply.bytes ++ u.2)

/-- The loop of the direct path (R109): chunks of `size` bytes, the last one shorter, through the chunk area at `area`, with so many
bytes remaining. The first number bounds the rounds. -/
def directChunks (size : Nat) (area : Word) : Nat → Nat → State → Host.Outcome Transfer Fault Refusal
  | _, 0, s => .next ⟨s, [], .success⟩
  | 0, _ + 1, s => .next ⟨s, [], .unfinished⟩
  | rounds + 1, remaining + 1, s =>
    let c := min size (remaining + 1)
    tested (rdx area (BitVec.ofNat 32 c)) [.sleep] s fun t =>
      andThen (readOut area.toNat c t) fun u =>
        andThen (directChunks size area rounds (remaining + 1 - c) u.1) fun v =>
          .next { v with panel := .stream u.2 :: v.panel }

/-- The direct path (R109): the check of the declared length, where there is one, then the frame in chunks. -/
def directPath (declared : Option Nat) (size : Nat) (area : Word) (s : State) : Host.Outcome Transfer Fault Refusal :=
  if declared = none ∨ declared = some s.cfg.frameBytes then directChunks size area s.cfg.frameBytes s.cfg.frameBytes s
  else .next ⟨s, [], .failure⟩

/-- The position of the first pixel of the i-th row in file order (R110): bottom-up. PRESUMED, log entry 21. -/
def bottomUp (c : Config) (i : Nat) : Word := BitVec.ofNat 32 ((c.height - 1 - i) * c.width)

/-- The padding a standard file has after each row (R102). PRESUMED, log entry 21. -/
def rowPadding (c : Config) : Nat := (4 - 3 * c.width % 4) % 4

/-- The i-th row in file order of the BMP path: CVR, then the padding where there is any (R110, R102). -/
def bmpRow (scratch base : Word) (i : Nat) (s : State) (next : State → Host.Outcome Transfer Fault Refusal) :
    Host.Outcome Transfer Fault Refusal :=
  tested (cvr scratch (bottomUp s.cfg i) base) [] s fun t =>
    if rowPadding t.cfg = 0 then next t else tested (skp (BitVec.ofNat 32 (rowPadding t.cfg))) [] t next

/-- The rows of the BMP path from the i-th on, then the frame handed to the panel as a whole (R110). -/
def bmpRows (scratch base : Word) : Nat → Nat → State → Host.Outcome Transfer Fault Refusal
  | _, 0, s => andThen (readOut base.toNat s.cfg.frameBytes s) fun u => .next ⟨u.1, [.packedBuffer u.2], .success⟩
  | i, n + 1, s => bmpRow scratch base i s (bmpRows scratch base (i + 1) n)

/-- The legacy BMP path (R110). The pixel-data offset is what RES reads back, and the host tests it itself (R138). FAILURE makes no call
of the panel: its sleep is left to the orchestrator (R106). DESIGN CHOICE, log entry 24. -/
def bmpPath (header scratch base : Word) (s : State) : Host.Outcome Transfer Fault Refusal :=
  tested (rdx header 54) [] s fun t =>
    tested (hdr header 54) [] t fun u =>
      andThen (run [.readReg .res] u) fun v =>
        let off := v.reply.value
        if off.toNat < 54 then .next ⟨v, [], .failure⟩
        else tested (skp (off - 54)) [] v (bmpRows scratch base 0 s.cfg.height)

end Script

end Sys2Proof.Machine
end

