-- ==== Sys2Proof/Safety.lean ====
section
/-! DEFINITION. The terms the claims use: the invariant, finished runs, the two classes of errors (R113), how bytes arrive (R64),
the pixel of a packed buffer (R34), and the host script that CVR is equal to (R101). -/

namespace Sys2Proof.Machine

/-! ### Errors and finished runs -/

/-- Codes 1 to 5: conditions of the outside world, which a correct host must expect (R113). -/
def Err.ofTheWorld : Err → Bool
  | .timeout | .hdrSmall | .hdrSig | .hdrBpp | .hdrDim => true
  | .none | .opcode | .addr | .operand => false

/-- Codes 6 to 8: mistakes of the host's program (R113). -/
def Err.ofTheHost : Err → Bool
  | .opcode | .addr | .operand => true
  | .none | .timeout | .hdrSmall | .hdrSig | .hdrBpp | .hdrDim => false

/-- A finished run (R117): no command is busy and the host has no action left. -/
abbrev State.Finished (s : State) : Prop := s.busy = false ∧ s.host = []

/-- `s` after a command ended with code `e` and RES `v`, nothing else changed (R116, R118). -/
def State.ended (s : State) (e : Err) (v : Word) : State :=
  { s with busy := false, done := true, err := e, res := v, running := none }

/-! ### The environment's events -/

/-- The host does not move before the next event. -/
abbrev State.NoTurn (s : State) : Prop := s.env.head? ≠ some .hostTurn

/-- The host does not move during these events. -/
abbrev NoHostTurn (es : List Event) : Prop := Event.hostTurn ∉ es

/-- What of these events the block sees: the bytes and the ticks (R61), without the model's host turns (log entry 7). -/
def blockEvents (es : List Event) : List Event := es.filter fun e => e ≠ .hostTurn

/-- Bytes that arrive, each after a gap of so many ticks (R64). -/
def delivery (gs : List (Nat × Byte)) : List Event := gs.flatMap fun g => List.replicate g.1 .tick ++ [.byte g.2]

/-- The bytes of a delivery, in order. -/
def delivered (gs : List (Nat × Byte)) : List Byte := gs.map fun g => g.2

/-- `T' = max(T, 1)` (R64). -/
def effTimeout (t : Word) : Nat := max t.toNat 1

/-- Every gap of a delivery is below the timeout (R64). -/
abbrev InTime (t : Word) (gs : List (Nat × Byte)) : Prop := ∀ g ∈ gs, g.1 < effTimeout t

/-- Where the bytes of a failed run go on: T' ticks and then anything, or fewer ticks and no event left (R64, R69). -/
abbrev Stalls (t : Word) (es rest : List Event) : Prop :=
  es = List.replicate (effTimeout t) Event.tick ++ rest ∨
    rest = [] ∧ ∃ j, j < effTimeout t ∧ es = List.replicate j Event.tick

/-- How many of these events are bytes. -/
def byteCount (es : List Event) : Nat := (es.filter fun e => match e with | .byte _ => true | _ => false).length

/-- How many of these events are ticks. -/
def tickCount (es : List Event) : Nat := (es.filter fun e => match e with | .tick => true | _ => false).length

/-! ### Memory -/

/-- An address of the `n` bytes from `a` on. -/
abbrev InRange (a n x : Nat) : Prop := a ≤ x ∧ x < a + n

/-- The code of the pixel at position `p` of the packed buffer at `base` (R34): bits 7:4 for even p, bits 3:0 for odd p. -/
def State.pixel (s : State) (base p : Nat) : Nibble :=
  if p % 2 = 0 then (s.byte (base + p / 2)).extractLsb' 4 4 else (s.byte (base + p / 2)).extractLsb' 0 4

/-- The bytes of `MEM` that a command may write, by the addresses that its meaning uses (R38, R39). -/
def MayWrite (i : Instr) (s : State) (a : Nat) : Prop :=
  match i with
  | .rdx => InRange s.arg0.toNat s.arg1.toNat a
  | .skp => False
  | .map => False
  | .pck => a = packedAddr s.arg2.toNat s.arg1.toNat
  | .hdr => False
  | .cvr => InRange s.arg0.toNat (rowBytes s.cfg) a ∨
      (packedAddr s.arg2.toNat s.arg1.toNat ≤ a ∧ a ≤ packedLast s.cfg s.arg2.toNat s.arg1.toNat)

/-- The bytes of `MEM` that are unspecified after E_TIMEOUT (R72, R73, R99). -/
def Destination (i : Instr) (s : State) (a : Nat) : Prop :=
  match i with
  | .rdx => InRange s.arg0.toNat s.arg1.toNat a
  | .cvr => InRange s.arg0.toNat (rowBytes s.cfg) a
  | .skp | .map | .pck | .hdr => False

/-- The error codes a command may end with (R113). -/
def Err.mayEnd (e : Err) (i : Instr) : Bool :=
  match e with
  | .none => true
  | .timeout => i == .rdx || i == .skp || i == .cvr
  | .hdrSmall | .hdrSig | .hdrBpp | .hdrDim => i == .hdr
  | .opcode => false
  | .addr => i == .rdx || i == .pck || i == .hdr || i == .cvr
  | .operand => i == .map || i == .pck || i == .cvr

/-! ### The header fields in bytes -/

/-- Two bytes, the first least significant (R33). -/
def le16 (b0 b1 : Byte) : Nat := b0.toNat + 256 * b1.toNat

/-- Four bytes, the first least significant (R33). -/
def le32 (b0 b1 b2 b3 : Byte) : Nat := b0.toNat + 256 * b1.toNat + 65536 * b2.toNat + 16777216 * b3.toNat

/-- The header offsets that the checks name (R38, R57). -/
def examined : List Nat := [0, 1, 10, 11, 12, 13, 18, 19, 20, 21, 22, 23, 24, 25, 28, 29]

/-! ### The host's transfers -/

/-- The bytes that the direct path forwarded to the panel, in order (R109). -/
def forwarded (calls : List PanelCall) : List Byte :=
  calls.flatMap fun c => match c with
    | .stream vs => vs
    | .packedBuffer _ => []
    | .sleep => []

/-- What HDR answers for the 54 header bytes `h` (R95). -/
def headerError (c : Config) (h : Nat → Byte) : Err :=
  if h 0 ≠ 0x42 ∨ h 1 ≠ 0x4D then .hdrSig
  else if le16 (h 28) (h 29) ≠ 24 then .hdrBpp
  else if (BitVec.ofNat 32 (le32 (h 18) (h 19) (h 20) (h 21))).toInt ≠ c.width ∨
      (BitVec.ofNat 32 (le32 (h 22) (h 23) (h 24) (h 25))).toInt.natAbs ≠ c.height then .hdrDim
  else .none

/-- The code of the pixel at position `p` in the bytes of a packed frame (R55). -/
def pixelOf (vs : List Byte) (p : Nat) : Nibble :=
  if p % 2 = 0 then (vs.getD (p / 2) 0).extractLsb' 4 4 else (vs.getD (p / 2) 0).extractLsb' 0 4

/-- Two areas of `MEM`, each an address and a length, that share no byte. -/
abbrev Apart (a m b n : Nat) : Prop := a + m ≤ b ∨ b + n ≤ a

/-! ### The script that CVR is equal to -/

/-- `MAP r, g, b` with the triple read at `t`, then `PCK RES, p, base` (R101). -/
def scriptPixel (t p base : Nat) (s : State) : Host.Outcome State Fault Refusal :=
  andThen (exec .map { s with arg0 := (0 : Byte) ++ (s.bgr t).r ++ (s.bgr t).g ++ (s.bgr t).b }) fun u =>
    exec .pck { u with arg0 := u.res, arg1 := BitVec.ofNat 32 p, arg2 := BitVec.ofNat 32 base }

/-- The pixels of a row, ascending, `n` of them from pixel `x` on (R101). -/
def scriptPixels (scratch p0 base : Nat) : Nat → Nat → State → Host.Outcome State Fault Refusal
  | _, 0, s => .next s
  | x, n + 1, s =>
    andThen (scriptPixel (scratch + 3 * x) (p0 + x) base s) fun u => scriptPixels scratch p0 base (x + 1) n u

/-- The script of R101: RDX of the row, stop on an error, then MAP and PCK for each pixel. -/
def scriptRow (s : State) : Host.Outcome State Fault Refusal :=
  andThen (exec .rdx { s with arg1 := BitVec.ofNat 32 (rowBytes s.cfg) }) fun u =>
    if u.err = .none then scriptPixels s.arg0.toNat s.arg1.toNat s.arg2.toNat 0 s.cfg.width u else .next u

/-! ### The invariant -/

/-- The hidden state of a running command is legal (R26): its operands are those latched at its start, which nothing can have
changed since, and the counters and the chunk buffer are in their ranges. -/
structure RunningInv (s : State) (r : Running) : Prop where
  latched : r.ops = latch r.instr s
  got_le : r.got ≤ wanted s.cfg r.instr r.ops
  stall_lt : r.stall < effTimeout r.ops.t
  chunk_lt : r.chunk.length < s.cfg.skipChunk

/-- The invariant of the machine. -/
structure Inv (s : State) : Prop where
  /-- The configuration is well-formed (R8). -/
  config : s.cfg.WF
  /-- `MEM` is in its canonical form. -/
  canonical : s.mem.wf
  /-- Every byte of `MEM` lies in 0..MEM_BYTES−1 (R25). -/
  inside : ∀ c ∈ s.mem, c.1 < s.cfg.memBytes
  /-- BUSY and DONE are never both 1 (R20). -/
  busy_not_done : ¬ (s.busy = true ∧ s.done = true)
  /-- ERR ≠ 0 only when DONE = 1 (R20). -/
  err_done : s.err ≠ .none → s.done = true
  /-- RES is 0 after every error (R114). -/
  err_res : s.err ≠ .none → s.res = 0
  /-- Hidden state exists exactly while a command runs (R26). -/
  busy_running : s.busy = s.running.isSome
  /-- The hidden state is legal (R26). -/
  running : ∀ r, s.running = some r → RunningInv s r
  /-- The next draw of `anyvalue` is fresh (R12). -/
  fresh : s.memDraw < s.draws

end Sys2Proof.Machine
end

