-- ==== Sys2Proof/Certificates/Slice0/Obligations.lean ====
section
/-! DEFINITION. The statements about the machine, each from a numbered rule of spec/ or from a section of it. The terms they use
are in Sys2Proof/Safety.lean. -/

open Sys2Proof Sys2Proof.Machine

/-! ### Encoding, and how a command comes to run -/

/-- Sections 30 (R49, R50): the word of a command decodes to it. -/
def Obligations.EncodedCommandDecodesToItself : Prop :=
  ∀ i : Instr, i.wellFormed = true → decode (encode i) = .command i ∧ decodeTableWord 32 (encode i).toNat = some i

/-- R50: the six command words, written out, and no other. -/
def Obligations.CommandWordsAreOneToSix : Prop :=
  decode 0x00000001 = .command .rdx ∧ decode 0x00000002 = .command .skp ∧ decode 0x00000003 = .command .map ∧
  decode 0x00000004 = .command .pck ∧ decode 0x00000005 = .command .hdr ∧ decode 0x00000006 = .command .cvr ∧
  ∀ w : Word, (∀ i, decode w ≠ .command i) ↔ (w.toNat = 0 ∨ 6 < w.toNat)

/-- R52: a reserved word written to CMD ends at once with E_OPCODE; only STATUS and RES change. -/
def Obligations.ReservedWordEndsWithOpcodeError : Prop :=
  ∀ (s : State) (w : Word) (rest : List HostAction), s.busy = false → s.host = .writeReg .cmd w :: rest →
    (w.extractLsb' 4 28 ≠ 0 ∨ (w.extractLsb' 0 4).toNat = 0 ∨ 7 ≤ (w.extractLsb' 0 4).toNat) →
    step s = .next ({ s with host := rest, reply := .nothing }.ended .opcode 0)

/-- Sections 10 (R19) and 60 (R115): a write to CMD while idle runs the command that the word encodes, and nothing else. Around
`exec`, the step takes the action from the host's list and clears `reply`. -/
def Obligations.StepRunsTheDecodedCommand : Prop :=
  ∀ (s : State) (w : Word) (i : Instr) (rest : List HostAction), s.busy = false → s.host = .writeReg .cmd w :: rest →
    decode w = .command i → i.wellFormed = true → step s = exec i { s with host := rest, reply := .nothing }

/-- The model's own `withFetchWord` (log entry 8): the very next step runs the command whose word was placed. -/
def Obligations.PlacedWordRunsNext : Prop :=
  ∀ (s : State) (i : Instr),
    step (s.withFetchWord 32 (encode i).toNat) = exec i { s with busy := false, running := none, reply := .nothing }

/-! ### The commands -/

/-- R83: MAP. -/
def Obligations.MapQuantizesOneSample : Prop :=
  decode 0x00000003 = .command .map ∧
  ∀ s : State, s.busy = false → s.NoTurn →
    (s.arg0.extractLsb' 24 8 = 0 →
      exec .map s = .next (s.ended .none
        ((s.cfg.code (quantize s.cfg ⟨s.arg0.extractLsb' 16 8, s.arg0.extractLsb' 8 8, s.arg0.extractLsb' 0 8⟩)).setWidth 32))) ∧
    (s.arg0.extractLsb' 24 8 ≠ 0 → exec .map s = .next (s.ended .operand 0))

/-- R89: PCK. The byte stored to is the one of `packedAddr`; every other byte reads as before. -/
def Obligations.PckWritesOneNibble : Prop :=
  decode 0x00000004 = .command .pck ∧
  ∀ s : State, s.busy = false → s.NoTurn →
    (s.arg0.extractLsb' 4 28 ≠ 0 → exec .pck s = .next (s.ended .operand 0)) ∧
    (s.arg0.extractLsb' 4 28 = 0 → s.cfg.memBytes ≤ s.arg2.toNat + s.arg1.toNat / 2 →
      exec .pck s = .next (s.ended .addr 0)) ∧
    (s.arg0.extractLsb' 4 28 = 0 → s.arg2.toNat + s.arg1.toNat / 2 < s.cfg.memBytes →
      ∃ t : State, exec .pck s = .next t ∧ t = { s.ended .none 0 with mem := t.mem } ∧
        (s.arg1.toNat % 2 = 0 → t.byte (packedAddr s.arg2.toNat s.arg1.toNat) =
          s.arg0.extractLsb' 0 4 ++ (s.byte (packedAddr s.arg2.toNat s.arg1.toNat)).extractLsb' 0 4) ∧
        (s.arg1.toNat % 2 = 1 → t.byte (packedAddr s.arg2.toNat s.arg1.toNat) =
          (s.byte (packedAddr s.arg2.toNat s.arg1.toNat)).extractLsb' 4 4 ++ s.arg0.extractLsb' 0 4) ∧
        ∀ a, a ≠ packedAddr s.arg2.toNat s.arg1.toNat → t.byte a = s.byte a)

/-- R95 and R91: HDR, its five tests in order and the offset. -/
def Obligations.HdrChecksInOrder : Prop :=
  decode 0x00000005 = .command .hdr ∧
  ∀ s : State, s.busy = false → s.NoTurn →
    let h := fun o : Nat => s.byte (s.arg0.toNat + o)
    let w := (BitVec.ofNat 32 (le32 (h 18) (h 19) (h 20) (h 21))).toInt
    let ht := (BitVec.ofNat 32 (le32 (h 22) (h 23) (h 24) (h 25))).toInt
    exec .hdr s = .next
      (if s.arg1.toNat < 54 then s.ended .hdrSmall 0
       else if s.cfg.memBytes < s.arg0.toNat + 54 then s.ended .addr 0
       else if h 0 ≠ 0x42 ∨ h 1 ≠ 0x4D then s.ended .hdrSig 0
       else if le16 (h 28) (h 29) ≠ 24 then s.ended .hdrBpp 0
       else if w ≠ s.cfg.width ∨ ht.natAbs ≠ s.cfg.height then s.ended .hdrDim 0
       else s.ended .none (BitVec.ofNat 32 (le32 (h 10) (h 11) (h 12) (h 13))))

/-- R72: RDX. The address error before anything is read; success when every gap is below the timeout; otherwise E_TIMEOUT, the
destination a fresh draw of free values, and the stream advanced by the bytes that arrived. -/
def Obligations.RdxReadsExactly : Prop :=
  decode 0x00000001 = .command .rdx ∧
  ∀ s : State, s.busy = false → s.NoTurn →
    (s.cfg.memBytes < s.arg0.toNat + s.arg1.toNat → exec .rdx s = .next (s.ended .addr 0)) ∧
    (s.arg0.toNat + s.arg1.toNat ≤ s.cfg.memBytes → ∀ (gs : List (Nat × Byte)) (rest : List Event),
      InTime s.timeout gs → gs.length = s.arg1.toNat → s.env = delivery gs ++ rest →
      ∃ t : State, exec .rdx s = .next t ∧
        t = { s.ended .none 0 with mem := t.mem, env := rest, spos := s.spos + s.arg1.toNat } ∧
        (∀ i v, (delivered gs)[i]? = some v → t.byte (s.arg0.toNat + i) = v) ∧
        ∀ a, ¬ InRange s.arg0.toNat s.arg1.toNat a → t.byte a = s.byte a) ∧
    (s.arg0.toNat + s.arg1.toNat ≤ s.cfg.memBytes → ∀ (gs : List (Nat × Byte)) (es rest : List Event),
      InTime s.timeout gs → gs.length < s.arg1.toNat → s.env = delivery gs ++ es → Stalls s.timeout es rest →
      ∃ t : State, exec .rdx s = .next t ∧
        t = { s.ended .timeout 0 with
          mem := t.mem, env := rest, spos := s.spos + gs.length, draws := s.draws + 1 } ∧
        (∀ a, InRange s.arg0.toNat s.arg1.toNat a → t.byte a = Config.freeByte s.draws a) ∧
        ∀ a, ¬ InRange s.arg0.toNat s.arg1.toNat a → t.byte a = s.byte a)

/-- R73: SKP. It touches no byte of `MEM`. -/
def Obligations.SkpDiscardsExactly : Prop :=
  decode 0x00000002 = .command .skp ∧
  ∀ s : State, s.busy = false → s.NoTurn →
    (∀ (gs : List (Nat × Byte)) (rest : List Event),
      InTime s.timeout gs → gs.length = s.arg1.toNat → s.env = delivery gs ++ rest →
      exec .skp s = .next { s.ended .none 0 with env := rest, spos := s.spos + s.arg1.toNat }) ∧
    (∀ (gs : List (Nat × Byte)) (es rest : List Event),
      InTime s.timeout gs → gs.length < s.arg1.toNat → s.env = delivery gs ++ es → Stalls s.timeout es rest →
      exec .skp s = .next { s.ended .timeout 0 with env := rest, spos := s.spos + gs.length })

/-- R99: CVR. E_ADDR is tested before E_OPERAND, both before any event. On success the scratch holds the row as received, each
pixel of the row holds the code of its quantized triple, and every other pixel and every other byte is as before. On E_TIMEOUT only
the scratch is lost. -/
def Obligations.CvrConvertsOneRow : Prop :=
  decode 0x00000006 = .command .cvr ∧
  ∀ s : State, s.busy = false → s.NoTurn → s.cfg.WF →
    let lo := s.arg2.toNat + s.arg1.toNat / 2
    let hi := s.arg2.toNat + (s.arg1.toNat + s.cfg.width - 1) / 2
    let outside := s.cfg.memBytes < s.arg0.toNat + 3 * s.cfg.width ∨ s.cfg.memBytes ≤ hi
    let apart := s.arg0.toNat + 3 * s.cfg.width ≤ lo ∨ hi < s.arg0.toNat
    (outside → exec .cvr s = .next (s.ended .addr 0)) ∧
    (¬ outside → ¬ apart → exec .cvr s = .next (s.ended .operand 0)) ∧
    (¬ outside → apart → ∀ (gs : List (Nat × Byte)) (rest : List Event),
      InTime s.timeout gs → gs.length = 3 * s.cfg.width → s.env = delivery gs ++ rest →
      ∃ t : State, exec .cvr s = .next t ∧
        t = { s.ended .none 0 with mem := t.mem, env := rest, spos := s.spos + 3 * s.cfg.width } ∧
        (∀ i v, (delivered gs)[i]? = some v → t.byte (s.arg0.toNat + i) = v) ∧
        (∀ x b g r, x < s.cfg.width → (delivered gs)[3 * x]? = some b → (delivered gs)[3 * x + 1]? = some g →
          (delivered gs)[3 * x + 2]? = some r →
          t.pixel s.arg2.toNat (s.arg1.toNat + x) = s.cfg.code (quantize s.cfg ⟨r, g, b⟩)) ∧
        (∀ p, p < s.arg1.toNat ∨ s.arg1.toNat + s.cfg.width ≤ p →
          ¬ InRange s.arg0.toNat (rowBytes s.cfg) (packedAddr s.arg2.toNat p) →
          t.pixel s.arg2.toNat p = s.pixel s.arg2.toNat p) ∧
        (∀ a, ¬ InRange s.arg0.toNat (rowBytes s.cfg) a →
          ¬ (packedAddr s.arg2.toNat s.arg1.toNat ≤ a ∧ a ≤ packedLast s.cfg s.arg2.toNat s.arg1.toNat) →
          t.byte a = s.byte a)) ∧
    (¬ outside → apart → ∀ (gs : List (Nat × Byte)) (es rest : List Event),
      InTime s.timeout gs → gs.length < 3 * s.cfg.width → s.env = delivery gs ++ es → Stalls s.timeout es rest →
      ∃ t : State, exec .cvr s = .next t ∧
        t = { s.ended .timeout 0 with
          mem := t.mem, env := rest, spos := s.spos + gs.length, draws := s.draws + 1 } ∧
        (∀ a, InRange s.arg0.toNat (3 * s.cfg.width) a → t.byte a = Config.freeByte s.draws a) ∧
        ∀ a, ¬ InRange s.arg0.toNat (3 * s.cfg.width) a → t.byte a = s.byte a)

/-- Section 44 (R101): CVR is equal in `MEM`, the stream and ERR to the script RDX, then MAP and PCK for each pixel, when its own checks pass,
for rows whose positions fit ARG1 (log entry 22). -/
def Obligations.CvrEqualsTheScript : Prop :=
  ∀ s : State, s.busy = false → s.cfg.WF → NoHostTurn s.env →
    s.arg0.toNat + rowBytes s.cfg ≤ s.cfg.memBytes → packedLast s.cfg s.arg2.toNat s.arg1.toNat < s.cfg.memBytes →
    RowDisjoint s.cfg s.arg0.toNat s.arg1.toNat s.arg2.toNat → s.arg1.toNat + s.cfg.width ≤ 2 ^ 32 →
    ∃ t u : State, exec .cvr s = .next t ∧ scriptRow s = .next u ∧
      t.mem = u.mem ∧ (∀ a, t.byte a = u.byte a) ∧ t.env = u.env ∧ t.spos = u.spos ∧ t.err = u.err ∧ t.draws = u.draws

/-! ### The quantizer -/

/-- R84: the four properties, for every well-formed configuration. -/
def Obligations.QuantizerProperties : Prop :=
  ∀ (c : Config) (x : RGB), c.WF →
    (∀ col, x = Config.prim col → quantize c x = col) ∧
    (∀ col, WithinTol x (Config.prim col) → quantize c x = col) ∧
    ((∀ col, ¬ WithinTol x (Config.prim col)) →
      ∃ (k : Nat) (e : PalEntry), c.pal12[k]? = some e ∧ quantize c x = e.color ∧
        ∀ (j : Nat) (f : PalEntry), c.pal12[j]? = some f → dist2 x e.rgb ≤ dist2 x f.rgb ∧ (j < k → dist2 x e.rgb < dist2 x f.rgb)) ∧
    quantize c x ∈ Color.tier1Order

/-- R78: no sample is within the tolerance of two primaries, so tier 1 answers the primary that a sample is near to, whatever the
check order. -/
def Obligations.ToleranceRegionsAreDisjoint : Prop :=
  (∀ (x : RGB) (c d : Color), WithinTol x (Config.prim c) → WithinTol x (Config.prim d) → c = d) ∧
  ∀ (x : RGB) (c : Color), WithinTol x (Config.prim c) ↔ tier1 x = some c

/-- Section 41 (R81): a channel difference is at most 255 and a squared distance at most 195075. -/
def Obligations.DistancesAreBounded : Prop :=
  ∀ x p : RGB, absDiff x.r p.r ≤ 255 ∧ dist2 x p ≤ 195075

/-! ### The packer -/

/-- R85: `Pack`, as a number: the code goes to bits 7:4 for even p and to bits 3:0 for odd p, the other nibble is kept. -/
def Obligations.PackFunction : Prop :=
  ∀ (old : Byte) (idx : Nibble) (p : Nat),
    (p % 2 = 0 → (pack old idx p).toNat = 16 * idx.toNat + old.toNat % 16 ∧ pack old idx p = idx ++ old.extractLsb' 0 4) ∧
    (p % 2 = 1 → (pack old idx p).toNat = old.toNat / 16 * 16 + idx.toNat ∧ pack old idx p = old.extractLsb' 4 4 ++ idx)

/-- R86: the byte index, the nibbles as independent lanes that a write replaces whole or leaves whole, and the identities. -/
def Obligations.PackIdentities : Prop :=
  (∀ base p : Nat, packedAddr base p = base + p / 2) ∧
  (∀ (old : Byte) (a : Nibble) (k : Nat),
    16 * a.toNat ≤ 240 ∧ old.toNat % 16 ≤ 15 ∧
    (pack old a (2 * k)).extractLsb' 4 4 = a ∧ (pack old a (2 * k)).extractLsb' 0 4 = old.extractLsb' 0 4 ∧
    (pack old a (2 * k + 1)).extractLsb' 0 4 = a ∧ (pack old a (2 * k + 1)).extractLsb' 4 4 = old.extractLsb' 4 4) ∧
  ∀ (old : Byte) (a b : Nibble) (p k : Nat),
    pack (pack old a (2 * k)) b (2 * k + 1) = a ++ b ∧ pack (pack old b (2 * k + 1)) a (2 * k) = a ++ b ∧
    (a ++ b : Byte).toNat = 16 * a.toNat + b.toNat ∧ pack (pack old a p) b p = pack old b p

/-- R90: two PCK commands on positions 2k and 2k+1 leave the same `MEM` in either order, and the byte is then defined whatever
it held. -/
def Obligations.PckEitherOrder : Prop :=
  ∀ (s : State) (a b : Nibble) (k : Nat), s.busy = false → s.NoTurn → 2 * k + 1 < 2 ^ 32 → s.arg2.toNat + k < s.cfg.memBytes →
    let even := fun u : State => exec .pck { u with arg0 := a.setWidth 32, arg1 := BitVec.ofNat 32 (2 * k) }
    let odd := fun u : State => exec .pck { u with arg0 := b.setWidth 32, arg1 := BitVec.ofNat 32 (2 * k + 1) }
    ∃ t u : State, andThen (even s) odd = .next t ∧ andThen (odd s) even = .next u ∧
      t.mem = u.mem ∧ t.err = .none ∧ u.err = .none ∧ t.byte (s.arg2.toNat + k) = a ++ b ∧
      ∀ x, x ≠ s.arg2.toNat + k → t.byte x = s.byte x

/-! ### The header validator -/

/-- R93: no other byte of `MEM` influences the result of HDR. -/
def Obligations.HdrReadsOnlyTheExaminedBytes : Prop :=
  ∀ (s : State) (m : Memory), s.busy = false → s.NoTurn →
    (∀ o ∈ examined, ({ s with mem := m } : State).byte (s.arg0.toNat + o) = s.byte (s.arg0.toNat + o)) →
    ∃ t u : State, exec .hdr s = .next t ∧ exec .hdr { s with mem := m } = .next u ∧ t.err = u.err ∧ t.res = u.res

/-- Section 43 (R92, R96): with the other checks passed, the heights HEIGHT and −HEIGHT are accepted and −2^31 is not. -/
def Obligations.HdrHeightSign : Prop :=
  ∀ s : State, s.busy = false → s.NoTurn → s.cfg.WF → 54 ≤ s.arg1.toNat → s.arg0.toNat + 54 ≤ s.cfg.memBytes →
    s.byte s.arg0.toNat = 0x42 → s.byte (s.arg0.toNat + 1) = 0x4D →
    s.byte (s.arg0.toNat + 28) = 24 → s.byte (s.arg0.toNat + 29) = 0 →
    s.memRead (s.arg0.toNat + 18) 4 = s.cfg.width →
    (s.memRead (s.arg0.toNat + 22) 4 = s.cfg.height ∨ s.memRead (s.arg0.toNat + 22) 4 = 2 ^ 32 - s.cfg.height →
      exec .hdr s = .next (s.ended .none (BitVec.ofNat 32 (s.memRead (s.arg0.toNat + 10) 4)))) ∧
    (s.memRead (s.arg0.toNat + 22) 4 = 2 ^ 31 → exec .hdr s = .next (s.ended .hdrDim 0))

/-! ### The reader -/

/-- Section 40 (R64): for n ≥ 1 a run takes at most n bytes and at most n(T'−1)+1 ticks, a successful one at most n(T'−1). -/
def Obligations.ReaderRunIsBounded : Prop :=
  ∀ (n : Nat) (t : Word) (es : List Event), 1 ≤ n → NoHostTurn es →
    ∃ pre, es = pre ++ (readerRun n t.toNat 0 0 es).rest ∧ byteCount pre ≤ n ∧
      tickCount pre ≤ n * (effTimeout t - 1) + 1 ∧
      ((readerRun n t.toNat 0 0 es).status = .ok → byteCount pre = n ∧ tickCount pre ≤ n * (effTimeout t - 1)) ∧
      ((readerRun n t.toNat 0 0 es).status = .ok ∨ (readerRun n t.toNat 0 0 es).status = .fail)

/-- Section 40 (R65): every command ends, whatever the stream does. -/
def Obligations.EveryCommandEnds : Prop :=
  ∀ (i : Instr) (s : State), s.busy = false → NoHostTurn s.env →
    ∃ t : State, exec i s = .next t ∧ t.busy = false ∧ t.done = true ∧ t.running = none

/-- R66: T = 0 behaves exactly as T = 1, and a run with such a T succeeds only if its bytes come with no tick before them. -/
def Obligations.TimeoutZeroActsAsOne : Prop :=
  (∀ (n t : Nat) (es : List Event), t ≤ 1 → NoHostTurn es → (readerRun n t 0 0 es).status = .ok →
    ∃ (vs : List Byte) (rest : List Event), vs.length = n ∧ es = vs.map Event.byte ++ rest) ∧
  ∀ (i : Instr) (s : State), s.busy = false → NoHostTurn s.env →
    ∃ t : State, exec i { s with timeout := 0 } = .next { t with timeout := 0 } ∧
      exec i { s with timeout := 1 } = .next { t with timeout := 1 }

/-- R67: zero wanted bytes take no event and succeed. -/
def Obligations.ZeroLengthTakesNoEvent : Prop :=
  ∀ s : State, s.busy = false → s.NoTurn → s.arg1 = 0 →
    exec .skp s = .next (s.ended .none 0) ∧
    (s.arg0.toNat ≤ s.cfg.memBytes → exec .rdx s = .next (s.ended .none 0))

/-- R74: the chunk size of SKP is not observable. -/
def Obligations.SkipChunkIsNotObservable : Prop :=
  ∀ (s : State) (k : Nat), s.busy = false → NoHostTurn s.env →
    ∃ t : State, exec .skp s = .next t ∧
      exec .skp { s with cfg := { s.cfg with skipChunk := k } } = .next { t with cfg := { s.cfg with skipChunk := k } }

/-- Sections 20 (R41) and 60 (R117): a command that the host watches, by a read of STATUS in the middle, ends in the same state
as the atomic command; the read returns BUSY alone. Where the host moves is the model's choice: its marker `hostTurn` in the event
list (log entry 7). -/
def Obligations.WatchedCommandEndsAlike : Prop :=
  ∀ (i : Instr) (s u : State) (pre post : List Event) (rest : List HostAction), s.busy = false →
    NoHostTurn pre → NoHostTurn post → s.env = pre ++ .hostTurn :: post → s.host = .readReg .status :: rest →
    exec i s = .next u → u.busy = true →
    ∃ v w : State, step u = .next v ∧ v.reply = .word 0x00000001 ∧ step v = .next w ∧
      exec i { s with env := pre ++ post, host := rest, reply := .word 0x00000001 } = .next w

/-- Section 30 (R59): `WAIT` repeats the read of STATUS until it finds BUSY = 0. That it stays the host's next line until then is
how the model writes the repetition (log entry 23). -/
def Obligations.WaitRepeatsWhileBusy : Prop :=
  ∀ (s : State) (rest : List HostAction), s.host = .wait :: rest →
    (s.busy = false → step s = .next { s with host := rest, reply := .word s.statusWord }) ∧
    ∀ es, s.busy = true → s.env = .hostTurn :: es →
      step s = .next { s with env := es, host := .wait :: rest, reply := .word s.statusWord }

/-- Sections 30 (R59) and 60 (R117): the `WAIT` after the start of a command is never refused and is done when the command has ended.
However often the host moves meanwhile, the state is then that of the atomic command on the same bytes and ticks, and the reply is
its STATUS. The host's moves are the model's markers (log entry 7) and the repetition is its line `wait` (log entry 23). -/
def Obligations.WaitEndsWithTheCommand : Prop :=
  ∀ (i : Instr) (s u : State) (rest : List HostAction), s.busy = false → s.host = .wait :: rest → exec i s = .next u →
    ∃ (n : Nat) (t v : State), runFor n u = .next t ∧ exec i { s with env := blockEvents s.env } = .next v ∧ v.busy = false ∧
      t = { v with env := t.env, host := rest, reply := .word v.statusWord } ∧ blockEvents t.env = v.env

/-! ### The host's transfers -/

/-- Section 30 (R59): a host script that is not refused comes to its end: no command runs and no line is left, wherever the host may
move (log entry 7). -/
def Obligations.ScriptsEnd : Prop :=
  ∀ (lines : List HostAction) (s t : State), s.busy = false → Script.run lines s = .next t → t.Finished

/-- Section 50 (R109): the direct path, while the host does not move inside a command (log entry 7; how the host's side is written is log
entry 24). A wrong declared length fails before anything happens. When the frame arrives in time the panel gets its bytes unchanged and in
order, and only the chunk area of `MEM` changes. When it stalls, the complete chunks have gone to the panel, then the panel sleeps, once,
and the path returns FAILURE. -/
def Obligations.DirectPathForwardsTheFrame : Prop :=
  ∀ (declared : Option Nat) (size : Nat) (area : Word) (s : State), s.busy = false → s.cfg.WF → 1 ≤ size →
    area.toNat + size ≤ s.cfg.memBytes →
    ((∃ n, declared = some n ∧ n ≠ s.cfg.frameBytes) → Script.directPath declared size area s = .next ⟨s, [], .failure⟩) ∧
    (declared = none ∨ declared = some s.cfg.frameBytes →
      (∀ (gs : List (Nat × Byte)) (rest : List Event),
        InTime s.timeout gs → gs.length = s.cfg.frameBytes → s.env = delivery gs ++ rest →
        ∃ t : Transfer, Script.directPath declared size area s = .next t ∧ t.verdict = .success ∧
          forwarded t.panel = delivered gs ∧ (∀ c ∈ t.panel, ∃ vs, c = .stream vs ∧ vs.length ≤ size) ∧
          t.block.busy = false ∧ t.block.env = rest ∧ t.block.spos = s.spos + s.cfg.frameBytes ∧
          ∀ a, ¬ InRange area.toNat size a → t.block.byte a = s.byte a) ∧
      (∀ (gs : List (Nat × Byte)) (es rest : List Event),
        InTime s.timeout gs → gs.length < s.cfg.frameBytes → s.env = delivery gs ++ es → Stalls s.timeout es rest →
        ∃ (t : Transfer) (calls : List PanelCall), Script.directPath declared size area s = .next t ∧ t.verdict = .failure ∧
          t.panel = calls ++ [.sleep] ∧ (∀ c ∈ calls, ∃ vs, c = .stream vs ∧ vs.length = size) ∧
          forwarded calls = (delivered gs).take (gs.length / size * size) ∧
          t.block.busy = false ∧ t.block.err = .timeout ∧ t.block.env = rest ∧ t.block.spos = s.spos + gs.length ∧
          ∀ a, ¬ InRange area.toNat size a → t.block.byte a = s.byte a))

/-- Section 50 (R110): the BMP path on a whole file that arrives in time, while the host does not move inside a command (log entry 7).
The panel gets one packed frame (how its calls are recorded is log entry 24) whose pixel (x, y) is the quantized triple of row HEIGHT − 1 − y of the file, rows padded to four bytes
(log entry 21), and only the three areas of `MEM` change. -/
def Obligations.BmpPathConvertsTheFile : Prop :=
  ∀ (header scratch base : Word) (s : State) (gs : List (Nat × Byte)) (rest : List Event), s.busy = false → s.cfg.WF →
    header.toNat + 54 ≤ s.cfg.memBytes → scratch.toNat + rowBytes s.cfg ≤ s.cfg.memBytes →
    base.toNat + s.cfg.frameBytes ≤ s.cfg.memBytes → Apart header.toNat 54 scratch.toNat (rowBytes s.cfg) →
    Apart header.toNat 54 base.toNat s.cfg.frameBytes → Apart scratch.toNat (rowBytes s.cfg) base.toNat s.cfg.frameBytes →
    InTime s.timeout gs → s.env = delivery gs ++ rest →
    let h := fun o => (delivered gs).getD o 0
    let off := le32 (h 10) (h 11) (h 12) (h 13)
    let stride := rowBytes s.cfg + Script.rowPadding s.cfg
    headerError s.cfg h = .none → 54 ≤ off → gs.length = off + s.cfg.height * stride →
    ∃ (t : Transfer) (vs : List Byte), Script.bmpPath header scratch base s = .next t ∧ t.verdict = .success ∧
      t.panel = [.packedBuffer vs] ∧ vs.length = s.cfg.frameBytes ∧
      (∀ x y, x < s.cfg.width → y < s.cfg.height →
        let o := off + (s.cfg.height - 1 - y) * stride + 3 * x
        pixelOf vs (s.cfg.position x y) = s.cfg.code (quantize s.cfg ⟨h (o + 2), h (o + 1), h o⟩)) ∧
      t.block.busy = false ∧ t.block.err = .none ∧ t.block.env = rest ∧ t.block.spos = s.spos + gs.length ∧
      ∀ a, ¬ InRange header.toNat 54 a → ¬ InRange scratch.toNat (rowBytes s.cfg) a →
        ¬ InRange base.toNat s.cfg.frameBytes a → t.block.byte a = s.byte a

/-- Section 50 (R110): a file whose header HDR rejects, or whose pixel-data offset is below 54, makes the BMP path return FAILURE after the
header's 54 bytes, with nothing but the header area of `MEM` changed. That this FAILURE calls nothing of the panel is the model's choice
(log entry 24); the host does not move inside a command (log entry 7). -/
def Obligations.BmpPathRejectsTheHeader : Prop :=
  ∀ (header scratch base : Word) (s : State) (gs : List (Nat × Byte)) (rest : List Event), s.busy = false → s.cfg.WF →
    header.toNat + 54 ≤ s.cfg.memBytes → InTime s.timeout gs → gs.length = 54 → s.env = delivery gs ++ rest →
    NoHostTurn rest →
    let h := fun o => (delivered gs).getD o 0
    let off := le32 (h 10) (h 11) (h 12) (h 13)
    headerError s.cfg h ≠ .none ∨ off < 54 →
    ∃ t : Transfer, Script.bmpPath header scratch base s = .next t ∧ t.verdict = .failure ∧ t.panel = [] ∧
      t.block.busy = false ∧ t.block.err = headerError s.cfg h ∧
      t.block.res = (if headerError s.cfg h = .none then BitVec.ofNat 32 off else 0) ∧
      t.block.env = rest ∧ t.block.spos = s.spos + 54 ∧ ∀ a, ¬ InRange header.toNat 54 a → t.block.byte a = s.byte a

/-- Section 50 (R110): the BMP path hands the panel a whole frame after the last command succeeded, or it returns FAILURE and hands over
nothing: a command ended with an error, or the offset in RES is below 54. That FAILURE makes no call of the panel at all, after E_TIMEOUT
too, is the model's choice: it leaves `sleep()` (R106 step 5, R136 (c)) to the orchestrator (log entry 24). Stated while the host does not
move inside a command (log entry 7). -/
def Obligations.BmpPathStopsAtTheFirstError : Prop :=
  ∀ (header scratch base : Word) (s : State) (t : Transfer), s.busy = false → NoHostTurn s.env →
    Script.bmpPath header scratch base s = .next t →
    t.block.Finished ∧
    ((t.verdict = .success ∧ t.block.err = .none ∧
        ∃ vs : List Byte, vs.length = s.cfg.frameBytes ∧ t.panel = [.packedBuffer vs]) ∨
      (t.verdict = .failure ∧ t.panel = [] ∧ (t.block.err ≠ .none ∨ t.block.res.toNat < 54)))

/-! ### Errors, and what a command may change -/

/-- R118: after every error but E_TIMEOUT only STATUS and RES differ; after E_TIMEOUT also the stream, and the destination, whose
bytes are a fresh draw. -/
def Obligations.ErrorsArePrecise : Prop :=
  (∀ (i : Instr) (s t : State), exec i s = .next t → t.busy = false → t.err ≠ .none → t.err ≠ .timeout →
    t = s.ended t.err 0) ∧
  (∀ (s : State) (w : Word) (r : Reserved), s.busy = false → decode w = .reserved r →
    writeCmd w s = .next (s.ended .opcode 0)) ∧
  (∀ (i : Instr) (s t : State), exec i s = .next t → t.busy = false → t.err = .timeout →
    t = { s.ended .timeout 0 with mem := t.mem, env := t.env, spos := t.spos, draws := t.draws } ∧
    (∀ a, Destination i s a → t.byte a = Config.freeByte s.draws a) ∧
    (∀ a, ¬ Destination i s a → t.byte a = s.byte a))

/-- Section 60 (R113): no command ends with a code that its row does not list; a reserved word ends with E_OPCODE. -/
def Obligations.ErrorCodesOfEachCommand : Prop :=
  Err.none.code = 0 ∧ Err.timeout.code = 1 ∧ Err.hdrSmall.code = 2 ∧ Err.hdrSig.code = 3 ∧ Err.hdrBpp.code = 4 ∧
  Err.hdrDim.code = 5 ∧ Err.opcode.code = 6 ∧ Err.addr.code = 7 ∧ Err.operand.code = 8 ∧
  (∀ (i : Instr) (s t : State), exec i s = .next t → t.busy = false → t.err.mayEnd i = true) ∧
  ∀ (s : State) (w : Word) (r : Reserved), s.busy = false → decode w = .reserved r →
    ∃ t : State, writeCmd w s = .next t ∧ t.err = .opcode

/-- R116: how a command ends, that the block then takes the next one, and that its result stays until the next command or reset. -/
def Obligations.ResultsStayUntilTheNextCommand : Prop :=
  (∀ (i : Instr) (s t : State), exec i s = .next t → t.busy = false →
    t.done = true ∧ t.running = none ∧ (t.err ≠ .none → t.res = 0) ∧ ∀ j : Instr, ∃ u : State, exec j t = .next u) ∧
  ∀ s t : State, s.busy = false → step s = .next t → (∀ w, s.host.head? ≠ some (.writeReg .cmd w)) →
    s.host.head? ≠ some .reset → t.err = s.err ∧ t.done = s.done ∧ t.res = s.res ∧ t.busy = false

/-- Sections 10 (R17, R21, R24) and 60 (R115): no command writes an operand register, TIMEOUT or the configuration, and none
acts on the host. -/
def Obligations.CommandsKeepOperandsAndConfiguration : Prop :=
  ∀ (i : Instr) (s t : State), exec i s = .next t →
    t.arg0 = s.arg0 ∧ t.arg1 = s.arg1 ∧ t.arg2 = s.arg2 ∧ t.timeout = s.timeout ∧ t.cfg = s.cfg ∧ t.host = s.host ∧
    t.reply = s.reply ∧ t.memDraw = s.memDraw

/-- Section 20 (R38, R39): a command leaves every byte alone that is not at an address its meaning stores to, also when it waits
for the host; MAP, SKP and HDR store nothing. -/
def Obligations.CommandsWriteOnlyTheirBytes : Prop :=
  ∀ (i : Instr) (s t : State), exec i s = .next t → ∀ a, ¬ MayWrite i s a → t.byte a = s.byte a

/-- Section 30 (R51): the table's "not read", written out. RDX does not read ARG2; SKP neither ARG0 nor ARG2; MAP neither ARG1 nor
ARG2 nor TIMEOUT; PCK not TIMEOUT; HDR neither ARG2 nor TIMEOUT; CVR reads all four. Whatever value such a register holds, the
command does the same and leaves that value. -/
def Obligations.UnnamedRegistersDoNotMatter : Prop :=
  ∀ (s t : State) (x0 x1 x2 xt : Word),
    (exec .rdx s = .next t → exec .rdx { s with arg2 := x2 } = .next { t with arg2 := x2 }) ∧
    (exec .skp s = .next t → exec .skp { s with arg0 := x0, arg2 := x2 } = .next { t with arg0 := x0, arg2 := x2 }) ∧
    (exec .map s = .next t →
      exec .map { s with arg1 := x1, arg2 := x2, timeout := xt } = .next { t with arg1 := x1, arg2 := x2, timeout := xt }) ∧
    (exec .pck s = .next t → exec .pck { s with timeout := xt } = .next { t with timeout := xt }) ∧
    (exec .hdr s = .next t → exec .hdr { s with arg2 := x2, timeout := xt } = .next { t with arg2 := x2, timeout := xt })

/-! ### The host port -/

/-- Section 10 (R16): the register map, reads and writes while idle. Writing CMD is `StepRunsTheDecodedCommand`. -/
def Obligations.RegisterMap : Prop :=
  [Reg.cmd, .arg0, .arg1, .arg2, .res, .status, .timeout, .reserved].map Reg.offset =
    [0x00, 0x04, 0x08, 0x0C, 0x10, 0x14, 0x18, 0x1C] ∧
  (∀ (s : State) (r : Reg) (rest : List HostAction), s.busy = false → s.host = .readReg r :: rest →
    step s = .next { s with host := rest, reply := .word (match r with
      | .cmd => 0 | .arg0 => s.arg0 | .arg1 => s.arg1 | .arg2 => s.arg2 | .res => s.res
      | .status => s.statusWord | .timeout => s.timeout | .reserved => 0) }) ∧
  ∀ (s : State) (r : Reg) (w : Word) (rest : List HostAction), s.busy = false → r ≠ .cmd →
    s.host = .writeReg r w :: rest →
    step s = .next { s with
      host := rest, reply := .nothing
      arg0 := if r = .arg0 then w else s.arg0
      arg1 := if r = .arg1 then w else s.arg1
      arg2 := if r = .arg2 then w else s.arg2
      timeout := if r = .timeout then w else s.timeout }

/-- Section 10 (R20): the fields of the word a read of STATUS returns. -/
def Obligations.StatusWordFields : Prop :=
  ∀ s : State, s.statusWord.extractLsb' 0 1 = BitVec.ofBool s.busy ∧ s.statusWord.extractLsb' 1 1 = BitVec.ofBool s.done ∧
    s.statusWord.extractLsb' 2 2 = 0 ∧ s.statusWord.extractLsb' 4 4 = s.err.code ∧ s.statusWord.extractLsb' 8 24 = 0

/-- R31: buffer read and buffer write, one byte at a time, refused outside `MEM` and while a command runs. -/
def Obligations.BufferPort : Prop :=
  ∀ (s : State) (a : Nat) (v : Byte) (rest : List HostAction),
    (s.busy = false → s.host = .readMem a :: rest →
      (a < s.cfg.memBytes → step s = .next { s with host := rest, reply := .byte (s.byte a) }) ∧
      (s.cfg.memBytes ≤ a → step s = .refused .hostAddressOutsideMem)) ∧
    (s.busy = false → s.host = .writeMem a v :: rest →
      (a < s.cfg.memBytes → ∃ t : State, step s = .next t ∧ t = { s with host := rest, reply := .nothing, mem := t.mem } ∧
        t.byte a = v ∧ ∀ x, x ≠ a → t.byte x = s.byte x) ∧
      (s.cfg.memBytes ≤ a → step s = .refused .hostAddressOutsideMem)) ∧
    (∀ es, s.busy = true → s.env = .hostTurn :: es → s.host = .readMem a :: rest ∨ s.host = .writeMem a v :: rest →
      step s = .refused .hostAccessWhileBusy)

/-- Section 70 (R135): while BUSY = 1 the host may read STATUS, also by the script line `WAIT` (log entry 23), and reset (R131); every
other access, and starting a command, is refused. That this takes in the reads of CMD, of the operand registers and of TIMEOUT is the
model's reading (log entry 9). -/
def Obligations.BusyBlockRefusesTheHost : Prop :=
  (∀ (s : State) (es : List Event) (a : HostAction) (rest : List HostAction), s.busy = true → s.env = .hostTurn :: es →
    s.host = a :: rest →
    (a = .readReg .status → step s = .next { s with env := es, host := rest, reply := .word s.statusWord }) ∧
    (a = .wait → step s = .next { s with env := es, reply := .word s.statusWord }) ∧
    (a ≠ .readReg .status → a ≠ .wait → a ≠ .reset → step s = .refused .hostAccessWhileBusy)) ∧
  ∀ (i : Instr) (s : State), s.busy = true → exec i s = .refused .hostAccessWhileBusy

/-- Section 60 (R129): an idle block does nothing and keeps all its state. -/
def Obligations.IdleBlockKeepsItsState : Prop :=
  ∀ s : State, s.busy = false → s.host = [] → step s = .next s

/-! ### Reset -/

/-- Section 10 (R29): the state after reset. That no host action and no event is pending is the model's choice (log entries 6 and 8). -/
def Obligations.ResetState : Prop :=
  State.reset.arg0 = 0 ∧ State.reset.arg1 = 0 ∧ State.reset.arg2 = 0 ∧ State.reset.res = 0 ∧ State.reset.busy = false ∧
  State.reset.done = false ∧ State.reset.err = .none ∧ State.reset.statusWord = 0 ∧ State.reset.timeout = 15000 ∧
  State.reset.running = none ∧ ∀ a, State.reset.byte a = Config.freeByte State.reset.memDraw a

/-- R130 and R131: a reset at any time the host may move, also while a command runs: registers as after power-up, every byte of
`MEM` a fresh draw, the command abandoned without DONE, the environment not reset. -/
def Obligations.ResetAbandonsEverything : Prop :=
  ∀ (s : State) (es : List Event) (rest : List HostAction), s.host = .reset :: rest →
    (s.busy = false ∧ s.env = es ∨ s.busy = true ∧ s.env = .hostTurn :: es) →
    ∃ t : State, step s = .next t ∧ t.arg0 = 0 ∧ t.arg1 = 0 ∧ t.arg2 = 0 ∧ t.res = 0 ∧ t.statusWord = 0 ∧ t.busy = false ∧
      t.done = false ∧ t.err = .none ∧ t.timeout = 15000 ∧ t.running = none ∧ t.cfg = s.cfg ∧ t.env = es ∧
      t.spos = s.spos ∧ t.host = rest ∧ ∀ a, t.byte a = Config.freeByte s.draws a

/-! ### The whole machine -/

/-- The invariant holds after reset. -/
def Obligations.ResetMeetsTheInvariant : Prop := Inv State.reset

/-- Every step keeps the invariant: canonical `MEM` inside its range, the rules of STATUS (R20), RES = 0 with an error (R114), and
the ranges of the hidden state (R26). -/
def Obligations.EveryStepKeepsTheInvariant : Prop :=
  ∀ s t : State, Inv s → step s = .next t → Inv t

/-- Sections 10 (R27) and 20 (R41): a step only takes events from the front, and the stream position counts the bytes taken. -/
def Obligations.StreamOnlyAdvances : Prop :=
  ∀ s t : State, step s = .next t → ∃ pre, s.env = pre ++ t.env ∧ t.spos = s.spos + byteCount pre

/-- Sections 10 (R17, R18, R21, R24): the operand registers and TIMEOUT change only by a host write to them or by a reset, RES only
in a step that ends a command (one that was running, or one that this step's write to CMD starts) or by a reset, and the configuration
never. -/
def Obligations.WhoWritesTheRegisters : Prop :=
  ∀ s t : State, step s = .next t →
    t.cfg = s.cfg ∧
    (t.arg0 ≠ s.arg0 → s.busy = false ∧ (∃ w, s.host.head? = some (.writeReg .arg0 w)) ∨ s.host.head? = some .reset) ∧
    (t.arg1 ≠ s.arg1 → s.busy = false ∧ (∃ w, s.host.head? = some (.writeReg .arg1 w)) ∨ s.host.head? = some .reset) ∧
    (t.arg2 ≠ s.arg2 → s.busy = false ∧ (∃ w, s.host.head? = some (.writeReg .arg2 w)) ∨ s.host.head? = some .reset) ∧
    (t.timeout ≠ s.timeout →
      s.busy = false ∧ (∃ w, s.host.head? = some (.writeReg .timeout w)) ∨ s.host.head? = some .reset) ∧
    (t.res ≠ s.res →
      t.done = true ∧ t.busy = false ∧ (s.busy = true ∨ ∃ w, s.host.head? = some (.writeReg .cmd w)) ∨
        s.host.head? = some .reset)
end

