-- ==== Sys2Proof/Laws/State.lean ====
section
/-! SUPPORT. What each shared update of State does to each field, by rfl, so that no proof unfolds a record update. -/

namespace Sys2Proof.Machine

variable (s : State)

@[simp] theorem State.setByte_arg0 (a : Nat) (v : Byte) : (s.setByte a v).arg0 = s.arg0 := rfl
@[simp] theorem State.setByte_arg1 (a : Nat) (v : Byte) : (s.setByte a v).arg1 = s.arg1 := rfl
@[simp] theorem State.setByte_arg2 (a : Nat) (v : Byte) : (s.setByte a v).arg2 = s.arg2 := rfl
@[simp] theorem State.setByte_res (a : Nat) (v : Byte) : (s.setByte a v).res = s.res := rfl
@[simp] theorem State.setByte_timeout (a : Nat) (v : Byte) : (s.setByte a v).timeout = s.timeout := rfl
@[simp] theorem State.setByte_busy (a : Nat) (v : Byte) : (s.setByte a v).busy = s.busy := rfl
@[simp] theorem State.setByte_done (a : Nat) (v : Byte) : (s.setByte a v).done = s.done := rfl
@[simp] theorem State.setByte_err (a : Nat) (v : Byte) : (s.setByte a v).err = s.err := rfl
@[simp] theorem State.setByte_mem (a : Nat) (v : Byte) : (s.setByte a v).mem = s.mem.write a v := rfl
@[simp] theorem State.setByte_running (a : Nat) (v : Byte) : (s.setByte a v).running = s.running := rfl
@[simp] theorem State.setByte_cfg (a : Nat) (v : Byte) : (s.setByte a v).cfg = s.cfg := rfl
@[simp] theorem State.setByte_env (a : Nat) (v : Byte) : (s.setByte a v).env = s.env := rfl
@[simp] theorem State.setByte_spos (a : Nat) (v : Byte) : (s.setByte a v).spos = s.spos := rfl
@[simp] theorem State.setByte_host (a : Nat) (v : Byte) : (s.setByte a v).host = s.host := rfl
@[simp] theorem State.setByte_reply (a : Nat) (v : Byte) : (s.setByte a v).reply = s.reply := rfl
@[simp] theorem State.setByte_memDraw (a : Nat) (v : Byte) : (s.setByte a v).memDraw = s.memDraw := rfl
@[simp] theorem State.setByte_draws (a : Nat) (v : Byte) : (s.setByte a v).draws = s.draws := rfl

@[simp] theorem State.setBytes_arg0 (a : Nat) (vs : List Byte) : (s.setBytes a vs).arg0 = s.arg0 := rfl
@[simp] theorem State.setBytes_arg1 (a : Nat) (vs : List Byte) : (s.setBytes a vs).arg1 = s.arg1 := rfl
@[simp] theorem State.setBytes_arg2 (a : Nat) (vs : List Byte) : (s.setBytes a vs).arg2 = s.arg2 := rfl
@[simp] theorem State.setBytes_res (a : Nat) (vs : List Byte) : (s.setBytes a vs).res = s.res := rfl
@[simp] theorem State.setBytes_timeout (a : Nat) (vs : List Byte) : (s.setBytes a vs).timeout = s.timeout := rfl
@[simp] theorem State.setBytes_busy (a : Nat) (vs : List Byte) : (s.setBytes a vs).busy = s.busy := rfl
@[simp] theorem State.setBytes_done (a : Nat) (vs : List Byte) : (s.setBytes a vs).done = s.done := rfl
@[simp] theorem State.setBytes_err (a : Nat) (vs : List Byte) : (s.setBytes a vs).err = s.err := rfl
@[simp] theorem State.setBytes_mem (a : Nat) (vs : List Byte) : (s.setBytes a vs).mem = s.mem.writeList a vs := rfl
@[simp] theorem State.setBytes_running (a : Nat) (vs : List Byte) : (s.setBytes a vs).running = s.running := rfl
@[simp] theorem State.setBytes_cfg (a : Nat) (vs : List Byte) : (s.setBytes a vs).cfg = s.cfg := rfl
@[simp] theorem State.setBytes_env (a : Nat) (vs : List Byte) : (s.setBytes a vs).env = s.env := rfl
@[simp] theorem State.setBytes_spos (a : Nat) (vs : List Byte) : (s.setBytes a vs).spos = s.spos := rfl
@[simp] theorem State.setBytes_host (a : Nat) (vs : List Byte) : (s.setBytes a vs).host = s.host := rfl
@[simp] theorem State.setBytes_reply (a : Nat) (vs : List Byte) : (s.setBytes a vs).reply = s.reply := rfl
@[simp] theorem State.setBytes_memDraw (a : Nat) (vs : List Byte) : (s.setBytes a vs).memDraw = s.memDraw := rfl
@[simp] theorem State.setBytes_draws (a : Nat) (vs : List Byte) : (s.setBytes a vs).draws = s.draws := rfl

@[simp] theorem State.scramble_arg0 (a n : Nat) : (s.scramble a n).arg0 = s.arg0 := rfl
@[simp] theorem State.scramble_arg1 (a n : Nat) : (s.scramble a n).arg1 = s.arg1 := rfl
@[simp] theorem State.scramble_arg2 (a n : Nat) : (s.scramble a n).arg2 = s.arg2 := rfl
@[simp] theorem State.scramble_res (a n : Nat) : (s.scramble a n).res = s.res := rfl
@[simp] theorem State.scramble_timeout (a n : Nat) : (s.scramble a n).timeout = s.timeout := rfl
@[simp] theorem State.scramble_busy (a n : Nat) : (s.scramble a n).busy = s.busy := rfl
@[simp] theorem State.scramble_done (a n : Nat) : (s.scramble a n).done = s.done := rfl
@[simp] theorem State.scramble_err (a n : Nat) : (s.scramble a n).err = s.err := rfl
@[simp] theorem State.scramble_mem (a n : Nat) : (s.scramble a n).mem = s.mem.writeList a (freeBytes s.draws a n) := rfl
@[simp] theorem State.scramble_running (a n : Nat) : (s.scramble a n).running = s.running := rfl
@[simp] theorem State.scramble_cfg (a n : Nat) : (s.scramble a n).cfg = s.cfg := rfl
@[simp] theorem State.scramble_env (a n : Nat) : (s.scramble a n).env = s.env := rfl
@[simp] theorem State.scramble_spos (a n : Nat) : (s.scramble a n).spos = s.spos := rfl
@[simp] theorem State.scramble_host (a n : Nat) : (s.scramble a n).host = s.host := rfl
@[simp] theorem State.scramble_reply (a n : Nat) : (s.scramble a n).reply = s.reply := rfl
@[simp] theorem State.scramble_memDraw (a n : Nat) : (s.scramble a n).memDraw = s.memDraw := rfl
@[simp] theorem State.scramble_draws (a n : Nat) : (s.scramble a n).draws = s.draws + 1 := rfl

@[simp] theorem State.complete_arg0 (v : Word) : (s.complete v).arg0 = s.arg0 := rfl
@[simp] theorem State.complete_arg1 (v : Word) : (s.complete v).arg1 = s.arg1 := rfl
@[simp] theorem State.complete_arg2 (v : Word) : (s.complete v).arg2 = s.arg2 := rfl
@[simp] theorem State.complete_res (v : Word) : (s.complete v).res = v := rfl
@[simp] theorem State.complete_timeout (v : Word) : (s.complete v).timeout = s.timeout := rfl
@[simp] theorem State.complete_busy (v : Word) : (s.complete v).busy = false := rfl
@[simp] theorem State.complete_done (v : Word) : (s.complete v).done = true := rfl
@[simp] theorem State.complete_err (v : Word) : (s.complete v).err = .none := rfl
@[simp] theorem State.complete_mem (v : Word) : (s.complete v).mem = s.mem := rfl
@[simp] theorem State.complete_running (v : Word) : (s.complete v).running = none := rfl
@[simp] theorem State.complete_cfg (v : Word) : (s.complete v).cfg = s.cfg := rfl
@[simp] theorem State.complete_env (v : Word) : (s.complete v).env = s.env := rfl
@[simp] theorem State.complete_spos (v : Word) : (s.complete v).spos = s.spos := rfl
@[simp] theorem State.complete_host (v : Word) : (s.complete v).host = s.host := rfl
@[simp] theorem State.complete_reply (v : Word) : (s.complete v).reply = s.reply := rfl
@[simp] theorem State.complete_memDraw (v : Word) : (s.complete v).memDraw = s.memDraw := rfl
@[simp] theorem State.complete_draws (v : Word) : (s.complete v).draws = s.draws := rfl

@[simp] theorem State.raise_arg0 (e : Err) : (s.raise e).arg0 = s.arg0 := rfl
@[simp] theorem State.raise_arg1 (e : Err) : (s.raise e).arg1 = s.arg1 := rfl
@[simp] theorem State.raise_arg2 (e : Err) : (s.raise e).arg2 = s.arg2 := rfl
@[simp] theorem State.raise_res (e : Err) : (s.raise e).res = 0 := rfl
@[simp] theorem State.raise_timeout (e : Err) : (s.raise e).timeout = s.timeout := rfl
@[simp] theorem State.raise_busy (e : Err) : (s.raise e).busy = false := rfl
@[simp] theorem State.raise_done (e : Err) : (s.raise e).done = true := rfl
@[simp] theorem State.raise_err (e : Err) : (s.raise e).err = e := rfl
@[simp] theorem State.raise_mem (e : Err) : (s.raise e).mem = s.mem := rfl
@[simp] theorem State.raise_running (e : Err) : (s.raise e).running = none := rfl
@[simp] theorem State.raise_cfg (e : Err) : (s.raise e).cfg = s.cfg := rfl
@[simp] theorem State.raise_env (e : Err) : (s.raise e).env = s.env := rfl
@[simp] theorem State.raise_spos (e : Err) : (s.raise e).spos = s.spos := rfl
@[simp] theorem State.raise_host (e : Err) : (s.raise e).host = s.host := rfl
@[simp] theorem State.raise_reply (e : Err) : (s.raise e).reply = s.reply := rfl
@[simp] theorem State.raise_memDraw (e : Err) : (s.raise e).memDraw = s.memDraw := rfl
@[simp] theorem State.raise_draws (e : Err) : (s.raise e).draws = s.draws := rfl

@[simp] theorem State.start_arg0 (i : Instr) : (s.start i).arg0 = s.arg0 := rfl
@[simp] theorem State.start_arg1 (i : Instr) : (s.start i).arg1 = s.arg1 := rfl
@[simp] theorem State.start_arg2 (i : Instr) : (s.start i).arg2 = s.arg2 := rfl
@[simp] theorem State.start_res (i : Instr) : (s.start i).res = s.res := rfl
@[simp] theorem State.start_timeout (i : Instr) : (s.start i).timeout = s.timeout := rfl
@[simp] theorem State.start_busy (i : Instr) : (s.start i).busy = true := rfl
@[simp] theorem State.start_done (i : Instr) : (s.start i).done = false := rfl
@[simp] theorem State.start_err (i : Instr) : (s.start i).err = .none := rfl
@[simp] theorem State.start_mem (i : Instr) : (s.start i).mem = s.mem := rfl
@[simp] theorem State.start_running (i : Instr) : (s.start i).running = some ⟨i, latch i s, 0, 0, []⟩ := rfl
@[simp] theorem State.start_cfg (i : Instr) : (s.start i).cfg = s.cfg := rfl
@[simp] theorem State.start_env (i : Instr) : (s.start i).env = s.env := rfl
@[simp] theorem State.start_spos (i : Instr) : (s.start i).spos = s.spos := rfl
@[simp] theorem State.start_host (i : Instr) : (s.start i).host = s.host := rfl
@[simp] theorem State.start_reply (i : Instr) : (s.start i).reply = s.reply := rfl
@[simp] theorem State.start_memDraw (i : Instr) : (s.start i).memDraw = s.memDraw := rfl
@[simp] theorem State.start_draws (i : Instr) : (s.start i).draws = s.draws := rfl

@[simp] theorem State.consume_arg0 (u : Run) : (s.consume u).arg0 = s.arg0 := rfl
@[simp] theorem State.consume_arg1 (u : Run) : (s.consume u).arg1 = s.arg1 := rfl
@[simp] theorem State.consume_arg2 (u : Run) : (s.consume u).arg2 = s.arg2 := rfl
@[simp] theorem State.consume_res (u : Run) : (s.consume u).res = s.res := rfl
@[simp] theorem State.consume_timeout (u : Run) : (s.consume u).timeout = s.timeout := rfl
@[simp] theorem State.consume_busy (u : Run) : (s.consume u).busy = s.busy := rfl
@[simp] theorem State.consume_done (u : Run) : (s.consume u).done = s.done := rfl
@[simp] theorem State.consume_err (u : Run) : (s.consume u).err = s.err := rfl
@[simp] theorem State.consume_mem (u : Run) : (s.consume u).mem = s.mem := rfl
@[simp] theorem State.consume_running (u : Run) : (s.consume u).running = s.running := rfl
@[simp] theorem State.consume_cfg (u : Run) : (s.consume u).cfg = s.cfg := rfl
@[simp] theorem State.consume_env (u : Run) : (s.consume u).env = u.rest := rfl
@[simp] theorem State.consume_spos (u : Run) : (s.consume u).spos = s.spos + u.bytes.length := rfl
@[simp] theorem State.consume_host (u : Run) : (s.consume u).host = s.host := rfl
@[simp] theorem State.consume_reply (u : Run) : (s.consume u).reply = s.reply := rfl
@[simp] theorem State.consume_memDraw (u : Run) : (s.consume u).memDraw = s.memDraw := rfl
@[simp] theorem State.consume_draws (u : Run) : (s.consume u).draws = s.draws := rfl

@[simp] theorem State.keep_arg0 (r : Running) (u : Run) (c : List Byte) : (s.keep r u c).arg0 = s.arg0 := rfl
@[simp] theorem State.keep_arg1 (r : Running) (u : Run) (c : List Byte) : (s.keep r u c).arg1 = s.arg1 := rfl
@[simp] theorem State.keep_arg2 (r : Running) (u : Run) (c : List Byte) : (s.keep r u c).arg2 = s.arg2 := rfl
@[simp] theorem State.keep_res (r : Running) (u : Run) (c : List Byte) : (s.keep r u c).res = s.res := rfl
@[simp] theorem State.keep_timeout (r : Running) (u : Run) (c : List Byte) : (s.keep r u c).timeout = s.timeout := rfl
@[simp] theorem State.keep_busy (r : Running) (u : Run) (c : List Byte) : (s.keep r u c).busy = s.busy := rfl
@[simp] theorem State.keep_done (r : Running) (u : Run) (c : List Byte) : (s.keep r u c).done = s.done := rfl
@[simp] theorem State.keep_err (r : Running) (u : Run) (c : List Byte) : (s.keep r u c).err = s.err := rfl
@[simp] theorem State.keep_mem (r : Running) (u : Run) (c : List Byte) : (s.keep r u c).mem = s.mem := rfl
@[simp] theorem State.keep_running (r : Running) (u : Run) (c : List Byte) : (s.keep r u c).running = some ⟨r.instr, r.ops, u.got, u.stall, c⟩ := rfl
@[simp] theorem State.keep_cfg (r : Running) (u : Run) (c : List Byte) : (s.keep r u c).cfg = s.cfg := rfl
@[simp] theorem State.keep_env (r : Running) (u : Run) (c : List Byte) : (s.keep r u c).env = s.env := rfl
@[simp] theorem State.keep_spos (r : Running) (u : Run) (c : List Byte) : (s.keep r u c).spos = s.spos := rfl
@[simp] theorem State.keep_host (r : Running) (u : Run) (c : List Byte) : (s.keep r u c).host = s.host := rfl
@[simp] theorem State.keep_reply (r : Running) (u : Run) (c : List Byte) : (s.keep r u c).reply = s.reply := rfl
@[simp] theorem State.keep_memDraw (r : Running) (u : Run) (c : List Byte) : (s.keep r u c).memDraw = s.memDraw := rfl
@[simp] theorem State.keep_draws (r : Running) (u : Run) (c : List Byte) : (s.keep r u c).draws = s.draws := rfl

@[simp] theorem State.packPixel_arg0 (b p : Nat) (i : Nibble) : (s.packPixel b p i).arg0 = s.arg0 := rfl
@[simp] theorem State.packPixel_arg1 (b p : Nat) (i : Nibble) : (s.packPixel b p i).arg1 = s.arg1 := rfl
@[simp] theorem State.packPixel_arg2 (b p : Nat) (i : Nibble) : (s.packPixel b p i).arg2 = s.arg2 := rfl
@[simp] theorem State.packPixel_res (b p : Nat) (i : Nibble) : (s.packPixel b p i).res = s.res := rfl
@[simp] theorem State.packPixel_timeout (b p : Nat) (i : Nibble) : (s.packPixel b p i).timeout = s.timeout := rfl
@[simp] theorem State.packPixel_busy (b p : Nat) (i : Nibble) : (s.packPixel b p i).busy = s.busy := rfl
@[simp] theorem State.packPixel_done (b p : Nat) (i : Nibble) : (s.packPixel b p i).done = s.done := rfl
@[simp] theorem State.packPixel_err (b p : Nat) (i : Nibble) : (s.packPixel b p i).err = s.err := rfl
@[simp] theorem State.packPixel_mem (b p : Nat) (i : Nibble) : (s.packPixel b p i).mem = s.mem.write (packedAddr b p) (pack (s.byte (packedAddr b p)) i p) := rfl
@[simp] theorem State.packPixel_running (b p : Nat) (i : Nibble) : (s.packPixel b p i).running = s.running := rfl
@[simp] theorem State.packPixel_cfg (b p : Nat) (i : Nibble) : (s.packPixel b p i).cfg = s.cfg := rfl
@[simp] theorem State.packPixel_env (b p : Nat) (i : Nibble) : (s.packPixel b p i).env = s.env := rfl
@[simp] theorem State.packPixel_spos (b p : Nat) (i : Nibble) : (s.packPixel b p i).spos = s.spos := rfl
@[simp] theorem State.packPixel_host (b p : Nat) (i : Nibble) : (s.packPixel b p i).host = s.host := rfl
@[simp] theorem State.packPixel_reply (b p : Nat) (i : Nibble) : (s.packPixel b p i).reply = s.reply := rfl
@[simp] theorem State.packPixel_memDraw (b p : Nat) (i : Nibble) : (s.packPixel b p i).memDraw = s.memDraw := rfl
@[simp] theorem State.packPixel_draws (b p : Nat) (i : Nibble) : (s.packPixel b p i).draws = s.draws := rfl

@[simp] theorem State.pollStatus_arg0 : s.pollStatus.arg0 = s.arg0 := rfl
@[simp] theorem State.pollStatus_arg1 : s.pollStatus.arg1 = s.arg1 := rfl
@[simp] theorem State.pollStatus_arg2 : s.pollStatus.arg2 = s.arg2 := rfl
@[simp] theorem State.pollStatus_res : s.pollStatus.res = s.res := rfl
@[simp] theorem State.pollStatus_timeout : s.pollStatus.timeout = s.timeout := rfl
@[simp] theorem State.pollStatus_busy : s.pollStatus.busy = s.busy := rfl
@[simp] theorem State.pollStatus_done : s.pollStatus.done = s.done := rfl
@[simp] theorem State.pollStatus_err : s.pollStatus.err = s.err := rfl
@[simp] theorem State.pollStatus_mem : s.pollStatus.mem = s.mem := rfl
@[simp] theorem State.pollStatus_running : s.pollStatus.running = s.running := rfl
@[simp] theorem State.pollStatus_cfg : s.pollStatus.cfg = s.cfg := rfl
@[simp] theorem State.pollStatus_env : s.pollStatus.env = s.env := rfl
@[simp] theorem State.pollStatus_spos : s.pollStatus.spos = s.spos := rfl
@[simp] theorem State.pollStatus_host : s.pollStatus.host = s.host := rfl
@[simp] theorem State.pollStatus_reply : s.pollStatus.reply = .word s.statusWord := rfl
@[simp] theorem State.pollStatus_memDraw : s.pollStatus.memDraw = s.memDraw := rfl
@[simp] theorem State.pollStatus_draws : s.pollStatus.draws = s.draws := rfl

@[simp] theorem State.doReset_arg0 : s.doReset.arg0 = 0 := rfl
@[simp] theorem State.doReset_arg1 : s.doReset.arg1 = 0 := rfl
@[simp] theorem State.doReset_arg2 : s.doReset.arg2 = 0 := rfl
@[simp] theorem State.doReset_res : s.doReset.res = 0 := rfl
@[simp] theorem State.doReset_timeout : s.doReset.timeout = Config.timeoutDefault := rfl
@[simp] theorem State.doReset_busy : s.doReset.busy = false := rfl
@[simp] theorem State.doReset_done : s.doReset.done = false := rfl
@[simp] theorem State.doReset_err : s.doReset.err = .none := rfl
@[simp] theorem State.doReset_mem : s.doReset.mem = [] := rfl
@[simp] theorem State.doReset_running : s.doReset.running = none := rfl
@[simp] theorem State.doReset_cfg : s.doReset.cfg = s.cfg := rfl
@[simp] theorem State.doReset_env : s.doReset.env = s.env := rfl
@[simp] theorem State.doReset_spos : s.doReset.spos = s.spos := rfl
@[simp] theorem State.doReset_host : s.doReset.host = s.host := rfl
@[simp] theorem State.doReset_reply : s.doReset.reply = .nothing := rfl
@[simp] theorem State.doReset_memDraw : s.doReset.memDraw = s.draws := rfl
@[simp] theorem State.doReset_draws : s.doReset.draws = s.draws + 1 := rfl

end Sys2Proof.Machine
end

