-- ==== Sys2Proof/Laws/Memory.lean ====
section
/-! SUPPORT. The laws of `MEM`: read after write, what a write leaves alone, and that every operation keeps the canonical form. -/

namespace Sys2Proof.Machine

namespace Memory

@[simp] theorem lookup_write_same (m : Memory) (a : Nat) (v : Byte) : (m.write a v).lookup a = some v := by
  induction m with
  | nil => simp [write, lookup]
  | cons c m ih =>
    obtain ⟨b, w⟩ := c
    simp only [write]
    split
    · simp [lookup]
    · split
      · simp [lookup]
      · next h => simp [lookup, Ne.symm h, ih]

theorem lookup_write_other (m : Memory) {a x : Nat} (v : Byte) (h : x ≠ a) : (m.write a v).lookup x = m.lookup x := by
  induction m with
  | nil => simp [write, lookup, h.symm]
  | cons c m ih =>
    obtain ⟨b, w⟩ := c
    simp only [write]
    split
    · simp [lookup, h.symm]
    · split
      · next hb => subst hb; simp [lookup, h.symm]
      · simp [lookup, ih]

theorem lookup_write (m : Memory) (a x : Nat) (v : Byte) :
    (m.write a v).lookup x = if x = a then some v else m.lookup x := by
  split
  · next h => rw [h, lookup_write_same]
  · next h => exact lookup_write_other m v h

/-- Every entry after a write is the one written or an old one. -/
theorem of_mem_write {m : Memory} {a : Nat} {v : Byte} {c : Host.Cell} (h : c ∈ m.write a v) : c = (a, v) ∨ c ∈ m := by
  induction m with
  | nil => simpa [write] using h
  | cons d m ih =>
    obtain ⟨b, w⟩ := d
    simp only [write] at h
    split at h
    · simpa using h
    · split at h
      · rcases List.mem_cons.1 h with h | h <;> simp [h]
      · rcases List.mem_cons.1 h with h | h
        · simp [h]
        · rcases ih h with h | h <;> simp [h]

theorem write_wf {m : Memory} (h : m.wf) (a : Nat) (v : Byte) : (m.write a v).wf := by
  induction m with
  | nil => simp [write]
  | cons c m ih =>
    obtain ⟨b, w⟩ := c
    obtain ⟨hb, hm⟩ := List.pairwise_cons.1 h
    simp only [write]
    split
    · next hab =>
      refine List.pairwise_cons.2 ⟨fun d hd => ?_, h⟩
      rcases List.mem_cons.1 hd with rfl | hd
      · exact hab
      · exact hab.trans (hb d hd)
    · split
      · next hab => subst hab; exact List.pairwise_cons.2 ⟨hb, hm⟩
      · next h1 h2 =>
        refine List.pairwise_cons.2 ⟨fun d hd => ?_, ih hm⟩
        rcases of_mem_write hd with rfl | hd
        · show b < a
          omega
        · exact hb d hd

/-- A second write to the same address replaces the first. -/
@[simp] theorem write_write_same (m : Memory) (a : Nat) (v w : Byte) : (m.write a v).write a w = m.write a w := by
  induction m with
  | nil => simp [write]
  | cons c m ih =>
    obtain ⟨b, u⟩ := c
    by_cases h1 : a < b
    · simp [write, h1]
    · by_cases h2 : a = b
      · subst h2; simp [write]
      · simp [write, h1, h2, ih]

/-- Every byte of a memory lies below `n`. -/
abbrev Below (m : Memory) (n : Nat) : Prop := ∀ c ∈ m, c.1 < n

theorem write_below {m : Memory} {n : Nat} (h : Below m n) {a : Nat} (ha : a < n) (v : Byte) : Below (m.write a v) n := by
  intro c hc
  rcases of_mem_write hc with rfl | hc
  · exact ha
  · exact h c hc

theorem writeList_append (m : Memory) (a : Nat) (vs ws : List Byte) :
    m.writeList a (vs ++ ws) = (m.writeList a vs).writeList (a + vs.length) ws := by
  induction vs generalizing m a with
  | nil => simp [writeList]
  | cons v vs ih => simp [writeList, ih, Nat.add_assoc, Nat.add_comm 1]

theorem writeList_wf {m : Memory} (h : m.wf) (a : Nat) (vs : List Byte) : (m.writeList a vs).wf := by
  induction vs generalizing m a with
  | nil => exact h
  | cons v vs ih => exact ih (write_wf h a v) (a + 1)

theorem writeList_below {m : Memory} {n : Nat} (h : Below m n) {a : Nat} {vs : List Byte} (ha : a + vs.length ≤ n) :
    Below (m.writeList a vs) n := by
  induction vs generalizing m a with
  | nil => exact h
  | cons v vs ih =>
    simp only [List.length_cons] at ha
    exact ih (write_below h (by omega) v) (by omega)

/-- A stretch of bytes after it was stored, and every other byte as before. -/
theorem lookup_writeList (m : Memory) (a x : Nat) (vs : List Byte) :
    (m.writeList a vs).lookup x =
      if a ≤ x ∧ x < a + vs.length then vs[x - a]? else m.lookup x := by
  induction vs generalizing m a with
  | nil =>
    have h : ¬ (a ≤ x ∧ x < a + ([] : List Byte).length) := by simp
    rw [if_neg h]
    rfl
  | cons v vs ih =>
    simp only [writeList, ih, lookup_write, List.length_cons]
    by_cases h : a + 1 ≤ x
    · obtain ⟨k, rfl⟩ := Nat.exists_eq_add_of_le h
      have e1 : a + 1 + k - (a + 1) = k := by omega
      have e2 : a + 1 + k - a = k + 1 := by omega
      have e3 : a + 1 + k ≠ a := by omega
      simp only [e1, e2, List.getElem?_cons_succ, e3, if_false]
      by_cases hk : k < vs.length
      · rw [if_pos (by omega), if_pos (by omega)]
      · rw [if_neg (by omega), if_neg (by omega)]
    · by_cases hx : x = a
      · subst hx
        simp
      · rw [if_neg (by omega), if_neg hx, if_neg (by omega)]

end Memory

/-! ### Bytes as commands see them -/

/-- Two states with the same memory and the same draw have the same bytes. -/
theorem State.byte_congr {s t : State} (hm : t.mem = s.mem) (hd : t.memDraw = s.memDraw) (a : Nat) : t.byte a = s.byte a := by
  simp [State.byte, hm, hd]

theorem State.byte_setByte (s : State) (a x : Nat) (v : Byte) : (s.setByte a v).byte x = if x = a then v else s.byte x := by
  simp only [State.byte, State.setByte_mem, State.setByte_memDraw, Memory.lookup_write]
  split <;> simp

theorem State.byte_setBytes (s : State) (a x : Nat) (vs : List Byte) :
    (s.setBytes a vs).byte x = if a ≤ x ∧ x < a + vs.length then vs.getD (x - a) 0 else s.byte x := by
  simp only [State.byte, State.setBytes_mem, State.setBytes_memDraw, Memory.lookup_writeList]
  split
  · next h =>
    have : x - a < vs.length := by omega
    simp [this, List.getD]
  · rfl

theorem freeBytes_length (d a n : Nat) : (freeBytes d a n).length = n := by simp [freeBytes]

theorem freeBytes_getD {d a n i : Nat} (h : i < n) (v : Byte) : (freeBytes d a n).getD i v = Config.freeByte d (a + i) := by
  simp [freeBytes, List.getD, h]

/-- After a draw of `anyvalue` each byte of the stretch is the free value of that draw, and every other byte as before. -/
theorem State.byte_scramble (s : State) (a n x : Nat) :
    (s.scramble a n).byte x = if a ≤ x ∧ x < a + n then Config.freeByte s.draws x else s.byte x := by
  have h := s.byte_setBytes a x (freeBytes s.draws a n)
  have e : (s.scramble a n).byte x = (s.setBytes a (freeBytes s.draws a n)).byte x := State.byte_congr rfl rfl x
  rw [e, h, freeBytes_length]
  split
  · next hx =>
    rw [freeBytes_getD (by omega)]
    congr 1
    omega
  · rfl

/-- Every byte of `MEM` is the one of `s`, and the pieces of memory that decide it are unchanged. -/
theorem State.byte_packPixel (s : State) (base p x : Nat) (i : Nibble) :
    (s.packPixel base p i).byte x =
      if x = packedAddr base p then pack (s.byte (packedAddr base p)) i p else s.byte x :=
  s.byte_setByte _ _ _

end Sys2Proof.Machine
end

