-- ==== Sys2Proof/Laws/Reader.lean ====
section
/-! SUPPORT. What the reader engine can do, said once (R63): its counters, the events it takes, how it ends, and how a run goes on
after the host's turn. -/

namespace Sys2Proof.Machine

/-- Bytes received before a stretch of the engine. -/
def Run.prepend (vs : List Byte) (u : Run) : Run := { u with bytes := vs ++ u.bytes }

@[simp] theorem Run.prepend_nil (u : Run) : u.prepend [] = u := rfl
@[simp] theorem Run.prepend_status (vs : List Byte) (u : Run) : (u.prepend vs).status = u.status := rfl
@[simp] theorem Run.prepend_bytes (vs : List Byte) (u : Run) : (u.prepend vs).bytes = vs ++ u.bytes := rfl
@[simp] theorem Run.prepend_got (vs : List Byte) (u : Run) : (u.prepend vs).got = u.got := rfl
@[simp] theorem Run.prepend_stall (vs : List Byte) (u : Run) : (u.prepend vs).stall = u.stall := rfl
@[simp] theorem Run.prepend_rest (vs : List Byte) (u : Run) : (u.prepend vs).rest = u.rest := rfl
theorem Run.prepend_prepend (vs ws : List Byte) (u : Run) : (u.prepend ws).prepend vs = u.prepend (vs ++ ws) := by
  simp [Run.prepend]

/-! ### Counting events -/

theorem noHostTurn_nil : NoHostTurn [] := List.not_mem_nil

theorem noHostTurn_cons {e : Event} {es : List Event} : NoHostTurn (e :: es) ↔ e ≠ .hostTurn ∧ NoHostTurn es := by
  unfold NoHostTurn
  rw [List.mem_cons, not_or]
  exact ⟨fun h => ⟨fun e => h.1 e.symm, h.2⟩, fun h => ⟨fun e => h.1 e.symm, h.2⟩⟩

theorem noHostTurn_append {es fs : List Event} : NoHostTurn (es ++ fs) ↔ NoHostTurn es ∧ NoHostTurn fs := by
  unfold NoHostTurn
  rw [List.mem_append, not_or]

@[simp] theorem byteCount_nil : byteCount [] = 0 := rfl
@[simp] theorem byteCount_byte (v : Byte) (es : List Event) : byteCount (.byte v :: es) = byteCount es + 1 := rfl
@[simp] theorem byteCount_tick (es : List Event) : byteCount (.tick :: es) = byteCount es := rfl
@[simp] theorem byteCount_turn (es : List Event) : byteCount (.hostTurn :: es) = byteCount es := rfl
@[simp] theorem tickCount_nil : tickCount [] = 0 := rfl
@[simp] theorem tickCount_byte (v : Byte) (es : List Event) : tickCount (.byte v :: es) = tickCount es := rfl
@[simp] theorem tickCount_tick (es : List Event) : tickCount (.tick :: es) = tickCount es + 1 := rfl
@[simp] theorem tickCount_turn (es : List Event) : tickCount (.hostTurn :: es) = tickCount es := rfl

/-! ### One event -/

theorem readerRun_ready {n t got : Nat} (h : n ≤ got) (stall : Nat) (es : List Event) :
    readerRun n t got stall es = ⟨.ok, [], got, stall, es⟩ := by
  cases es <;> simp [readerRun, h]

theorem readerRun_nil {n t got : Nat} (h : got < n) (stall : Nat) :
    readerRun n t got stall [] = ⟨.fail, [], got, stall, []⟩ := by
  simp [readerRun, Nat.not_le.2 h]

theorem readerRun_byte {n t got : Nat} (h : got < n) (stall : Nat) (v : Byte) (es : List Event) :
    readerRun n t got stall (.byte v :: es) = (readerRun n t (got + 1) 0 es).prepend [v] := by
  simp [readerRun, Nat.not_le.2 h, Run.prepend]

theorem readerRun_tick_fail {n t got stall : Nat} (h : got < n) (ht : t ≤ stall + 1) (es : List Event) :
    readerRun n t got stall (.tick :: es) = ⟨.fail, [], got, stall + 1, es⟩ := by
  simp [readerRun, Nat.not_le.2 h, ht]

theorem readerRun_tick_on {n t got stall : Nat} (h : got < n) (ht : stall + 1 < t) (es : List Event) :
    readerRun n t got stall (.tick :: es) = readerRun n t got (stall + 1) es := by
  simp [readerRun, Nat.not_le.2 h, Nat.not_le.2 ht]

theorem readerRun_turn {n t got : Nat} (h : got < n) (stall : Nat) (es : List Event) :
    readerRun n t got stall (.hostTurn :: es) = ⟨.paused, [], got, stall, .hostTurn :: es⟩ := by
  simp [readerRun, Nat.not_le.2 h]

/-! ### A stretch of events -/

/-- What a stretch of the engine can do: the bytes it counts, the events it takes, and how it can end. -/
structure RunSpec (n t got stall : Nat) (es : List Event) (u : Run) : Prop where
  got_eq : u.got = got + u.bytes.length
  got_le : u.got ≤ n
  taken : ∃ pre, es = pre ++ u.rest ∧ byteCount pre = u.bytes.length ∧ NoHostTurn pre
  ok_got : u.status = .ok → u.got = n
  fail_got : u.status = .fail → u.got < n
  paused : u.status = .paused → u.got < n ∧ ∃ es', u.rest = .hostTurn :: es'
  stall_lt : u.status ≠ .fail → stall < max t 1 → u.stall < max t 1

theorem readerRun_spec (n t : Nat) :
    ∀ (es : List Event) (got stall : Nat), got ≤ n → RunSpec n t got stall es (readerRun n t got stall es) := by
  intro es
  induction es with
  | nil =>
    intro got stall hg
    rcases Nat.lt_or_ge got n with h | h
    · rw [readerRun_nil h]
      exact ⟨by simp, hg, ⟨[], rfl, rfl, noHostTurn_nil⟩, by simp, fun _ => h, by simp, by simp⟩
    · rw [readerRun_ready h]
      exact ⟨by simp, hg, ⟨[], rfl, rfl, noHostTurn_nil⟩, fun _ => by simp; omega, by simp, by simp, fun _ h => h⟩
  | cons e es ih =>
    intro got stall hg
    rcases Nat.lt_or_ge got n with h | h
    · cases e with
      | byte v =>
        rw [readerRun_byte h]
        obtain ⟨h1, h2, ⟨pre, h3, h4, h5⟩, h6, h7, h8, h9⟩ := ih (got + 1) 0 h
        refine ⟨?_, h2, ⟨.byte v :: pre, by simpa using h3, by simpa using h4, noHostTurn_cons.2 ⟨by simp, h5⟩⟩, h6, h7, h8, ?_⟩
        · simp [h1]; omega
        · intro hs _
          exact h9 hs (by omega)
      | tick =>
        by_cases ht : t ≤ stall + 1
        · rw [readerRun_tick_fail h ht]
          exact ⟨by simp, hg, ⟨[.tick], rfl, rfl, noHostTurn_cons.2 ⟨by simp, noHostTurn_nil⟩⟩, by simp, fun _ => h, by simp, by simp⟩
        · rw [readerRun_tick_on h (by omega)]
          obtain ⟨h1, h2, ⟨pre, h3, h4, h5⟩, h6, h7, h8, h9⟩ := ih got (stall + 1) hg
          exact ⟨h1, h2, ⟨.tick :: pre, by simpa using h3, by simpa using h4, noHostTurn_cons.2 ⟨by simp, h5⟩⟩, h6, h7, h8,
            fun hs _ => h9 hs (by omega)⟩
      | hostTurn =>
        rw [readerRun_turn h]
        exact ⟨by simp, hg, ⟨[], rfl, rfl, noHostTurn_nil⟩, by simp, by simp, fun _ => ⟨h, es, rfl⟩, fun _ h => h⟩
    · rw [readerRun_ready h]
      exact ⟨by simp, hg, ⟨[], rfl, rfl, noHostTurn_nil⟩, fun _ => by simp; omega, by simp, by simp, fun _ h => h⟩

/-! ### The same bytes and ticks without the host's turns -/

@[simp] theorem blockEvents_nil : blockEvents [] = [] := rfl
@[simp] theorem blockEvents_byte (v : Byte) (es : List Event) : blockEvents (.byte v :: es) = .byte v :: blockEvents es := rfl
@[simp] theorem blockEvents_tick (es : List Event) : blockEvents (.tick :: es) = .tick :: blockEvents es := rfl
@[simp] theorem blockEvents_turn (es : List Event) : blockEvents (.hostTurn :: es) = blockEvents es := rfl

theorem blockEvents_noHostTurn (es : List Event) : NoHostTurn (blockEvents es) := by
  simp [NoHostTurn, blockEvents]

/-- The host's turns change nothing but where a run stops: a run that ended takes the same bytes and ticks without them. -/
theorem readerRun_blockEvents_ended (n t : Nat) :
    ∀ (es : List Event) (got stall : Nat), (readerRun n t got stall es).status ≠ .paused →
      readerRun n t got stall (blockEvents es) =
        { readerRun n t got stall es with rest := blockEvents (readerRun n t got stall es).rest } := by
  intro es
  induction es with
  | nil =>
    intro got stall _
    rcases Nat.lt_or_ge got n with h | h
    · rw [blockEvents_nil, readerRun_nil h]; rfl
    · rw [blockEvents_nil, readerRun_ready h]; rfl
  | cons e es ih =>
    intro got stall hp
    rcases Nat.lt_or_ge got n with h | h
    · cases e with
      | byte v =>
        rw [readerRun_byte h] at hp
        rw [blockEvents_byte, readerRun_byte h, readerRun_byte h, ih (got + 1) 0 hp]
        rfl
      | tick =>
        by_cases ht : t ≤ stall + 1
        · rw [blockEvents_tick, readerRun_tick_fail h ht, readerRun_tick_fail h ht]
        · rw [readerRun_tick_on h (Nat.not_le.1 ht)] at hp
          rw [blockEvents_tick, readerRun_tick_on h (Nat.not_le.1 ht), readerRun_tick_on h (Nat.not_le.1 ht), ih got (stall + 1) hp]
      | hostTurn => rw [readerRun_turn h] at hp; exact absurd rfl hp
    · rw [readerRun_ready h, readerRun_ready h]

/-- A run that stopped at the host's turn goes on, without the turns, as the whole run does. -/
theorem readerRun_blockEvents_paused (n t : Nat) :
    ∀ (es : List Event) (got stall : Nat), (readerRun n t got stall es).status = .paused →
      readerRun n t got stall (blockEvents es) =
        (readerRun n t (readerRun n t got stall es).got (readerRun n t got stall es).stall
          (blockEvents (readerRun n t got stall es).rest)).prepend (readerRun n t got stall es).bytes := by
  intro es
  induction es with
  | nil =>
    intro got stall hp
    rcases Nat.lt_or_ge got n with h | h
    · rw [readerRun_nil h] at hp; simp at hp
    · rw [readerRun_ready h] at hp; simp at hp
  | cons e es ih =>
    intro got stall hp
    rcases Nat.lt_or_ge got n with h | h
    · cases e with
      | byte v =>
        rw [readerRun_byte h] at hp
        rw [blockEvents_byte, readerRun_byte h, readerRun_byte h, ih (got + 1) 0 hp]
        rfl
      | tick =>
        by_cases ht : t ≤ stall + 1
        · rw [readerRun_tick_fail h ht] at hp; simp at hp
        · rw [readerRun_tick_on h (Nat.not_le.1 ht)] at hp
          rw [blockEvents_tick, readerRun_tick_on h (Nat.not_le.1 ht), readerRun_tick_on h (Nat.not_le.1 ht), ih got (stall + 1) hp]
      | hostTurn => rw [readerRun_turn h]; rfl
    · rw [readerRun_ready h] at hp; simp at hp

/-- Without a host turn among the events the run ends. -/
theorem readerRun_not_paused {n t got stall : Nat} {es : List Event} (hg : got ≤ n) (h : NoHostTurn es) :
    (readerRun n t got stall es).status ≠ .paused := by
  intro hp
  obtain ⟨_, _, ⟨pre, he, _, _⟩, _, _, hpaused, _⟩ := readerRun_spec n t es got stall hg
  obtain ⟨_, es', hr⟩ := hpaused hp
  rw [he, hr, noHostTurn_append, noHostTurn_cons] at h
  exact h.2.1 rfl

/-- Ticks below the timeout only count. -/
theorem readerRun_ticks {n t got : Nat} (h : got < n) :
    ∀ (k stall : Nat) (es : List Event), stall + k < max t 1 →
      readerRun n t got stall (List.replicate k .tick ++ es) = readerRun n t got (stall + k) es := by
  intro k
  induction k with
  | zero => intro stall es _; rfl
  | succ k ih =>
    intro stall es hk
    rw [List.replicate_succ, List.cons_append, readerRun_tick_on h (by omega), ih (stall + 1) es (by omega)]
    congr 1
    omega

/-- Bytes that arrive in time are received, and the stall counter starts again after each. -/
theorem readerRun_delivery {n : Nat} (t : Word) :
    ∀ (gs : List (Nat × Byte)) (got : Nat) (es : List Event), InTime t gs → got + gs.length ≤ n →
      readerRun n t.toNat got 0 (delivery gs ++ es) =
        (readerRun n t.toNat (got + gs.length) 0 es).prepend (delivered gs) := by
  intro gs
  induction gs with
  | nil => intro got es _ _; simp [delivery, delivered]
  | cons g gs ih =>
    intro got es hin hlen
    simp only [List.length_cons] at hlen
    have hg : g.1 < max t.toNat 1 := hin g (List.mem_cons_self)
    have e : delivery (g :: gs) ++ es = List.replicate g.1 .tick ++ (.byte g.2 :: (delivery gs ++ es)) := by
      simp [delivery]
    rw [e, readerRun_ticks (by omega) _ _ _ (by omega), readerRun_byte (by omega),
      ih (got + 1) es (fun x hx => hin x (List.mem_cons_of_mem _ hx)) (by omega), Run.prepend_prepend]
    simp only [List.length_cons, delivered, List.map_cons, List.singleton_append]
    congr 2
    omega

/-- A stall of T' ticks, or the end of the events before it, ends the run in a failure. -/
theorem readerRun_stalls {n got : Nat} (t : Word) {es rest : List Event} (h : got < n) (hs : Stalls t es rest) :
    ∃ k, readerRun n t.toNat got 0 es = ⟨.fail, [], got, k, rest⟩ := by
  rcases hs with rfl | ⟨rfl, j, hj, rfl⟩
  · obtain ⟨m, hm⟩ : ∃ m, effTimeout t = m + 1 := ⟨effTimeout t - 1, by unfold effTimeout; omega⟩
    refine ⟨m + 1, ?_⟩
    have e : List.replicate (effTimeout t) Event.tick ++ rest = List.replicate m .tick ++ (.tick :: rest) := by
      rw [hm, List.replicate_succ', List.append_assoc]; rfl
    rw [e, readerRun_ticks h _ _ _ (by simp only [effTimeout] at hm; omega), readerRun_tick_fail h (by simp only [effTimeout] at hm; omega)]
    simp
  · refine ⟨j, ?_⟩
    have e : List.replicate j Event.tick = List.replicate j .tick ++ [] := by simp
    rw [e, readerRun_ticks h _ _ _ (by simpa [effTimeout] using hj), readerRun_nil h]
    simp

/-- A run that waited for the host goes on as if there had been no turn. -/
theorem readerRun_resume {n t : Nat} {pre post : List Event} :
    ∀ (got stall : Nat), NoHostTurn pre →
      (readerRun n t got stall (pre ++ .hostTurn :: post)).status = .paused →
      readerRun n t got stall (pre ++ post) =
        (readerRun n t (readerRun n t got stall (pre ++ .hostTurn :: post)).got
          (readerRun n t got stall (pre ++ .hostTurn :: post)).stall post).prepend
          (readerRun n t got stall (pre ++ .hostTurn :: post)).bytes ∧
      (readerRun n t got stall (pre ++ .hostTurn :: post)).rest = .hostTurn :: post := by
  induction pre with
  | nil =>
    intro got stall _ hp
    rcases Nat.lt_or_ge got n with h | h
    · rw [List.nil_append, List.nil_append, readerRun_turn h]
      exact ⟨rfl, rfl⟩
    · rw [List.nil_append, readerRun_ready h] at hp
      simp at hp
  | cons e pre ih =>
    intro got stall hpre hp
    have hpre' : NoHostTurn pre := fun hm => hpre (List.mem_cons_of_mem _ hm)
    rw [List.cons_append] at hp ⊢
    rw [List.cons_append]
    rcases Nat.lt_or_ge got n with h | h
    · cases e with
      | byte v =>
        rw [readerRun_byte h, Run.prepend_status] at hp
        obtain ⟨h1, h2⟩ := ih (got + 1) 0 hpre' hp
        rw [readerRun_byte h, readerRun_byte h]
        refine ⟨?_, by simpa using h2⟩
        rw [h1, Run.prepend_prepend]
        rfl
      | tick =>
        by_cases ht : t ≤ stall + 1
        · rw [readerRun_tick_fail h ht] at hp
          simp at hp
        · rw [readerRun_tick_on h (by omega)] at hp ⊢
          rw [readerRun_tick_on h (by omega)]
          exact ih got (stall + 1) hpre' hp
      | hostTurn => exact absurd (List.mem_cons_self) hpre
    · rw [readerRun_ready h] at hp
      simp at hp

end Sys2Proof.Machine
end

