-- ==== Sys2Proof/Laws/Command.lean ====
section
/-! SUPPORT. What the shared operations of a command can do, said once: how a command starts (R115), how a stretch of reading ends
(R63), and what a step is. -/

namespace Sys2Proof.Machine

/-- The hidden state of a command right after its start (R26, R115). -/
def started (i : Instr) (s : State) : Running := ⟨i, latch i s, 0, 0, []⟩

@[simp] theorem started_instr (i : Instr) (s : State) : (started i s).instr = i := rfl
@[simp] theorem started_ops (i : Instr) (s : State) : (started i s).ops = latch i s := rfl
@[simp] theorem started_got (i : Instr) (s : State) : (started i s).got = 0 := rfl
@[simp] theorem started_stall (i : Instr) (s : State) : (started i s).stall = 0 := rfl
@[simp] theorem started_chunk (i : Instr) (s : State) : (started i s).chunk = [] := rfl

/-- Every arm of `exec` is the shared shape of a command around its body. -/
theorem exec_eq (i : Instr) (s : State) : exec i s = command i (bodyOf i) s := by
  cases i <;> rfl

/-- A command answers a next state exactly when no command runs, and which. -/
theorem exec_next_iff {i : Instr} {s t : State} :
    exec i s = .next t ↔ s.busy = false ∧ t = goOn (bodyOf i) (s.start i) := by
  rw [exec_eq, command]
  cases s.busy <;> simp [eq_comm]

theorem exec_busy {i : Instr} {s : State} (h : s.busy = true) : exec i s = .refused .hostAccessWhileBusy := by
  simp [exec_eq, command, h]

/-- When the host does not move first, a started command runs its body. -/
theorem goOn_noTurn {i : Instr} {s : State} (body : Running → State → State) (h : s.NoTurn) :
    goOn body (s.start i) = body (started i s) (s.start i) := by
  unfold goOn
  rw [State.start_env, State.start_running]
  split
  · next e => rw [State.NoTurn, e] at h; exact absurd rfl h
  · rfl

/-- When the host moves first, a started command waits. -/
theorem goOn_turn {i : Instr} {s : State} {es : List Event} (body : Running → State → State) (h : s.env = .hostTurn :: es) :
    goOn body (s.start i) = s.start i := by
  unfold goOn
  rw [State.start_env, h]

/-- A command that the host does not interrupt at its start. -/
theorem exec_noTurn {i : Instr} {s : State} (hb : s.busy = false) (h : s.NoTurn) :
    exec i s = .next (bodyOf i (started i s) (s.start i)) := by
  rw [exec_next_iff]
  exact ⟨hb, (goOn_noTurn _ h).symm⟩

theorem NoHostTurn.noTurn {s : State} (h : NoHostTurn s.env) : s.NoTurn := by
  unfold State.NoTurn
  intro e
  exact h (List.mem_of_head? e)

/-- Whether the host moves next. -/
theorem State.turn_or_not (s : State) : s.NoTurn ∨ ∃ es, s.env = .hostTurn :: es := by
  unfold State.NoTurn
  rcases s.env with _ | ⟨e, es⟩
  · exact .inl (by simp)
  · cases e
    · exact .inl (by simp)
    · exact .inl (by simp)
    · exact .inr ⟨es, rfl⟩

/-- A command either waits at once for the host or runs its body. -/
theorem exec_cases {i : Instr} {s t : State} (h : exec i s = .next t) :
    s.busy = false ∧ (t = s.start i ∨ t = bodyOf i (started i s) (s.start i)) := by
  obtain ⟨hb, rfl⟩ := exec_next_iff.1 h
  refine ⟨hb, ?_⟩
  rcases s.turn_or_not with hn | ⟨es, he⟩
  · exact .inr (goOn_noTurn _ hn)
  · exact .inl (goOn_turn _ he)

/-! ### Reading into `MEM` -/

/-- The state after a stretch of the engine: its bytes stored, its events consumed. -/
def afterRun (addr n : Nat) (r : Running) (s : State) : State :=
  (s.consume (engine n r s)).setBytes (addr + r.got) (engine n r s).bytes

theorem readInto_ok {addr n : Nat} {done : State → State} {r : Running} {s : State} (h : (engine n r s).status = .ok) :
    readInto addr n done r s = done (afterRun addr n r s) := by
  simp only [readInto, h, afterRun]

theorem readInto_fail {addr n : Nat} {done : State → State} {r : Running} {s : State} (h : (engine n r s).status = .fail) :
    readInto addr n done r s = ((afterRun addr n r s).scramble addr n).raise .timeout := by
  simp only [readInto, h, afterRun]

theorem readInto_paused {addr n : Nat} {done : State → State} {r : Running} {s : State}
    (h : (engine n r s).status = .paused) :
    readInto addr n done r s = (afterRun addr n r s).keep r (engine n r s) r.chunk := by
  simp only [readInto, h, afterRun]

/-- Everything a stretch of reading can do. -/
theorem readInto_cases (addr n : Nat) (done : State → State) (r : Running) (s : State) :
    ((engine n r s).status = .ok ∧ readInto addr n done r s = done (afterRun addr n r s)) ∨
    ((engine n r s).status = .fail ∧
      readInto addr n done r s = ((afterRun addr n r s).scramble addr n).raise .timeout) ∨
    ((engine n r s).status = .paused ∧
      readInto addr n done r s = (afterRun addr n r s).keep r (engine n r s) r.chunk) := by
  cases h : (engine n r s).status
  · exact .inl ⟨rfl, readInto_ok h⟩
  · exact .inr (.inl ⟨rfl, readInto_fail h⟩)
  · exact .inr (.inr ⟨rfl, readInto_paused h⟩)

/-- The spec of the engine of a running command whose count is legal. -/
theorem engine_spec {n : Nat} {r : Running} (s : State) (h : r.got ≤ n) :
    RunSpec n r.ops.t.toNat r.got r.stall s.env (engine n r s) :=
  readerRun_spec n r.ops.t.toNat s.env r.got r.stall h

/-- Everything SKP's body can do. -/
theorem skpBody_cases (r : Running) (s : State) :
    ((engine r.ops.a1.toNat r s).status = .ok ∧ skpBody r s = (s.consume (engine r.ops.a1.toNat r s)).complete 0) ∨
    ((engine r.ops.a1.toNat r s).status = .fail ∧
      skpBody r s = (s.consume (engine r.ops.a1.toNat r s)).raise .timeout) ∨
    ((engine r.ops.a1.toNat r s).status = .paused ∧
      skpBody r s = (s.consume (engine r.ops.a1.toNat r s)).keep r (engine r.ops.a1.toNat r s)
        ((engine r.ops.a1.toNat r s).bytes.foldl (chunkPush s.cfg.skipChunk) r.chunk)) := by
  cases h : (engine r.ops.a1.toNat r s).status
  · exact .inl ⟨rfl, by simp only [skpBody, h]⟩
  · exact .inr (.inl ⟨rfl, by simp only [skpBody, h]⟩)
  · exact .inr (.inr ⟨rfl, by simp only [skpBody, h]⟩)

/-! ### The row conversion -/

/-- A conversion writes packed bytes and nothing else. -/
theorem convertPixels_frame (scratch p0 base : Nat) :
    ∀ (n x : Nat) (s : State), convertPixels scratch p0 base x n s =
      { s with mem := (convertPixels scratch p0 base x n s).mem } := by
  intro n
  induction n with
  | zero => intro x s; rfl
  | succ n ih =>
    intro x s
    rw [convertPixels, ih]
    rfl

/-- A conversion leaves every byte alone that holds none of its pixels. -/
theorem convertPixels_byte (scratch p0 base a : Nat) :
    ∀ (n x : Nat) (s : State), (∀ y, x ≤ y → y < x + n → a ≠ packedAddr base (p0 + y)) →
      (convertPixels scratch p0 base x n s).byte a = s.byte a := by
  intro n
  induction n with
  | zero => intro x s _; rfl
  | succ n ih =>
    intro x s h
    rw [convertPixels, ih (x + 1) _ (fun y h1 h2 => h y (by omega) (by omega)), convertPixel, State.byte_packPixel,
      if_neg (h x (by omega) (by omega))]

/-- A conversion keeps the canonical form. -/
theorem convertPixels_wf (scratch p0 base : Nat) :
    ∀ (n x : Nat) (s : State), s.mem.wf → (convertPixels scratch p0 base x n s).mem.wf := by
  intro n
  induction n with
  | zero => intro x s h; exact h
  | succ n ih => intro x s h; exact ih (x + 1) _ (Memory.write_wf h _ _)

/-- A conversion stays inside `MEM` when each of its packed bytes does. -/
theorem convertPixels_below (scratch p0 base m : Nat) :
    ∀ (n x : Nat) (s : State), Memory.Below s.mem m → (∀ y, x ≤ y → y < x + n → packedAddr base (p0 + y) < m) →
      Memory.Below (convertPixels scratch p0 base x n s).mem m := by
  intro n
  induction n with
  | zero => intro x s h _; exact h
  | succ n ih =>
    intro x s h hy
    exact ih (x + 1) _ (Memory.write_below h (hy x (by omega) (by omega)) _) (fun y h1 h2 => hy y (by omega) (by omega))

/-! ### One step -/

theorem step_idle {s : State} (h : s.busy = false) : step s = idleStep s := by simp [step, h]
theorem step_busy {s : State} (h : s.busy = true) : step s = busyStep s := by simp [step, h]

theorem step_idle_nil {s : State} (h : s.busy = false) (hh : s.host = []) : step s = .next s := by
  simp [step, h, idleStep, hh]

theorem step_idle_cons {s : State} {a : HostAction} {rest : List HostAction} (h : s.busy = false) (hh : s.host = a :: rest) :
    step s = idleAction a { s with host := rest } := by
  simp [step, h, idleStep, hh]

theorem step_turn_nil {s : State} {es : List Event} (h : s.busy = true) (he : s.env = .hostTurn :: es) (hh : s.host = []) :
    step s = .next { s with env := es } := by
  simp [step, h, busyStep, he, hh]

theorem step_turn_cons {s : State} {es : List Event} {a : HostAction} {rest : List HostAction} (h : s.busy = true)
    (he : s.env = .hostTurn :: es) (hh : s.host = a :: rest) :
    step s = busyAction a { s with env := es, host := rest } := by
  simp [step, h, busyStep, he, hh]

theorem step_resume {s : State} (h : s.busy = true) (hn : s.NoTurn) : step s = .next (resume s) := by
  rw [step_busy h, busyStep]
  split
  · next es he => rw [State.NoTurn, he] at hn; exact absurd rfl hn
  · rfl

theorem runFor_step {s t : State} (h : step s = .next t) (n : Nat) : runFor (n + 1) s = runFor n t := by
  simp [runFor, h, andThen]

theorem runFor_add {s t : State} {m : Nat} (h : runFor m s = .next t) (n : Nat) : runFor (m + n) s = runFor n t := by
  induction m generalizing s with
  | zero => cases h; rw [Nat.zero_add]
  | succ m ih =>
    rw [Nat.add_right_comm]
    cases hs : step s with
    | next u =>
      rw [runFor_step hs] at h
      rw [runFor_step hs, ih h]
    | fault r => simp [runFor, hs, andThen] at h
    | refused r => simp [runFor, hs, andThen] at h

/-- Everything a step can do: nothing while idle, a host action while idle, a host action at its turn while a command runs, the
end of an empty host turn, or a stretch of the running command. -/
theorem step_cases {s t : State} (h : step s = .next t) :
    (s.busy = false ∧ s.host = [] ∧ t = s) ∨
    (∃ a rest, s.busy = false ∧ s.host = a :: rest ∧ idleAction a { s with host := rest } = .next t) ∨
    (∃ es, s.busy = true ∧ s.env = .hostTurn :: es ∧ s.host = [] ∧ t = { s with env := es }) ∨
    (∃ es a rest, s.busy = true ∧ s.env = .hostTurn :: es ∧ s.host = a :: rest ∧
      busyAction a { s with env := es, host := rest } = .next t) ∨
    (s.busy = true ∧ s.NoTurn ∧ t = resume s) := by
  have hhost : s.host = [] ∨ ∃ a rest, s.host = a :: rest := by
    rcases s.host with _ | ⟨a, rest⟩
    · exact .inl rfl
    · exact .inr ⟨a, rest, rfl⟩
  rcases Bool.eq_false_or_eq_true s.busy with hb | hb
  · rcases s.turn_or_not with hn | ⟨es, he⟩
    · rw [step_resume hb hn, Host.Outcome.next.injEq] at h
      exact .inr (.inr (.inr (.inr ⟨hb, hn, h.symm⟩)))
    · rcases hhost with hh | ⟨a, rest, hh⟩
      · rw [step_turn_nil hb he hh, Host.Outcome.next.injEq] at h
        exact .inr (.inr (.inl ⟨es, hb, he, hh, h.symm⟩))
      · rw [step_turn_cons hb he hh] at h
        exact .inr (.inr (.inr (.inl ⟨es, a, rest, hb, he, hh, h⟩)))
  · rcases hhost with hh | ⟨a, rest, hh⟩
    · rw [step_idle_nil hb hh, Host.Outcome.next.injEq] at h
      exact .inl ⟨hb, hh, h.symm⟩
    · rw [step_idle_cons hb hh] at h
      exact .inr (.inl ⟨a, rest, hb, hh, h⟩)

/-- A host action while a command runs is a read of STATUS, once or by a `WAIT` that stays, or a reset (R135). -/
theorem busyAction_cases {a : HostAction} {s t : State} (h : busyAction a s = .next t) :
    (a = .readReg .status ∧ t = { s with reply := .word s.statusWord }) ∨
    (a = .wait ∧ t = { s with reply := .word s.statusWord, host := .wait :: s.host }) ∨ (a = .reset ∧ t = s.doReset) := by
  cases a with
  | readReg r =>
    cases r <;> simp only [busyAction, Host.Outcome.next.injEq, reduceCtorEq] at h
    exact .inl ⟨rfl, h.symm⟩
  | wait =>
    simp only [busyAction, Host.Outcome.next.injEq] at h
    exact .inr (.inl ⟨rfl, h.symm⟩)
  | writeReg r w => simp [busyAction] at h
  | readMem a => simp [busyAction] at h
  | writeMem a v => simp [busyAction] at h
  | reset =>
    simp only [busyAction, Host.Outcome.next.injEq] at h
    exact .inr (.inr ⟨rfl, h.symm⟩)

/-- A write to CMD runs the command of the word, or ends with E_OPCODE (R19, R52). -/
theorem writeCmd_cases (w : Word) (s : State) :
    (∃ i, decode w = .command i ∧ writeCmd w s = exec i s) ∨
    (∃ r, decode w = .reserved r ∧ writeCmd w s = .next s.reservedCommand) := by
  unfold writeCmd
  cases h : decode w with
  | command i => exact .inl ⟨i, rfl, rfl⟩
  | reserved r => exact .inr ⟨r, rfl, rfl⟩

/-- Everything a host action can do while idle. -/
theorem idleAction_cases {a : HostAction} {s t : State} (h : idleAction a s = .next t) :
    (∃ r, a = .readReg r ∧ t = { s with reply := .word (s.readReg r) }) ∨
    (∃ w, a = .writeReg .cmd w ∧ writeCmd w { s with reply := .nothing } = .next t) ∨
    (∃ r w, a = .writeReg r w ∧ r ≠ .cmd ∧ t = { s with reply := .nothing }.writeReg w r) ∨
    (∃ x, a = .readMem x ∧ x < s.cfg.memBytes ∧ t = { s with reply := .byte (s.byte x) }) ∨
    (∃ x v, a = .writeMem x v ∧ x < s.cfg.memBytes ∧ t = { s with reply := .nothing }.setByte x v) ∨
    (a = .reset ∧ t = s.doReset) ∨
    (a = .wait ∧ t = { s with reply := .word s.statusWord }) := by
  cases a with
  | readReg r =>
    simp only [idleAction, Host.Outcome.next.injEq] at h
    exact .inl ⟨r, rfl, h.symm⟩
  | wait =>
    simp only [idleAction, Host.Outcome.next.injEq] at h
    exact .inr (.inr (.inr (.inr (.inr (.inr ⟨rfl, h.symm⟩)))))
  | writeReg r w =>
    by_cases hr : r = .cmd
    · subst hr
      exact .inr (.inl ⟨w, rfl, h⟩)
    · refine .inr (.inr (.inl ⟨r, w, rfl, hr, ?_⟩))
      cases r <;> first
        | exact absurd rfl hr
        | (simp only [idleAction, Host.Outcome.next.injEq] at h; exact h.symm)
  | readMem x =>
    simp only [idleAction, withAddress] at h
    split at h
    · next hx =>
      simp only [Host.Outcome.next.injEq] at h
      exact .inr (.inr (.inr (.inl ⟨x, rfl, hx, h.symm⟩)))
    · simp at h
  | writeMem x v =>
    simp only [idleAction, withAddress] at h
    split at h
    · next hx =>
      simp only [Host.Outcome.next.injEq] at h
      exact .inr (.inr (.inr (.inr (.inl ⟨x, v, rfl, hx, h.symm⟩))))
    · simp at h
  | reset =>
    simp only [idleAction, Host.Outcome.next.injEq] at h
    exact .inr (.inr (.inr (.inr (.inr (.inl ⟨rfl, h.symm⟩)))))

end Sys2Proof.Machine
end

