-- ==== Sys2Proof/Laws/Header.lean ====
section
/-! SUPPORT. Multi-byte header fields as their bytes (R33, R57). -/

namespace Sys2Proof.Machine

theorem State.memRead_two (s : State) (a : Nat) : s.memRead a 2 = le16 (s.byte a) (s.byte (a + 1)) := by
  simp [State.memRead, le16]

theorem State.memRead_four (s : State) (a : Nat) :
    s.memRead a 4 = le32 (s.byte a) (s.byte (a + 1)) (s.byte (a + 2)) (s.byte (a + 3)) := by
  simp only [State.memRead, le32, Nat.add_assoc, Nat.reduceAdd]
  omega

end Sys2Proof.Machine
end

