-- ==== Sys2Proof/Laws/Packer.lean ====
section
/-! SUPPORT. The laws of `Pack` (R85, R86) on nibbles. -/

namespace Sys2Proof.Machine

theorem pack_even {p : Nat} (h : p % 2 = 0) (old : Byte) (i : Nibble) : pack old i p = i ++ old.extractLsb' 0 4 := by
  simp [pack, h]

theorem pack_odd {p : Nat} (h : p % 2 = 1) (old : Byte) (i : Nibble) : pack old i p = old.extractLsb' 4 4 ++ i := by
  simp [pack, h]

theorem high_append (a b : Nibble) : (a ++ b : Byte).extractLsb' 4 4 = a := by
  revert a b; decide

theorem low_append (a b : Nibble) : (a ++ b : Byte).extractLsb' 0 4 = b := by
  revert a b; decide

theorem high_append_low (v : Byte) : (v.extractLsb' 4 4 ++ v.extractLsb' 0 4 : Byte) = v := by
  revert v; decide

end Sys2Proof.Machine
end

