-- ==== Sys2Proof/Laws/PerInstr.lean ====
section
/-! SUPPORT. Facts about every command as syntax, one lemma per constructor: its word has the one format of R49 and an opcode of the
map of R50. -/

namespace Sys2Proof.Laws.OneFormat

/-- The word of a command has bits 31:4 zero and its opcode, in 1..6, in bits 3:0 (R49, R50). -/
def Statement (i : Instr) : Prop :=
  zeroField (encode i) = 0 ∧ opField (encode i) = opcode i ∧ 1 ≤ (encode i).toNat ∧ (encode i).toNat ≤ 6

theorem rdx : Statement .rdx := by unfold Statement; decide
theorem skp : Statement .skp := by unfold Statement; decide
theorem map : Statement .map := by unfold Statement; decide
theorem pck : Statement .pck := by unfold Statement; decide
theorem hdr : Statement .hdr := by unfold Statement; decide
theorem cvr : Statement .cvr := by unfold Statement; decide

end Sys2Proof.Laws.OneFormat
end

