-- ==== Sys2Proof/Laws/Script.lean ====
section
/-! SUPPORT. What a host script does (R59, R60): a finished host waits, a line is one step while idle, what the pseudo-instructions
run, and what a read-out of `MEM` answers. -/

namespace Sys2Proof.Machine

@[simp] theorem andThen_next {α β : Type} (x : α) (f : α → Host.Outcome β Fault Refusal) : andThen (.next x) f = f x := rfl

/-- A result of two runs in a row is a result of the first and then of the second. -/
theorem andThen_eq_next {α β : Type} {o : Host.Outcome α Fault Refusal} {f : α → Host.Outcome β Fault Refusal} {y : β}
    (h : andThen o f = .next y) : ∃ x, o = .next x ∧ f x = .next y := by
  cases o with
  | next x => exact ⟨x, rfl, h⟩
  | fault r => simp [andThen] at h
  | refused r => simp [andThen] at h

@[simp] theorem Reply.value_word (w : Word) : (Reply.word w).value = w := rfl
@[simp] theorem Reply.bytes_byte (v : Byte) : (Reply.byte v).bytes = [v] := rfl

/-- The error code that the host reads from STATUS is ERR (R20). -/
@[simp] theorem Reply.errCode_statusWord (s : State) : (Reply.word s.statusWord).errCode = s.err.code := by
  unfold Reply.errCode Reply.value State.statusWord
  cases s.err <;> cases s.busy <;> cases s.done <;> rfl

theorem Err.code_eq_zero {e : Err} : e.code = 0 ↔ e = .none := by
  cases e <;> simp [Err.code]

/-! ### Lines -/

/-- A finished host waits (R129). -/
theorem runFor_finished {s : State} (hb : s.busy = false) (hh : s.host = []) (n : Nat) : runFor n s = .next s := by
  induction n with
  | zero => rfl
  | succ n ih => rw [runFor_step (step_idle_nil hb hh), ih]

/-- The host's next line while idle. -/
theorem runFor_line {s t : State} {a : HostAction} {rest : List HostAction} (hb : s.busy = false) (hh : s.host = a :: rest)
    (h : idleAction a { s with host := rest } = .next t) (n : Nat) : runFor (n + 1) s = runFor n t :=
  runFor_step (by rw [step_idle_cons hb hh, h]) n

namespace Script

/-- `GO`, `WAIT` and `RD STATUS` of a command that the host does not interrupt. -/
theorem runFor_go {i : Instr} {s t : State} (hb : s.busy = false) (hh : s.host = [go i, .wait, .readReg .status])
    (h : exec i { s with host := [.wait, .readReg .status], reply := .nothing } = .next t) (ht : t.busy = false)
    (hht : t.host = [.wait, .readReg .status]) (n : Nat) :
    runFor (n + 3) s = .next { t with host := [], reply := .word t.statusWord } := by
  have hg : idleAction (go i) { s with host := [.wait, .readReg .status] } = .next t := by
    have hd : decode (encode i) = .command i := by cases i <;> rfl
    simpa only [go, idleAction, writeCmd, hd] using h
  have h1 : idleAction .wait { t with host := [.readReg .status] } =
      .next { t with host := [.readReg .status], reply := .word t.statusWord } := rfl
  rw [runFor_line hb hh hg, runFor_line ht hht h1,
    runFor_line (t := { t with host := [], reply := .word t.statusWord }) (by exact ht) rfl rfl,
    runFor_finished (by exact ht) rfl]

/-- The lines of a pseudo-instruction up to its `GO`: the writes of the registers it names. -/
structure PseudoOf (i : Instr) (lines : List HostAction) (s u : State) : Prop where
  runs : ∀ n, runFor (n + lines.length) { s with host := lines ++ [.readReg .status] } =
    runFor (n + 2) { u with host := [go i, .wait, .readReg .status], reply := .nothing }
  idle : u.busy = s.busy
  env : u.env = s.env
  cfg : u.cfg = s.cfg

theorem rdx_pseudo {s : State} (hb : s.busy = false) (a n : Word) :
    PseudoOf .rdx (rdx a n) s { s with arg0 := a, arg1 := n } where
  runs k := by
    show runFor (k + 2 + 1 + 1) _ = _
    rw [runFor_line (by exact hb) rfl rfl, runFor_line (by exact hb) rfl rfl]; rfl
  idle := rfl
  env := rfl
  cfg := rfl

theorem hdr_pseudo {s : State} (hb : s.busy = false) (a n : Word) :
    PseudoOf .hdr (hdr a n) s { s with arg0 := a, arg1 := n } where
  runs k := by
    show runFor (k + 2 + 1 + 1) _ = _
    rw [runFor_line (by exact hb) rfl rfl, runFor_line (by exact hb) rfl rfl]; rfl
  idle := rfl
  env := rfl
  cfg := rfl

theorem skp_pseudo {s : State} (hb : s.busy = false) (n : Word) : PseudoOf .skp (skp n) s { s with arg1 := n } where
  runs k := by
    show runFor (k + 2 + 1) _ = _
    rw [runFor_line (by exact hb) rfl rfl]; rfl
  idle := rfl
  env := rfl
  cfg := rfl

theorem cvr_pseudo {s : State} (hb : s.busy = false) (a p b : Word) :
    PseudoOf .cvr (cvr a p b) s { s with arg0 := a, arg1 := p, arg2 := b } where
  runs k := by
    show runFor (k + 2 + 1 + 1 + 1) _ = _
    rw [runFor_line (by exact hb) rfl rfl, runFor_line (by exact hb) rfl rfl, runFor_line (by exact hb) rfl rfl]; rfl
  idle := rfl
  env := rfl
  cfg := rfl

/-- What a pseudo-instruction does that the host does not interrupt: its command on the named registers; the host goes on with the
next state when ERR = 0 and returns FAILURE otherwise. -/
theorem tested_eq {i : Instr} {lines : List HostAction} {onError : List PanelCall} {s u t : State}
    {next : State → Host.Outcome Transfer Fault Refusal} (hp : PseudoOf i lines s u) (hb : s.busy = false)
    (h : exec i { u with host := [.wait, .readReg .status], reply := .nothing } = .next t) (ht : t.busy = false)
    (hht : t.host = [.wait, .readReg .status]) :
    tested lines onError s next =
      if t.err = .none then next { t with host := [], reply := .word t.statusWord }
      else .next ⟨{ t with host := [], reply := .word t.statusWord }, onError, .failure⟩ := by
  have hf : 2 * (lines ++ [HostAction.readReg .status]).length + s.env.length + 1 =
      (lines.length + s.env.length + 2 + 1) + lines.length := by
    rw [List.length_append, List.length_singleton]; omega
  have hr : run (lines ++ [.readReg .status]) s = .next { t with host := [], reply := .word t.statusWord } := by
    unfold run
    rw [hf, hp.runs]
    exact runFor_go (s := { u with host := [go i, .wait, .readReg .status], reply := .nothing })
      (by exact hp.idle.trans hb) rfl h ht hht _
  unfold tested
  rw [hr, andThen_next]
  simp only [Reply.errCode_statusWord, Err.code_eq_zero]

/-! ### Single reads -/

theorem run_readMem {s : State} {a : Nat} (hb : s.busy = false) (ha : a < s.cfg.memBytes) :
    run [.readMem a] s = .next { s with host := [], reply := .byte (s.byte a) } := by
  have h : idleAction (.readMem a) { s with host := [] } = .next { s with host := [], reply := .byte (s.byte a) } := if_pos ha
  unfold run
  rw [show 2 * [HostAction.readMem a].length + s.env.length + 1 = (s.env.length + 2) + 1 by simp; omega,
    runFor_line (s := { s with host := [.readMem a] }) hb rfl h, runFor_finished (by exact hb) rfl]

theorem run_readReg {s : State} (r : Reg) (hb : s.busy = false) :
    run [.readReg r] s = .next { s with host := [], reply := .word (s.readReg r) } := by
  have h : idleAction (.readReg r) { s with host := [] } = .next { s with host := [], reply := .word (s.readReg r) } := rfl
  unfold run
  rw [show 2 * [HostAction.readReg r].length + s.env.length + 1 = (s.env.length + 2) + 1 by simp; omega,
    runFor_line (s := { s with host := [.readReg r] }) hb rfl h, runFor_finished (by exact hb) rfl]

/-- A read-out inside `MEM` answers the bytes there and changes nothing but the reply. -/
theorem readOut_eq (n : Nat) : ∀ (a : Nat) (s : State), s.busy = false → a + n ≤ s.cfg.memBytes →
    ∃ u : State, readOut a n s = .next (u, (List.range' a n).map s.byte) ∧ u = { s with host := u.host, reply := u.reply } := by
  induction n with
  | zero => exact fun a s _ _ => ⟨s, rfl, rfl⟩
  | succ n ih =>
    intro a s hb ha
    obtain ⟨u, hu, he⟩ := ih (a + 1) { s with host := [], reply := .byte (s.byte a) } hb (by show _ ≤ s.cfg.memBytes; omega)
    refine ⟨u, ?_, he⟩
    rw [readOut, run_readMem hb (by omega), andThen_next, hu]
    rfl

end Script

end Sys2Proof.Machine
end

