-- ==== Sys2Proof/Tests/Slice0.lean ====
section
/-! SUPPORT. Tests of the model. The expected values are those of spec/95_test_vectors.md (the vector's number stands in the
comment) or are worked out by hand from the spec's rules. The second half holds, for each obligation with hypotheses, a witness: a
state and operands that meet them together. -/

namespace Sys2Proof.Tests
open Sys2Proof.Machine

/-! ### Helpers -/

/-- The state after reset with test configuration TC-A. -/
def tc : State := { State.reset with cfg := Config.tcA }

/-- Operand registers. -/
def args (a0 a1 a2 : Word) : State := { tc with arg0 := a0, arg1 := a1, arg2 := a2 }

/-- The state of an outcome. -/
def stateOf (s : State) : Host.Outcome State Fault Refusal → State
  | .next t => t
  | .fault _ => s
  | .refused _ => s

/-- The state after a command. -/
def after (i : Instr) (s : State) : State := stateOf s (exec i s)

def bytes (vs : List Byte) : List Event := vs.map Event.byte
def ticks (n : Nat) : List Event := List.replicate n Event.tick

/-- Row R1 of the vectors: BGR of pure red, green, blue, yellow. -/
def rowR1 : List Byte := [0x00, 0x00, 0xFF, 0x00, 0xFF, 0x00, 0xFF, 0x00, 0x00, 0x00, 0xFF, 0xFF]

/-- The bytes of the base header HB that HDR examines, at address 64, with the height field's four bytes. -/
def headerAt64 (h0 h1 h2 h3 : Byte) : Memory :=
  [(64, 0x42), (65, 0x4D), (74, 0x3E), (75, 0), (76, 0), (77, 0), (82, 4), (83, 0), (84, 0), (85, 0),
   (86, h0), (87, h1), (88, h2), (89, h3), (92, 0x18), (93, 0)]

/-! ### Decoding: words written out from the encoding tables (R49, R50, R52) -/

theorem test_decode_rdx : decode 0b0000_0000_0000_0000_0000_0000_0000_0001 = .command .rdx := by decide
theorem test_decode_skp : decode 0b0000_0000_0000_0000_0000_0000_0000_0010 = .command .skp := by decide
theorem test_decode_map : decode 0b0000_0000_0000_0000_0000_0000_0000_0011 = .command .map := by decide
theorem test_decode_pck : decode 0b0000_0000_0000_0000_0000_0000_0000_0100 = .command .pck := by decide
theorem test_decode_hdr : decode 0b0000_0000_0000_0000_0000_0000_0000_0101 = .command .hdr := by decide
theorem test_decode_cvr : decode 0b0000_0000_0000_0000_0000_0000_0000_0110 = .command .cvr := by decide
/-- V-DC-1 to V-DC-5, and op 8 (V-DC-6). -/
theorem test_decode_reserved :
    decode 0x00000000 = .reserved .opcode ∧ decode 0x00000007 = .reserved .opcode ∧ decode 0x0000000F = .reserved .opcode ∧
    decode 0x00000013 = .reserved .upperBits ∧ decode 0x80000001 = .reserved .upperBits ∧
    decode 0x00000008 = .reserved .opcode := by decide
theorem test_encode : Instr.all.map encode = [1, 2, 3, 4, 5, 6] := by decide
theorem test_table_word : decodeTableWord 32 6 = some .cvr ∧ decodeTableWord 32 0x16 = none ∧ decodeTableWord 8 0x101 = some .rdx := by
  decide

/-! ### Well-formedness: each condition of R8 refused alone -/

theorem test_wf_accepts_tcA : Config.tcA.WF := by decide
theorem test_wf_odd_width : ¬ { Config.tcA with width := 3 }.WF := by decide
theorem test_wf_zero_width : ¬ { Config.tcA with width := 0 }.WF := by decide
theorem test_wf_large_width : ¬ { Config.tcA with width := 2 ^ 31, height := 1 }.WF := by decide
theorem test_wf_zero_height : ¬ { Config.tcA with height := 0 }.WF := by decide
theorem test_wf_large_height : ¬ { Config.tcA with width := 2, height := 2 ^ 31 }.WF := by decide
theorem test_wf_large_panel : ¬ { Config.tcA with width := 2 ^ 20, height := 2 ^ 13 }.WF := by decide
theorem test_wf_equal_codes : ¬ { Config.tcA with idx := ⟨0, 1, 3, 6, 5, 0⟩ }.WF := by decide
theorem test_wf_short_palette : ¬ { Config.tcA with pal12 := Config.tcA.pal12.take 11 }.WF := by decide
theorem test_wf_three_blacks :
    ¬ { Config.tcA with pal12 := Config.tcA.pal12.take 11 ++ [(⟨⟨30, 30, 30⟩, .black⟩ : PalEntry)] }.WF := by decide
theorem test_wf_no_primary :
    ¬ { Config.tcA with pal12 := (⟨⟨0, 0, 1⟩, .black⟩ : PalEntry) :: Config.tcA.pal12.drop 1 }.WF := by decide
theorem test_wf_zero_chunk : ¬ { Config.tcA with skipChunk := 0 }.WF := by decide
theorem test_wf_large_chunk : ¬ { Config.tcA with skipChunk := 65 }.WF := by decide
theorem test_wf_zero_mem : ¬ { Config.tcA with memBytes := 0 }.WF := by decide
theorem test_wf_large_mem : ¬ { Config.tcA with memBytes := 2 ^ 32 + 1 }.WF := by decide

/-! ### One command each -/

/-- V-RD-9: gaps do not accumulate. -/
theorem test_rdx_gaps :
    let t := after .rdx { args 0 3 0 with timeout := 3, env := ticks 2 ++ bytes [1] ++ ticks 2 ++ bytes [2] ++ ticks 2 ++ bytes [3] }
    t.statusWord = 0x02 ∧ [t.byte 0, t.byte 1, t.byte 2] = [1, 2, 3] ∧ t.spos = 3 := by decide
/-- V-RD-23: a gap of exactly T ticks fails, at the fifth tick; the byte after it is not taken. -/
theorem test_rdx_timeout :
    let t := after .rdx { args 0 2 0 with timeout := 3, env := ticks 2 ++ bytes [1] ++ ticks 3 ++ bytes [2] }
    t.statusWord = 0x12 ∧ t.spos = 1 ∧ t.env = bytes [2] ∧ t.res = 0 := by decide
/-- V-RD-22 in small: chunk boundaries are invisible. -/
theorem test_skp_chunks :
    let t := after .skp { args 7 5 0 with timeout := 3, cfg := { Config.tcA with skipChunk := 2 },
                                          env := bytes [1, 2] ++ ticks 2 ++ bytes [3, 4] ++ ticks 2 ++ bytes [5, 6] }
    t.statusWord = 0x02 ∧ t.spos = 5 ∧ t.mem = [] ∧ t.env = bytes [6] := by decide
/-- V-RD-21. -/
theorem test_skp_timeout :
    let t := after .skp { args 0 5 0 with timeout := 2, env := bytes [8, 9] ++ ticks 2 }
    t.statusWord = 0x12 ∧ t.spos = 2 ∧ t.mem = [] := by decide
/-- V-QN-23: just outside the tolerance, so tier 2; V-QN-T1: the tie. -/
theorem test_map_tier2 :
    (after .map (args 0x00F9F907 0 0)).res = 0x2 ∧ (after .map (args 0x00731E1E 0 0)).res = 0x0 := by decide
/-- V-QN-11: red, not blue, from bits 23:16; V-QN-E1: bit 24 set. -/
theorem test_map_channels :
    (after .map (args 0x00FF0600 0 0)).res = 0x3 ∧ (after .map (args 0x01000000 0 0)).statusWord = 0x82 := by decide
/-- V-PK-1 and V-PK-3's form: even and odd positions over 0xAB (worked example of R89). -/
theorem test_pck_nibbles :
    (after .pck { args 3 0 0 with mem := [(0, 0xAB)] }).byte 0 = 0x3B ∧
    (after .pck { args 6 1 0 with mem := [(0, 0xAB)] }).byte 0 = 0xA6 := by decide
/-- V-PK-18: E_OPERAND before E_ADDR; and p = 256 is outside. -/
theorem test_pck_errors :
    (after .pck (args 0x10 256 0)).statusWord = 0x82 ∧ (after .pck (args 3 256 0)).statusWord = 0x72 := by decide
/-- V-HD-1, V-HD-6, V-HD-7: heights 2, −2 and −2^31. -/
theorem test_hdr_heights :
    (after .hdr { args 64 54 0 with mem := headerAt64 2 0 0 0 }).res = 62 ∧
    (after .hdr { args 64 54 0 with mem := headerAt64 0xFE 0xFF 0xFF 0xFF }).res = 62 ∧
    (after .hdr { args 64 54 0 with mem := headerAt64 0 0 0 0x80 }).statusWord = 0x52 := by decide
/-- V-HD-20, V-HD-21: the order of the first two tests. -/
theorem test_hdr_order : (after .hdr (args 75 54 0)).statusWord = 0x72 ∧ (after .hdr (args 75 53 0)).statusWord = 0x22 := by decide
/-- V-CV-2: an odd start keeps the outer nibbles. -/
theorem test_cvr_odd_start :
    let t := after .cvr { args 32 1 0 with mem := [(0, 0xA5), (1, 0x5A), (2, 0xC3)], env := bytes rowR1 }
    t.statusWord = 0x02 ∧ [t.byte 0, t.byte 1, t.byte 2] = [0xA3, 0x65, 0x23] ∧ t.spos = 12 ∧ t.byte 34 = 0xFF := by decide
/-- V-CV-7, V-CV-11, V-CV-12, V-CV-13. -/
theorem test_cvr_errors :
    (after .cvr (args 0 22 0)).statusWord = 0x82 ∧ (after .cvr (args 32 253 0)).statusWord = 0x72 ∧
    (after .cvr (args 32 0xFFFFFFFF 0)).statusWord = 0x72 ∧ (after .cvr (args 120 0 119)).statusWord = 0x72 := by decide

/-! ### The quantizer's tables, and the host port -/

/-- Test configuration TC-B: WHITE's variant inside the tolerance of black. -/
def tcB : Config := { Config.tcA with pal12 := Config.tcA.pal12.set 7 ⟨⟨4, 4, 4⟩, .white⟩ }
/-- V-QN-P2 and V-QN-P3: tier 1 wins inside the cube, tier 2 decides outside. -/
theorem test_tier_precedence : quantize tcB ⟨4, 4, 4⟩ = .black ∧ quantize tcB ⟨7, 4, 4⟩ = .white := by decide
/-- Test configuration TC-C: entries 6 and 8 exchanged. V-QN-T2: the earlier entry wins the tie. -/
def tcC : Config :=
  { Config.tcA with pal12 := (Config.tcA.pal12.set 6 ⟨⟨200, 30, 30⟩, .red⟩).set 8 ⟨⟨30, 30, 30⟩, .black⟩ }
theorem test_tie_break : quantize tcC ⟨115, 30, 30⟩ = .red := by decide
/-- V-RG-1: the registers after reset, at their offsets. -/
theorem test_reset_registers :
    [Reg.cmd, .arg0, .arg1, .arg2, .res, .status, .timeout, .reserved].map State.reset.readReg = [0, 0, 0, 0, 0, 0, 15000, 0] := by
  decide
/-- V-RG-3 to V-RG-5: writes to RES, STATUS and register 7 are ignored. -/
theorem test_ignored_writes :
    [Reg.res, .status, .reserved].map ({ tc with res := 3 }.writeReg 5) = List.replicate 3 { tc with res := 3 } := by decide
/-- V-DC-6: an error clears RES. -/
theorem test_reserved_word :
    let t := stateOf tc (step { tc with res := 3, host := [.writeReg .cmd 8] })
    t.statusWord = 0x62 ∧ t.res = 0 := by decide
/-- One command through the step, from the word that `withFetchWord` places. -/
theorem test_step_after_reset :
    let t := stateOf tc (step (State.withFetchWord { tc with arg0 := 0x00FF0000 } 32 3))
    t.statusWord = 0x02 ∧ t.res = 3 ∧ t.host = [] := by decide

/-- RDX of two bytes during which the host moves twice, with the line `WAIT` and a read of RES after it. -/
def waitsTwice : State :=
  { args 16 2 0 with env := [.hostTurn, .byte 0x42, .hostTurn, .byte 0x4D], host := [.wait, .readReg .res] }
/-- R59: `WAIT` in a command with two host turns reads BUSY = 1 twice and stays the next line. -/
theorem test_wait_stays :
    let u := stateOf tc (step (after .rdx waitsTwice))
    u.reply = .word 1 ∧ u.host = [.wait, .readReg .res] ∧ (stateOf tc (runFor 2 u)).reply = .word 1 ∧
    (stateOf tc (runFor 2 u)).host = [.wait, .readReg .res] := by decide
/-- R59, R60: the pseudo-instruction RDX, with those two turns, ends with STATUS = DONE and both bytes in `MEM`, and RES is then
read without a refusal. -/
theorem test_wait_ends :
    let s := { tc with env := waitsTwice.env, host := Script.rdx 16 2 ++ [.readReg .res] }
    let t := stateOf tc (runFor 8 s)
    t.reply = .word 2 ∧ t.host = [.readReg .res] ∧ t.byte 16 = 0x42 ∧ t.byte 17 = 0x4D ∧
    (stateOf s (step t)).reply = .word 0 := by decide

/-! ### The host's transfers -/

/-- What a transfer left. -/
def transferOf (s : State) : Host.Outcome Transfer Fault Refusal → Transfer
  | .next t => t
  | .fault _ => ⟨s, [], .unfinished⟩
  | .refused _ => ⟨s, [], .unfinished⟩

/-- Program P2a, with a host turn in the first chunk: two chunks of two bytes. -/
theorem test_direct_path :
    let s := { tc with timeout := 3, env := bytes [0x36] ++ .hostTurn :: ticks 1 ++ bytes [0x52] ++ ticks 2 ++ bytes [0x01, 0x10] }
    let t := transferOf s (Script.directPath (some 4) 2 16 s)
    t.panel = [.stream [0x36, 0x52], .stream [0x01, 0x10]] ∧ t.verdict = .success ∧ t.block.spos = 4 ∧ t.block.statusWord = 2 := by
  decide
/-- Program P2b and X-8: the second chunk stalls; the panel sleeps once and the chunk is not forwarded. -/
theorem test_direct_path_stall :
    let s := { tc with timeout := 3, env := bytes [0x36, 0x52, 0x01] ++ ticks 3 ++ bytes [0x10] }
    let t := transferOf s (Script.directPath none 2 16 s)
    t.panel = [.stream [0x36, 0x52], .sleep] ∧ t.verdict = .failure ∧ t.block.spos = 3 ∧ t.block.statusWord = 0x12 ∧
    t.block.env = bytes [0x10] := by decide
/-- R109: a declared length other than FRAME_BYTES fails before the block or the panel is touched. -/
theorem test_direct_path_length : Script.directPath (some 5) 2 16 tc = .next ⟨tc, [], .failure⟩ := rfl
/-- R109: FRAME_BYTES = 4 in chunks of 3: the last chunk is the remaining byte. -/
theorem test_direct_path_last_chunk :
    let s := { tc with env := bytes [0x36, 0x52, 0x01, 0x10, 0xEE] }
    let t := transferOf s (Script.directPath none 3 16 s)
    t.panel = [.stream [0x36, 0x52, 0x01], .stream [0x10]] ∧ t.verdict = .success ∧ t.block.env = bytes [0xEE] := by decide

/-- The examined bytes of the header of program P3, with the given bytes at offsets 10 and 28. -/
def headerP3 (off bpp : Byte) : List Byte :=
  [0x42, 0x4D, 0x56, 0, 0, 0, 0, 0, 0, 0, off, 0, 0, 0, 0x28, 0, 0, 0, 4, 0, 0, 0, 2, 0, 0, 0, 1, 0, bpp, 0] ++ List.replicate 24 0
/-- The rows of program P3, bottom row first. -/
def rowsP3 : List Byte := [0, 0, 0, 0xFF, 0xFF, 0xFF, 0xF9, 0xFB, 0xFA, 0x1E, 0x1E, 0x73] ++ rowR1
/-- A packed buffer written before, so that no free value stands under a first nibble. -/
def fileP3 (vs : List Byte) : State := { tc with mem := [(0, 9), (1, 9), (2, 9), (3, 9)], env := bytes vs }

/-- Program P3. -/
theorem test_bmp_path :
    let s := fileP3 (headerP3 62 24 ++ List.replicate 8 0xEE ++ rowsP3)
    let t := transferOf s (Script.bmpPath 64 32 0 s)
    t.panel = [.packedBuffer [0x36, 0x52, 0x01, 0x10]] ∧ t.verdict = .success ∧ t.block.spos = 86 ∧ t.block.statusWord = 2 := by
  decide
/-- Program P4: 32 bits per pixel; 32 bytes stay unread. -/
theorem test_bmp_path_rejected :
    let s := fileP3 (headerP3 62 32 ++ List.replicate 8 0xEE ++ rowsP3)
    let t := transferOf s (Script.bmpPath 64 32 0 s)
    t.panel = [] ∧ t.verdict = .failure ∧ t.block.spos = 54 ∧ t.block.statusWord = 0x42 ∧ t.block.env.length = 32 := by decide
/-- R110, R138: an offset of 53 fails by the host's own test, after HDR succeeded and before SKP. -/
theorem test_bmp_path_offset :
    let s := fileP3 (headerP3 53 24 ++ rowsP3)
    let t := transferOf s (Script.bmpPath 64 32 0 s)
    t.panel = [] ∧ t.verdict = .failure ∧ t.block.spos = 54 ∧ t.block.statusWord = 2 ∧ t.block.res = 53 := by decide
/-- R110: the stream ends in the second row. -/
theorem test_bmp_path_stall :
    let s := { fileP3 (headerP3 54 24 ++ rowsP3.take 13) with timeout := 3 }
    let t := transferOf s (Script.bmpPath 64 32 0 s)
    t.panel = [] ∧ t.verdict = .failure ∧ t.block.spos = 67 ∧ t.block.statusWord = 0x12 := by decide

/-! ### Witnesses: states and operands that meet the hypotheses of the obligations -/

theorem witness_EncodedCommandDecodesToItself : ∀ i ∈ Instr.all, i.wellFormed = true := by decide

/-- One word for each way to be reserved, at the boundaries of the ranges. -/
theorem witness_ReservedWordEndsWithOpcodeError :
    tc.busy = false ∧ ({ tc with host := [.writeReg .cmd 0x10] } : State).host = .writeReg .cmd 0x10 :: [] ∧
    ((0x00000010 : Word).extractLsb' 4 28 ≠ 0) ∧ (((0 : Word).extractLsb' 0 4).toNat = 0) ∧
    (7 ≤ ((7 : Word).extractLsb' 0 4).toNat) ∧ (7 ≤ ((15 : Word).extractLsb' 0 4).toNat) := by decide

theorem witness_StepRunsTheDecodedCommand :
    tc.busy = false ∧ ({ tc with host := [.writeReg .cmd 6] } : State).host = .writeReg .cmd 6 :: [] ∧
    decode 6 = .command .cvr ∧ Instr.cvr.wellFormed = true := by decide

def mapGood : State := args 0x00FFFFFF 0 0
def mapBad : State := args 0x01000000 0 0
theorem witness_MapQuantizesOneSample :
    (mapGood.busy = false ∧ mapGood.NoTurn ∧ mapGood.arg0.extractLsb' 24 8 = 0) ∧
    (mapBad.busy = false ∧ mapBad.NoTurn ∧ mapBad.arg0.extractLsb' 24 8 ≠ 0) := by decide

/-- The largest code, the last address on either side, both parities. -/
def pckBad : State := args 0x10 0 0
def pckOut : State := args 0xF 256 0
def pckEven : State := args 0xF 254 0
def pckOdd : State := args 0xF 255 0
theorem witness_PckWritesOneNibble_errors :
    (pckBad.busy = false ∧ pckBad.NoTurn ∧ pckBad.arg0.extractLsb' 4 28 ≠ 0) ∧
    (pckOut.busy = false ∧ pckOut.NoTurn ∧ pckOut.arg0.extractLsb' 4 28 = 0 ∧
      pckOut.cfg.memBytes ≤ pckOut.arg2.toNat + pckOut.arg1.toNat / 2) := by decide
theorem witness_PckWritesOneNibble_even :
    pckEven.busy = false ∧ pckEven.NoTurn ∧ pckEven.arg0.extractLsb' 4 28 = 0 ∧
    pckEven.arg2.toNat + pckEven.arg1.toNat / 2 < pckEven.cfg.memBytes ∧ pckEven.arg1.toNat % 2 = 0 := by decide
theorem witness_PckWritesOneNibble_odd :
    pckOdd.busy = false ∧ pckOdd.NoTurn ∧ pckOdd.arg0.extractLsb' 4 28 = 0 ∧
    pckOdd.arg2.toNat + pckOdd.arg1.toNat / 2 < pckOdd.cfg.memBytes ∧ pckOdd.arg1.toNat % 2 = 1 := by decide

theorem witness_HdrChecksInOrder : (args 74 54 0).busy = false ∧ (args 74 54 0).NoTurn := by decide

/-- A gap of T' − 1 ticks is in time; T' ticks stall. -/
def twoInTime : List (Nat × Byte) := [(2, 0xAA), (0, 0xBB)]
def oneInTime : List (Nat × Byte) := [(2, 0xAA)]
def rdxOut : State := args 127 2 0
def rdxGood : State := { args 126 2 0 with timeout := 3, env := delivery twoInTime ++ bytes [0xCC] }
def rdxStall : State := { args 126 2 0 with timeout := 3, env := delivery oneInTime ++ (ticks 3 ++ bytes [0xCC]) }
theorem witness_RdxReadsExactly_outside :
    rdxOut.busy = false ∧ rdxOut.NoTurn ∧ rdxOut.cfg.memBytes < rdxOut.arg0.toNat + rdxOut.arg1.toNat := by decide
theorem witness_RdxReadsExactly_success :
    rdxGood.busy = false ∧ rdxGood.NoTurn ∧ rdxGood.arg0.toNat + rdxGood.arg1.toNat ≤ rdxGood.cfg.memBytes ∧
    InTime rdxGood.timeout twoInTime ∧ twoInTime.length = rdxGood.arg1.toNat ∧
    rdxGood.env = delivery twoInTime ++ bytes [0xCC] := by decide
theorem witness_RdxReadsExactly_timeout :
    rdxStall.busy = false ∧ rdxStall.NoTurn ∧ rdxStall.arg0.toNat + rdxStall.arg1.toNat ≤ rdxStall.cfg.memBytes ∧
    InTime rdxStall.timeout oneInTime ∧ oneInTime.length < rdxStall.arg1.toNat ∧
    rdxStall.env = delivery oneInTime ++ (ticks 3 ++ bytes [0xCC]) := by decide
theorem witness_Stalls : Stalls 3 (ticks 3 ++ bytes [0xCC]) (bytes [0xCC]) ∧ Stalls 3 (ticks 2) [] ∧ Stalls 0 (ticks 1) [] :=
  ⟨.inl (by decide), .inr ⟨rfl, 2, by decide, rfl⟩, .inl (by decide)⟩

def noGaps : List (Nat × Byte) := [(0, 7), (0, 8)]
def skpGood : State := { args 0 2 0 with timeout := 0, env := delivery noGaps ++ [] }
def skpStall : State := { args 0 3 0 with timeout := 0, env := delivery noGaps ++ ticks 1 }
theorem witness_SkpDiscardsExactly_success :
    skpGood.busy = false ∧ skpGood.NoTurn ∧ InTime skpGood.timeout noGaps ∧ noGaps.length = skpGood.arg1.toNat ∧
    skpGood.env = delivery noGaps ++ [] := by decide
theorem witness_SkpDiscardsExactly_timeout :
    skpStall.busy = false ∧ skpStall.NoTurn ∧ InTime skpStall.timeout noGaps ∧ noGaps.length < skpStall.arg1.toNat ∧
    skpStall.env = delivery noGaps ++ ticks 1 := by decide

/-- Row R1 as a delivery without gaps. -/
def deliveryR1 : List (Nat × Byte) := rowR1.map fun v => (0, v)

/-- V-CV-13 (outside), V-CV-7 (overlap), V-CV-11's in-range half (the last packed byte), and a stall. -/
def cvrOut : State := args 120 0 119
def cvrLap : State := args 0 22 0
def cvrGood : State := { args 32 252 0 with env := delivery deliveryR1 ++ [] }
def cvrStall : State := { args 32 252 0 with timeout := 1, env := delivery noGaps ++ ticks 1 }
theorem witness_CvrConvertsOneRow_outside :
    cvrOut.busy = false ∧ cvrOut.NoTurn ∧ cvrOut.cfg.WF ∧ cvrOut.cfg.memBytes < cvrOut.arg0.toNat + 3 * cvrOut.cfg.width := by decide
theorem witness_CvrConvertsOneRow_overlap :
    cvrLap.busy = false ∧ cvrLap.NoTurn ∧ cvrLap.cfg.WF ∧
    ¬ (cvrLap.cfg.memBytes < cvrLap.arg0.toNat + 3 * cvrLap.cfg.width ∨
        cvrLap.cfg.memBytes ≤ cvrLap.arg2.toNat + (cvrLap.arg1.toNat + cvrLap.cfg.width - 1) / 2) ∧
    ¬ (cvrLap.arg0.toNat + 3 * cvrLap.cfg.width ≤ cvrLap.arg2.toNat + cvrLap.arg1.toNat / 2 ∨
        cvrLap.arg2.toNat + (cvrLap.arg1.toNat + cvrLap.cfg.width - 1) / 2 < cvrLap.arg0.toNat) := by decide
theorem witness_CvrConvertsOneRow_success :
    cvrGood.busy = false ∧ cvrGood.NoTurn ∧ cvrGood.cfg.WF ∧
    ¬ (cvrGood.cfg.memBytes < cvrGood.arg0.toNat + 3 * cvrGood.cfg.width ∨
        cvrGood.cfg.memBytes ≤ cvrGood.arg2.toNat + (cvrGood.arg1.toNat + cvrGood.cfg.width - 1) / 2) ∧
    cvrGood.arg0.toNat + 3 * cvrGood.cfg.width ≤ cvrGood.arg2.toNat + cvrGood.arg1.toNat / 2 ∧
    InTime cvrGood.timeout deliveryR1 ∧ deliveryR1.length = 3 * cvrGood.cfg.width ∧
    cvrGood.env = delivery deliveryR1 ++ [] := by decide
/-- The last pixel of the row, and positions before and after the row. -/
theorem witness_CvrConvertsOneRow_pixels :
    3 < cvrGood.cfg.width ∧ (delivered deliveryR1)[3 * 3]? = some 0x00 ∧ (delivered deliveryR1)[3 * 3 + 1]? = some 0xFF ∧
    (delivered deliveryR1)[3 * 3 + 2]? = some 0xFF ∧ 251 < cvrGood.arg1.toNat ∧
    ¬ InRange cvrGood.arg0.toNat (rowBytes cvrGood.cfg) (packedAddr cvrGood.arg2.toNat 251) := by decide
theorem witness_CvrConvertsOneRow_timeout :
    cvrStall.busy = false ∧ cvrStall.NoTurn ∧ cvrStall.cfg.WF ∧
    ¬ (cvrStall.cfg.memBytes < cvrStall.arg0.toNat + 3 * cvrStall.cfg.width ∨
        cvrStall.cfg.memBytes ≤ cvrStall.arg2.toNat + (cvrStall.arg1.toNat + cvrStall.cfg.width - 1) / 2) ∧
    cvrStall.arg0.toNat + 3 * cvrStall.cfg.width ≤ cvrStall.arg2.toNat + cvrStall.arg1.toNat / 2 ∧
    InTime cvrStall.timeout noGaps ∧ noGaps.length < 3 * cvrStall.cfg.width ∧
    cvrStall.env = delivery noGaps ++ ticks 1 := by decide

/-- V-CV-6: adjacent, not overlapping. -/
def cvrNext : State := { args 0 24 0 with env := bytes rowR1 }
theorem witness_CvrEqualsTheScript :
    cvrNext.busy = false ∧ cvrNext.cfg.WF ∧ NoHostTurn cvrNext.env ∧
    cvrNext.arg0.toNat + rowBytes cvrNext.cfg ≤ cvrNext.cfg.memBytes ∧
    packedLast cvrNext.cfg cvrNext.arg2.toNat cvrNext.arg1.toNat < cvrNext.cfg.memBytes ∧
    RowDisjoint cvrNext.cfg cvrNext.arg0.toNat cvrNext.arg1.toNat cvrNext.arg2.toNat ∧
    cvrNext.arg1.toNat + cvrNext.cfg.width ≤ 2 ^ 32 := by decide

/-- (a) a primary, (b) the edge of its tolerance, (c) one step outside every tolerance. -/
theorem witness_QuantizerProperties :
    Config.tcA.WF ∧ (⟨255, 255, 0⟩ : RGB) = Config.prim .yellow ∧ WithinTol ⟨249, 249, 6⟩ (Config.prim .yellow) ∧
    ∀ col ∈ Color.tier1Order, ¬ WithinTol ⟨249, 249, 7⟩ (Config.prim col) := by decide

theorem witness_ToleranceRegionsAreDisjoint :
    WithinTol ⟨6, 6, 6⟩ (Config.prim .black) ∧ WithinTol ⟨6, 6, 6⟩ (Config.prim .black) := by decide

theorem witness_PackFunction : 254 % 2 = 0 ∧ 255 % 2 = 1 := by decide

theorem witness_PckEitherOrder :
    (args 0 0 0).busy = false ∧ (args 0 0 0).NoTurn ∧ 2 * 127 + 1 < 2 ^ 32 ∧ (args 0 0 0).arg2.toNat + 127 < (args 0 0 0).cfg.memBytes := by
  decide

def hdrGood : State := { args 64 54 0 with mem := headerAt64 2 0 0 0 }
def hdrTopDown : State := { args 64 54 0 with mem := headerAt64 0xFE 0xFF 0xFF 0xFF }
def hdrLowest : State := { args 64 54 0 with mem := headerAt64 0 0 0 0x80 }

/-- The header with a changed byte between the examined ones. -/
theorem witness_HdrReadsOnlyTheExaminedBytes :
    hdrGood.busy = false ∧ hdrGood.NoTurn ∧
    ∀ o ∈ examined, ({ hdrGood with mem := hdrGood.mem.write 90 0xFF } : State).byte (hdrGood.arg0.toNat + o) =
      hdrGood.byte (hdrGood.arg0.toNat + o) := by decide

/-- The premises of `HdrHeightSign` but for the height. -/
abbrev HeaderButHeight (s : State) : Prop :=
  s.busy = false ∧ s.NoTurn ∧ s.cfg.WF ∧ 54 ≤ s.arg1.toNat ∧ s.arg0.toNat + 54 ≤ s.cfg.memBytes ∧
  s.byte s.arg0.toNat = 0x42 ∧ s.byte (s.arg0.toNat + 1) = 0x4D ∧ s.byte (s.arg0.toNat + 28) = 24 ∧
  s.byte (s.arg0.toNat + 29) = 0 ∧ s.memRead (s.arg0.toNat + 18) 4 = s.cfg.width
theorem witness_HdrHeightSign_bottom_up :
    HeaderButHeight hdrGood ∧ hdrGood.memRead (hdrGood.arg0.toNat + 22) 4 = hdrGood.cfg.height := by decide
theorem witness_HdrHeightSign_top_down :
    HeaderButHeight hdrTopDown ∧ hdrTopDown.memRead (hdrTopDown.arg0.toNat + 22) 4 = 2 ^ 32 - hdrTopDown.cfg.height := by decide
theorem witness_HdrHeightSign_lowest :
    HeaderButHeight hdrLowest ∧ hdrLowest.memRead (hdrLowest.arg0.toNat + 22) 4 = 2 ^ 31 := by decide

theorem witness_ReaderRunIsBounded :
    (1 ≤ 2 ∧ NoHostTurn (bytes [1, 2])) ∧ (readerRun 2 (1 : Word).toNat 0 0 (bytes [1, 2])).status = .ok := by decide

theorem witness_EveryCommandEnds : tc.busy = false ∧ NoHostTurn tc.env := by decide

theorem witness_TimeoutZeroActsAsOne :
    (1 ≤ 1 ∧ NoHostTurn (bytes [7]) ∧ (readerRun 1 1 0 0 (bytes [7])).status = .ok) ∧
    ((args 0 1 0).busy = false ∧ NoHostTurn (args 0 1 0).env) := by decide

/-- V-RD-15: an empty range at the end of memory. -/
theorem witness_ZeroLengthTakesNoEvent :
    (args 128 0 0).busy = false ∧ (args 128 0 0).NoTurn ∧ (args 128 0 0).arg1 = 0 ∧ (args 128 0 0).arg0.toNat ≤ (args 128 0 0).cfg.memBytes := by
  decide

theorem witness_SkipChunkIsNotObservable : (args 0 3 0).busy = false ∧ NoHostTurn (args 0 3 0).env := by decide

/-- RDX of two bytes with a read of STATUS between them. -/
def watched : State :=
  { args 16 2 0 with env := bytes [0x42] ++ .hostTurn :: bytes [0x4D], host := [.readReg .status] }

theorem witness_WatchedCommandEndsAlike :
    watched.busy = false ∧ NoHostTurn (bytes [0x42]) ∧ NoHostTurn (bytes [0x4D]) ∧
    watched.env = bytes [0x42] ++ .hostTurn :: bytes [0x4D] ∧ watched.host = .readReg .status :: [] ∧
    exec .rdx watched = .next (after .rdx watched) ∧ (after .rdx watched).busy = true :=
  ⟨rfl, by decide, by decide, rfl, rfl, rfl, rfl⟩

theorem witness_ScriptsEnd :
    waitsTwice.busy = false ∧
    Script.run (Script.rdx 16 2) waitsTwice = .next (stateOf tc (Script.run (Script.rdx 16 2) waitsTwice)) := ⟨rfl, rfl⟩

/-- Bytes that come without a gap. -/
def atOnce (vs : List Byte) : List (Nat × Byte) := vs.map fun v => (0, v)

/-- The chunk area at the end of memory; a frame, and one that stalls in its second chunk. -/
def directGood : State := { tc with timeout := 1, env := delivery (atOnce [1, 2, 3, 4]) ++ bytes [5] }
def directStall : State := { tc with timeout := 1, env := delivery (atOnce [1, 2, 3]) ++ ticks 1 }
theorem witness_DirectPathForwardsTheFrame_success :
    directGood.busy = false ∧ directGood.cfg.WF ∧ 1 ≤ 2 ∧ (126 : Word).toNat + 2 ≤ directGood.cfg.memBytes ∧
    InTime directGood.timeout (atOnce [1, 2, 3, 4]) ∧ (atOnce [1, 2, 3, 4]).length = directGood.cfg.frameBytes ∧
    directGood.env = delivery (atOnce [1, 2, 3, 4]) ++ bytes [5] := by decide
theorem witness_DirectPathForwardsTheFrame_stall :
    directStall.busy = false ∧ directStall.cfg.WF ∧ (126 : Word).toNat + 2 ≤ directStall.cfg.memBytes ∧
    InTime directStall.timeout (atOnce [1, 2, 3]) ∧ (atOnce [1, 2, 3]).length < directStall.cfg.frameBytes ∧
    directStall.env = delivery (atOnce [1, 2, 3]) ++ ticks 1 ∧ Stalls directStall.timeout (ticks 1) [] := by decide
theorem witness_DirectPathForwardsTheFrame_length : ∃ n, some 5 = some n ∧ n ≠ tc.cfg.frameBytes := ⟨5, rfl, by decide⟩

/-- The file of program P3. -/
def fileOfP3 : List (Nat × Byte) := atOnce (headerP3 62 24 ++ List.replicate 8 0xEE ++ rowsP3)
/-- The packed buffer, the scratch and the header side by side at the end of memory. -/
theorem witness_BmpPathConvertsTheFile :
    tc.busy = false ∧ tc.cfg.WF ∧ (74 : Word).toNat + 54 ≤ tc.cfg.memBytes ∧ (62 : Word).toNat + rowBytes tc.cfg ≤ tc.cfg.memBytes ∧
    (58 : Word).toNat + tc.cfg.frameBytes ≤ tc.cfg.memBytes ∧ Apart (74 : Word).toNat 54 (62 : Word).toNat (rowBytes tc.cfg) ∧
    Apart (74 : Word).toNat 54 (58 : Word).toNat tc.cfg.frameBytes ∧
    Apart (62 : Word).toNat (rowBytes tc.cfg) (58 : Word).toNat tc.cfg.frameBytes ∧ InTime tc.timeout fileOfP3 ∧
    headerError tc.cfg (fun o => (delivered fileOfP3).getD o 0) = .none ∧
    fileOfP3.length = 62 + tc.cfg.height * (rowBytes tc.cfg + Script.rowPadding tc.cfg) := by decide

/-- 32 bits per pixel, and an offset of 53. -/
theorem witness_BmpPathRejectsTheHeader :
    (headerError tc.cfg (fun o => (headerP3 62 32).getD o 0) = .hdrBpp) ∧
    (headerError tc.cfg (fun o => (headerP3 53 24).getD o 0) = .none ∧ le32 ((headerP3 53 24).getD 10 0) 0 0 0 < 54) ∧
    delivered (atOnce (headerP3 53 24)) = headerP3 53 24 ∧ (atOnce (headerP3 53 24)).length = 54 ∧
    InTime tc.timeout (atOnce (headerP3 53 24)) ∧ NoHostTurn (bytes rowsP3) := by decide

/-- A path that ends by its success and one that ends by the host's own test. -/
def endsWell : State := fileP3 (headerP3 62 24 ++ List.replicate 8 0xEE ++ rowsP3)
def endsEarly : State := fileP3 (headerP3 53 24)
theorem witness_BmpPathStopsAtTheFirstError :
    (endsWell.busy = false ∧ NoHostTurn endsWell.env) ∧ (endsEarly.busy = false ∧ NoHostTurn endsEarly.env) := by decide
theorem witness_BmpPathStopsAtTheFirstError_runs :
    Script.bmpPath 64 32 0 endsEarly = .next (transferOf tc (Script.bmpPath 64 32 0 endsEarly)) := rfl

theorem witness_ErrorsArePrecise_nothing_happened :
    exec .map mapBad = .next (after .map mapBad) ∧ (after .map mapBad).busy = false ∧ (after .map mapBad).err ≠ .none ∧
    (after .map mapBad).err ≠ .timeout := ⟨rfl, rfl, by decide, by decide⟩

theorem witness_ErrorsArePrecise_reserved : tc.busy = false ∧ decode 0x10 = .reserved .upperBits := by decide

/-- RDX of one byte from a stream that has ended: address 16 is lost, address 17 is not. -/
def rdxEnded : State := args 16 1 0
theorem witness_ErrorsArePrecise_timeout :
    exec .rdx rdxEnded = .next (after .rdx rdxEnded) ∧ (after .rdx rdxEnded).busy = false ∧ (after .rdx rdxEnded).err = .timeout ∧
    Destination .rdx rdxEnded 16 ∧ ¬ Destination .rdx rdxEnded 17 :=
  ⟨rfl, rfl, rfl, by unfold Destination; decide, by unfold Destination; decide⟩

theorem witness_ErrorCodesOfEachCommand :
    (exec .map mapGood = .next (after .map mapGood) ∧ (after .map mapGood).busy = false) ∧
    (tc.busy = false ∧ decode 7 = .reserved .opcode) := ⟨⟨rfl, rfl⟩, rfl, rfl⟩

def readsRes : State := { tc with host := [.readReg .res] }
theorem witness_ResultsStayUntilTheNextCommand :
    (exec .map mapGood = .next (after .map mapGood) ∧ (after .map mapGood).busy = false) ∧
    (readsRes.busy = false ∧ step readsRes = .next (stateOf tc (step readsRes)) ∧ readsRes.host.head? ≠ some .reset ∧
      ∀ w, readsRes.host.head? ≠ some (.writeReg .cmd w)) :=
  ⟨⟨rfl, rfl⟩, rfl, rfl, by decide, fun w => by simp [readsRes]⟩

theorem witness_CommandsKeepOperandsAndConfiguration : exec .cvr cvrNext = .next (after .cvr cvrNext) := rfl

theorem witness_CommandsWriteOnlyTheirBytes : exec .pck pckEven = .next (after .pck pckEven) ∧ ¬ MayWrite .pck pckEven 126 :=
  ⟨rfl, by unfold MayWrite; decide⟩

theorem witness_UnnamedRegistersDoNotMatter :
    exec .rdx rdxGood = .next (after .rdx rdxGood) ∧ exec .skp skpGood = .next (after .skp skpGood) ∧
    exec .map mapGood = .next (after .map mapGood) ∧ exec .pck pckEven = .next (after .pck pckEven) ∧
    exec .hdr hdrGood = .next (after .hdr hdrGood) := ⟨rfl, rfl, rfl, rfl, rfl⟩

def readsTimeout : State := { tc with host := [.readReg .timeout] }
def writesArg1 : State := { tc with host := [.writeReg .arg1 0xDEADBEEF] }
theorem witness_RegisterMap :
    (readsTimeout.busy = false ∧ readsTimeout.host = .readReg .timeout :: []) ∧
    (writesArg1.busy = false ∧ Reg.arg1 ≠ .cmd ∧ writesArg1.host = .writeReg .arg1 0xDEADBEEF :: []) := by decide

/-- A command in the middle, with the host's turn next. -/
def waiting (a : HostAction) : State := after .rdx { args 16 2 0 with env := .hostTurn :: bytes [1, 2], host := [a] }

/-- Addresses 127 and 128, on either side of the end of memory. -/
def readsLast : State := { tc with host := [.readMem 127] }
def writesBeyond : State := { tc with host := [.writeMem 128 5] }
theorem witness_BufferPort_idle :
    (readsLast.busy = false ∧ readsLast.host = .readMem 127 :: [] ∧ 127 < readsLast.cfg.memBytes) ∧
    (writesBeyond.busy = false ∧ writesBeyond.host = .writeMem 128 5 :: [] ∧ writesBeyond.cfg.memBytes ≤ 128) := by decide
theorem witness_BufferPort_busy :
    (waiting (.readMem 0)).busy = true ∧ (waiting (.readMem 0)).env = .hostTurn :: bytes [1, 2] ∧
    (waiting (.readMem 0)).host = .readMem 0 :: [] := ⟨rfl, rfl, rfl⟩

theorem witness_BusyBlockRefusesTheHost :
    ((waiting (.readReg .status)).busy = true ∧ (waiting (.readReg .status)).env = .hostTurn :: bytes [1, 2] ∧
      (waiting (.readReg .status)).host = .readReg .status :: []) ∧
    ((waiting .wait).busy = true ∧ (waiting .wait).env = .hostTurn :: bytes [1, 2] ∧ (waiting .wait).host = .wait :: []) ∧
    ((waiting (.writeReg .cmd 1)).busy = true ∧ (waiting (.writeReg .cmd 1)).env = .hostTurn :: bytes [1, 2] ∧
      (waiting (.writeReg .cmd 1)).host = .writeReg .cmd 1 :: [] ∧
      HostAction.writeReg .cmd 1 ≠ .readReg .status ∧ HostAction.writeReg .cmd 1 ≠ .wait ∧
      HostAction.writeReg .cmd 1 ≠ .reset) :=
  ⟨⟨rfl, rfl, rfl⟩, ⟨rfl, rfl, rfl⟩, rfl, rfl, rfl, by decide, by decide, by decide⟩

/-- The line `WAIT` while idle, and at the host's turn of a running command. -/
def waitsIdle : State := { tc with host := [.wait] }
theorem witness_WaitRepeatsWhileBusy :
    (waitsIdle.host = .wait :: [] ∧ waitsIdle.busy = false) ∧
    ((waiting .wait).host = .wait :: [] ∧ (waiting .wait).busy = true ∧ (waiting .wait).env = .hostTurn :: bytes [1, 2]) :=
  ⟨⟨rfl, rfl⟩, rfl, rfl, rfl⟩

theorem witness_WaitEndsWithTheCommand :
    waitsTwice.busy = false ∧ waitsTwice.host = .wait :: [.readReg .res] ∧
    exec .rdx waitsTwice = .next (after .rdx waitsTwice) ∧ (after .rdx waitsTwice).busy = true := ⟨rfl, rfl, rfl, rfl⟩

theorem witness_IdleBlockKeepsItsState : tc.busy = false ∧ tc.host = [] := by decide

def resets : State := { tc with host := [.reset], arg1 := 7, arg2 := 7, timeout := 7 }
theorem witness_ResetAbandonsEverything :
    (resets.host = .reset :: [] ∧ resets.busy = false ∧ resets.env = []) ∧
    ((waiting .reset).host = .reset :: [] ∧ (waiting .reset).busy = true ∧ (waiting .reset).env = .hostTurn :: bytes [1, 2]) :=
  ⟨⟨rfl, rfl, rfl⟩, rfl, rfl, rfl⟩

/-- The invariant holds of a state in the middle of a command, from which a step goes on. -/
theorem witness_EveryStepKeepsTheInvariant :
    Inv (after .rdx watched) ∧ step (after .rdx watched) = .next (stateOf tc (step (after .rdx watched))) :=
  ⟨⟨by decide, by decide, by decide, by decide, by decide, by decide, by decide,
    fun r hr => by
      have e : (after .rdx watched).running = some ⟨.rdx, ⟨16, 2, 0, 15000⟩, 1, 0, []⟩ := rfl
      rw [e] at hr
      cases hr
      exact ⟨by decide, by decide, by decide, by decide⟩,
    by decide⟩, rfl⟩

def startsRdx : State := { tc with host := [.writeReg .cmd 1], arg1 := 1, env := bytes [9] }
theorem witness_StreamOnlyAdvances : step startsRdx = .next (stateOf tc (step startsRdx)) := rfl

/-- A write that changes ARG0, a command that changes RES, and a reset that changes the others. -/
def writesArg0 : State := { tc with host := [.writeReg .arg0 7] }
def startsMap : State := { tc with host := [.writeReg .cmd 3], arg0 := 0x00FF0000 }
theorem witness_WhoWritesTheRegisters_arg0 :
    step writesArg0 = .next (stateOf tc (step writesArg0)) ∧ (stateOf tc (step writesArg0)).arg0 ≠ writesArg0.arg0 :=
  ⟨rfl, by decide⟩
theorem witness_WhoWritesTheRegisters_res :
    step startsMap = .next (stateOf tc (step startsMap)) ∧ (stateOf tc (step startsMap)).res ≠ startsMap.res := ⟨rfl, by decide⟩
/-- The same with a command that was running: its last stretch changes RES, which still held the result of an earlier command. -/
def endsRdx : State := { waiting .wait with env := bytes [1, 2], res := 3 }
theorem witness_WhoWritesTheRegisters_res_running :
    step endsRdx = .next (stateOf tc (step endsRdx)) ∧ (stateOf tc (step endsRdx)).res ≠ endsRdx.res ∧ endsRdx.busy = true :=
  ⟨rfl, by decide, rfl⟩
theorem witness_WhoWritesTheRegisters_reset :
    step resets = .next (stateOf tc (step resets)) ∧ (stateOf tc (step resets)).arg1 ≠ resets.arg1 ∧
    (stateOf tc (step resets)).arg2 ≠ resets.arg2 ∧ (stateOf tc (step resets)).timeout ≠ resets.timeout :=
  ⟨rfl, by decide, by decide, by decide⟩

end Sys2Proof.Tests
end

