-- ==== Sys2Proof/Proofs/Reset.lean ====
section
/-! Reset (R29, R130, R131): what a reset makes of STATUS and of `MEM`, and that it is the whole step wherever the host acts. -/

namespace Sys2Proof.Machine

@[simp] theorem State.doReset_statusWord (s : State) : s.doReset.statusWord = 0 := by
  simp [State.statusWord, Err.code]

/-- Reset empties the list of written bytes, so every byte belongs to the fresh draw (R12, R29). -/
@[simp] theorem State.doReset_byte (s : State) (a : Nat) : s.doReset.byte a = Config.freeByte s.draws a := rfl

theorem idleAction_reset (s : State) : idleAction .reset s = .next s.doReset := rfl

theorem busyAction_reset (s : State) : busyAction .reset s = .next s.doReset := rfl

/-- A reset is answered alike idle and at a host turn of a running command (R130). -/
theorem step_reset {s : State} {es : List Event} {rest : List HostAction} (hh : s.host = .reset :: rest)
    (h : s.busy = false ∧ s.env = es ∨ s.busy = true ∧ s.env = .hostTurn :: es) :
    step s = .next { s with env := es, host := rest }.doReset := by
  rcases h with ⟨hb, rfl⟩ | ⟨hb, he⟩
  · rw [step_idle_cons hb hh, idleAction_reset]
  · rw [step_turn_cons hb he hh, busyAction_reset]

/-- Settles O46: the next state is `State.doReset`, idle or busy; its fields are read off by the laws of `State.doReset`. -/
theorem resetAbandonsEverything : Obligations.ResetAbandonsEverything := by
  intro s es rest hh h
  refine ⟨_, step_reset hh h, ?_⟩
  simp [Config.timeoutDefault]

end Sys2Proof.Machine
end

