-- ==== Sys2Proof/Proofs/BufferPort.lean ====
section
/-! The host's port to the buffer memory (R31): a buffer access at either side of `MEM_BYTES`, and while a command runs. -/

namespace Sys2Proof.Machine

theorem withAddress_inside {a : Nat} {s : State} (h : a < s.cfg.memBytes) (t : State) : withAddress a s t = .next t := if_pos h

theorem withAddress_outside {a : Nat} {s : State} (h : s.cfg.memBytes ≤ a) (t : State) :
    withAddress a s t = .refused .hostAddressOutsideMem := if_neg h.not_gt

theorem step_readMem {s : State} {a : Nat} {rest : List HostAction} (hb : s.busy = false) (hh : s.host = .readMem a :: rest) :
    step s = withAddress a s { s with host := rest, reply := .byte (s.byte a) } := by
  rw [step_idle_cons hb hh]
  rfl

theorem step_writeMem {s : State} {a : Nat} {v : Byte} {rest : List HostAction} (hb : s.busy = false)
    (hh : s.host = .writeMem a v :: rest) :
    step s = withAddress a s ({ s with host := rest, reply := .nothing }.setByte a v) := by
  rw [step_idle_cons hb hh]
  rfl

/-- At a host turn of a running command no buffer access has a meaning (R135). -/
theorem step_bufferAccess_busy {s : State} {a : Nat} {v : Byte} {es : List Event} {rest : List HostAction} (hb : s.busy = true)
    (he : s.env = .hostTurn :: es) (hh : s.host = .readMem a :: rest ∨ s.host = .writeMem a v :: rest) :
    step s = .refused .hostAccessWhileBusy := by
  rcases hh with hh | hh <;> rw [step_turn_cons hb he hh] <;> rfl

/-- Settles O42: an idle buffer access is `withAddress` around the read byte or around `State.setByte`, whose frame is
`State.byte_setByte`. -/
theorem bufferPort : Obligations.BufferPort := by
  intro s a v rest
  refine ⟨fun hb hh => ?read, fun hb hh => ?write, fun es => step_bufferAccess_busy⟩
  case read =>
    rw [step_readMem hb hh]
    exact ⟨fun h => withAddress_inside h _, fun h => withAddress_outside h _⟩
  case write =>
    rw [step_writeMem hb hh]
    refine ⟨fun h => ⟨_, withAddress_inside h _, rfl, ?_, fun x hx => ?_⟩, fun h => withAddress_outside h _⟩
    · rw [State.byte_setByte, if_pos rfl]
    · rw [State.byte_setByte, if_neg hx]
      exact State.byte_congr rfl rfl x

end Sys2Proof.Machine
end

