-- ==== Sys2Proof/Proofs/Encoding.lean ====
section
/-! Command words (R49, R50, R52): a word decodes to a command exactly when it is that command's word, the six words are 1 to 6, and
every other word, written to CMD, ends at once with E_OPCODE. -/

namespace Sys2Proof

/-! ### The fields of a command word -/

/-- The one format of R49: a command word is its two fields. -/
theorem zeroField_append_opField (w : Word) : zeroField w ++ opField w = w :=
  BitVec.extractLsb'_append_extractLsb'

/-- Every command word has the one format of R49 and the opcode map of R50. -/
theorem encode_oneFormat : (i : Instr) → Laws.OneFormat.Statement i
  | .rdx => Laws.OneFormat.rdx
  | .skp => Laws.OneFormat.skp
  | .map => Laws.OneFormat.map
  | .pck => Laws.OneFormat.pck
  | .hdr => Laws.OneFormat.hdr
  | .cvr => Laws.OneFormat.cvr

theorem opcode_toNat_bounds (i : Instr) : 1 ≤ (opcode i).toNat ∧ (opcode i).toNat ≤ 6 := by cases i <;> decide

/-- The six command words are the numbers 1 to 6 (R50). -/
theorem exists_eq_encode_iff (w : Word) : (∃ i, w = encode i) ↔ 1 ≤ w.toNat ∧ w.toNat ≤ 6 := by
  constructor
  · rintro ⟨i, rfl⟩
    obtain ⟨-, -, hw⟩ := encode_oneFormat i
    exact hw
  · rintro ⟨h1, h6⟩
    generalize hn : w.toNat = n at h1 h6
    have of_toNat (i : Instr) (hi : (encode i).toNat = n) : ∃ i, w = encode i := ⟨i, BitVec.eq_of_toNat_eq (hn.trans hi.symm)⟩
    interval_cases n
    exacts [of_toNat .rdx rfl, of_toNat .skp rfl, of_toNat .map rfl, of_toNat .pck rfl, of_toNat .hdr rfl, of_toNat .cvr rfl]

/-! ### Decoding -/

/-- The opcode map of R50 has one opcode for each command. -/
theorem decodeOp_eq_command_iff {op : Nibble} {i : Instr} : decodeOp op = .command i ↔ op = opcode i := by
  cases i <;> revert op <;> decide

theorem decode_eq_command_iff_fields {w : Word} {i : Instr} :
    decode w = .command i ↔ zeroField w = 0 ∧ opField w = opcode i := by
  unfold decode
  split
  case isTrue hz => rw [decodeOp_eq_command_iff, and_iff_right hz]
  case isFalse hz => exact iff_of_false nofun fun ⟨h, _⟩ => hz h

theorem decode_eq_command_iff {w : Word} {i : Instr} : decode w = .command i ↔ w = encode i := by
  rw [decode_eq_command_iff_fields]
  constructor
  · rintro ⟨hz, ho⟩
    rw [← zeroField_append_opField w, hz, ho, encode]
  · rintro rfl
    obtain ⟨hz, ho, -⟩ := encode_oneFormat i
    exact ⟨hz, ho⟩

theorem decode_encode (i : Instr) : decode (encode i) = .command i := decode_eq_command_iff.2 rfl

/-- R52's list of the reserved words: bits 31:4 not all 0, or `op` 0x0 or 0x7..0xF. -/
theorem decode_ne_command_of_reserved {w : Word} (h : zeroField w ≠ 0 ∨ (opField w).toNat = 0 ∨ 7 ≤ (opField w).toNat)
    (i : Instr) : decode w ≠ .command i := by
  intro hd
  obtain ⟨hz, ho⟩ := decode_eq_command_iff_fields.1 hd
  have hop := opcode_toNat_bounds i
  rw [← ho] at hop
  rcases h with h | h | h
  · exact h hz
  all_goals omega

/-- Settles O2: the words that decode to a command are those of `encode`, which are the numbers 1 to 6. -/
theorem commandWordsAreOneToSix : Obligations.CommandWordsAreOneToSix := by
  refine ⟨decode_encode .rdx, decode_encode .skp, decode_encode .map, decode_encode .pck, decode_encode .hdr, decode_encode .cvr,
    fun w => ?_⟩
  have h := exists_eq_encode_iff w
  simp only [ne_eq, decode_eq_command_iff, ← not_exists, h]
  omega

namespace Machine

/-! ### A write to CMD -/

/-- The start that R52 speaks of leaves no trace: a reserved word acts as the end of a command with E_OPCODE. -/
theorem State.reservedCommand_eq_ended (s : State) : s.reservedCommand = s.ended .opcode 0 := rfl

theorem step_writeCmd {s : State} {w : Word} {rest : List HostAction} (hb : s.busy = false)
    (hh : s.host = .writeReg .cmd w :: rest) : step s = writeCmd w { s with host := rest, reply := .nothing } := by
  rw [step_idle_cons hb hh]
  rfl

/-- Settles O3: `writeCmd` has two cases, and a reserved word is in the second. -/
theorem reservedWordEndsWithOpcodeError : Obligations.ReservedWordEndsWithOpcodeError := by
  intro s w rest hb hh hw
  rw [step_writeCmd hb hh]
  rcases writeCmd_cases w { s with host := rest, reply := .nothing } with ⟨i, hd, -⟩ | ⟨-, -, he⟩
  · exact absurd hd (decode_ne_command_of_reserved hw i)
  · rw [he, State.reservedCommand_eq_ended]

end Machine

end Sys2Proof
end

