-- ==== Sys2Proof/Proofs/Reader.lean ====
section
/-! The reader commands RDX and SKP (R67, R72 to R74): what a whole run of the engine answers, and the state in which the two
commands leave the block after it. -/

namespace Sys2Proof.Machine

variable {s : State} {u : Run}

/-! ### Whole runs of the engine -/

@[simp] theorem delivered_length (gs : List (Nat × Byte)) : (delivered gs).length = gs.length := List.length_map _

/-- A command that has just started runs the engine from its first event on. -/
theorem engine_started (n : Nat) (i : Instr) (s : State) :
    engine n (started i s) (s.start i) = readerRun n (latch i s).t.toNat 0 0 s.env := rfl

/-- All wanted bytes in time: the run delivers them and stops behind the last one (R63, R64). -/
theorem readerRun_delivery_ok {n : Nat} {t : Word} {gs : List (Nat × Byte)} {env rest : List Event} (hin : InTime t gs)
    (hlen : gs.length = n) (henv : env = delivery gs ++ rest) :
    readerRun n t.toNat 0 0 env = ⟨.ok, delivered gs, gs.length, 0, rest⟩ := by
  rw [henv, readerRun_delivery t gs 0 rest hin (by omega), readerRun_ready (by omega)]
  simp [Run.prepend]

/-- Too few bytes in time and then a gap that reaches the timeout: the run fails with the bytes that came (R63, R64). -/
theorem readerRun_delivery_fail {n : Nat} {t : Word} {gs : List (Nat × Byte)} {env es rest : List Event} (hin : InTime t gs)
    (hlen : gs.length < n) (henv : env = delivery gs ++ es) (hs : Stalls t es rest) :
    ∃ k, readerRun n t.toNat 0 0 env = ⟨.fail, delivered gs, gs.length, k, rest⟩ := by
  obtain ⟨k, hk⟩ := readerRun_stalls (n := n) (got := 0 + gs.length) t (by omega) hs
  refine ⟨k, ?_⟩
  rw [henv, readerRun_delivery t gs 0 es hin (by omega), hk]
  simp [Run.prepend]

/-- The engine of a started command ends when the host does not move. -/
theorem engine_started_not_paused (n : Nat) (i : Instr) (h : NoHostTurn s.env) :
    (engine n (started i s) (s.start i)).status ≠ .paused :=
  readerRun_not_paused (Nat.zero_le n) h

/-! ### The commands after a run -/

/-- The error code of a reader command whose run ended (R72, R73). -/
def RunStatus.err : RunStatus → Err
  | .fail => .timeout
  | .ok | .paused => .none

/-- SKP after a run that ended: its events are consumed, its bytes go nowhere. -/
theorem skpBody_ended {r : Running} (hp : (engine r.ops.a1.toNat r s).status ≠ .paused) :
    skpBody r s = (s.consume (engine r.ops.a1.toNat r s)).ended (engine r.ops.a1.toNat r s).status.err 0 := by
  rcases skpBody_cases r s with ⟨hs, he⟩ | ⟨hs, he⟩ | ⟨hs, -⟩
  · rw [he, hs]; rfl
  · rw [he, hs]; rfl
  · exact absurd hs hp

theorem exec_skp_ended (hb : s.busy = false) (hn : s.NoTurn) (hu : readerRun s.arg1.toNat s.timeout.toNat 0 0 s.env = u)
    (hp : u.status ≠ .paused) : exec .skp s = .next ((s.consume u).ended u.status.err 0) := by
  have he : engine s.arg1.toNat (started .skp s) (s.start .skp) = u := hu
  rw [exec_noTurn hb hn, ← he, Host.Outcome.next.injEq]
  exact skpBody_ended (he ▸ hp)

theorem rdxBody_outside (hf : ¬ Fits s.cfg s.arg0.toNat s.arg1.toNat) :
    rdxBody (started .rdx s) (s.start .rdx) = (s.start .rdx).raise .addr := if_neg hf

theorem rdxBody_inside (hf : Fits s.cfg s.arg0.toNat s.arg1.toNat) :
    rdxBody (started .rdx s) (s.start .rdx) =
      readInto s.arg0.toNat s.arg1.toNat (State.complete 0) (started .rdx s) (s.start .rdx) := if_pos hf

theorem exec_rdx_outside (hb : s.busy = false) (hn : s.NoTurn) (hf : ¬ Fits s.cfg s.arg0.toNat s.arg1.toNat) :
    exec .rdx s = .next (s.ended .addr 0) := by
  rw [exec_noTurn hb hn, bodyOf, rdxBody_outside hf]
  rfl

/-- RDX after a run that received all its bytes. -/
theorem exec_rdx_ok (hb : s.busy = false) (hn : s.NoTurn) (hf : Fits s.cfg s.arg0.toNat s.arg1.toNat)
    (hu : readerRun s.arg1.toNat s.timeout.toNat 0 0 s.env = u) (hs : u.status = .ok) :
    exec .rdx s = .next (((s.consume u).setBytes s.arg0.toNat u.bytes).ended .none 0) := by
  have he : engine s.arg1.toNat (started .rdx s) (s.start .rdx) = u := hu
  rw [exec_noTurn hb hn, bodyOf, rdxBody_inside hf, readInto_ok (he ▸ hs), afterRun, he]
  rfl

/-- RDX after a run that failed: what it had stored is lost with the rest of the destination. -/
theorem exec_rdx_fail (hb : s.busy = false) (hn : s.NoTurn) (hf : Fits s.cfg s.arg0.toNat s.arg1.toNat)
    (hu : readerRun s.arg1.toNat s.timeout.toNat 0 0 s.env = u) (hs : u.status = .fail) :
    exec .rdx s =
      .next ((((s.consume u).setBytes s.arg0.toNat u.bytes).scramble s.arg0.toNat s.arg1.toNat).ended .timeout 0) := by
  have he : engine s.arg1.toNat (started .rdx s) (s.start .rdx) = u := hu
  rw [exec_noTurn hb hn, bodyOf, rdxBody_inside hf, readInto_fail (he ▸ hs), afterRun, he]
  rfl

@[simp] theorem State.byte_ended (s : State) (e : Err) (v : Word) (a : Nat) : (s.ended e v).byte a = s.byte a := rfl
@[simp] theorem State.byte_consume (s : State) (u : Run) (a : Nat) : (s.consume u).byte a = s.byte a := rfl

/-- Bytes stored from `a` on, by their index. -/
theorem State.byte_setBytes_getElem {vs : List Byte} {i : Nat} {v : Byte} (h : vs[i]? = some v) (s : State) (a : Nat) :
    (s.setBytes a vs).byte (a + i) = v := by
  have hi : i < vs.length := (List.getElem?_eq_some_iff.1 h).1
  rw [State.byte_setBytes, if_pos (by omega), Nat.add_sub_cancel_left, List.getD, h, Option.getD_some]

/-- Bytes stored from `a` on leave every address outside them alone, also when they do not fill the range. -/
theorem State.byte_setBytes_outside {a n x : Nat} {vs : List Byte} (hlen : vs.length ≤ n) (hx : ¬ InRange a n x) (s : State) :
    (s.setBytes a vs).byte x = s.byte x := by
  rw [State.byte_setBytes, if_neg (by unfold InRange at hx; omega)]

/-- Settles O9: a destination outside `MEM`, a run that delivers, and a run that stalls, each with the state that RDX ends in. -/
theorem rdxReadsExactly : Obligations.RdxReadsExactly := by
  refine ⟨decode_encode .rdx, fun s hb hn => ⟨fun h => ?outside, fun hf gs rest hin hlen henv => ?success,
    fun hf gs es rest hin hlen henv hst => ?timeout⟩⟩
  case outside => exact exec_rdx_outside hb hn h.not_ge
  case success =>
    refine ⟨_, exec_rdx_ok hb hn hf (readerRun_delivery_ok hin hlen henv) rfl, ?_, fun i v hv => ?_, fun a ha => ?_⟩
    · rw [← hlen, ← delivered_length]
      rfl
    · exact State.byte_setBytes_getElem hv _ _
    · exact State.byte_setBytes_outside (by simp [hlen]) ha _
  case timeout =>
    obtain ⟨k, hk⟩ := readerRun_delivery_fail hin hlen henv hst
    refine ⟨_, exec_rdx_fail hb hn hf hk rfl, ?_, fun a ha => ?_, fun a ha => ?_⟩
    · rw [← delivered_length]
      rfl
    · rw [State.byte_ended, State.byte_scramble, if_pos ha]
      rfl
    · rw [State.byte_ended, State.byte_scramble, if_neg ha, State.byte_setBytes_outside (by simp [hlen.le]) ha,
        State.byte_consume]

/-- Settles O10: a run that delivers and a run that stalls. -/
theorem skpDiscardsExactly : Obligations.SkpDiscardsExactly := by
  refine ⟨decode_encode .skp, fun s hb hn => ⟨fun gs rest hin hlen henv => ?success,
    fun gs es rest hin hlen henv hst => ?timeout⟩⟩
  case success =>
    rw [exec_skp_ended hb hn (readerRun_delivery_ok hin hlen henv) nofun, ← hlen, ← delivered_length]
    rfl
  case timeout =>
    obtain ⟨k, hk⟩ := readerRun_delivery_fail hin hlen henv hst
    rw [exec_skp_ended hb hn hk nofun, ← delivered_length]
    rfl

/-- Settles O24: a run that wants nothing is done before its first event. -/
theorem zeroLengthTakesNoEvent : Obligations.ZeroLengthTakesNoEvent := by
  intro s hb hn h0
  have hlen : s.arg1.toNat = 0 := by rw [h0]; rfl
  have hu : readerRun s.arg1.toNat s.timeout.toNat 0 0 s.env = ⟨.ok, [], 0, 0, s.env⟩ := readerRun_ready hlen.le 0 s.env
  refine ⟨exec_skp_ended hb hn hu nofun, fun ha => exec_rdx_ok hb hn ?_ hu rfl⟩
  rwa [Fits, hlen]

/-- Settles O25: the engine's run does not depend on the configuration, and SKP that ends keeps nothing of the chunk buffer. -/
theorem skipChunkIsNotObservable : Obligations.SkipChunkIsNotObservable := by
  intro s k hb h
  have hp : (readerRun s.arg1.toNat s.timeout.toNat 0 0 s.env).status ≠ .paused := readerRun_not_paused (Nat.zero_le _) h
  exact ⟨_, exec_skp_ended hb h.noTurn rfl hp,
    exec_skp_ended (s := { s with cfg := { s.cfg with skipChunk := k } }) hb h.noTurn rfl hp⟩

end Sys2Proof.Machine
end

