-- ==== Sys2Proof/Proofs/TimeoutZero.lean ====
section
/-! TIMEOUT 0 acts as TIMEOUT 1 (R66): the engine cannot tell them apart, and a command reads TIMEOUT only when it latches it. The
register's new value is written `State.writeReg w .timeout`, the host's own write. -/

namespace Sys2Proof.Machine

/-! ### The engine -/

/-- A timeout of at most 1 is reached by the first tick, whatever the stall counter (R66). -/
theorem readerRun_timeout_le_one {n t : Nat} (ht : t ≤ 1) (es : List Event) (got stall : Nat) :
    readerRun n t got stall es = readerRun n 0 got stall es := by
  induction es generalizing got stall with
  | nil => rfl
  | cons e es ih =>
    rcases Nat.lt_or_ge got n with h | h
    · cases e with
      | byte v => rw [readerRun_byte h, readerRun_byte h, ih]
      | tick => rw [readerRun_tick_fail h (by omega), readerRun_tick_fail h (by omega)]
      | hostTurn => rw [readerRun_turn h, readerRun_turn h]
    · rw [readerRun_ready h, readerRun_ready h]

/-- A successful run with such a timeout took bytes alone (R66). -/
theorem events_eq_of_readerRun_ok {n t : Nat} (ht : t ≤ 1) {es : List Event} {got stall : Nat}
    (hs : (readerRun n t got stall es).status = .ok) :
    es = (readerRun n t got stall es).bytes.map Event.byte ++ (readerRun n t got stall es).rest := by
  induction es generalizing got stall with
  | nil =>
    rcases Nat.lt_or_ge got n with h | h
    · rw [readerRun_nil h] at hs
      cases hs
    · rw [readerRun_ready h]
      rfl
  | cons e es ih =>
    rcases Nat.lt_or_ge got n with h | h
    · cases e with
      | byte v =>
        rw [readerRun_byte h] at hs ⊢
        exact congrArg _ (ih hs)
      | tick =>
        rw [readerRun_tick_fail h (by omega)] at hs
        cases hs
      | hostTurn =>
        rw [readerRun_turn h] at hs
        cases hs
    · rw [readerRun_ready h]
      rfl

/-! ### CVR by its checks, and what the row conversion looks at -/

section
variable {s : State}

theorem cvrBody_outside (hf : ¬ RowFits s.cfg s.arg0.toNat s.arg1.toNat s.arg2.toNat) :
    cvrBody (started .cvr s) (s.start .cvr) = (s.start .cvr).raise .addr := if_neg hf

theorem cvrBody_overlap (hf : RowFits s.cfg s.arg0.toNat s.arg1.toNat s.arg2.toNat)
    (hd : ¬ RowDisjoint s.cfg s.arg0.toNat s.arg1.toNat s.arg2.toNat) :
    cvrBody (started .cvr s) (s.start .cvr) = (s.start .cvr).raise .operand := (if_pos hf).trans (if_neg hd)

theorem cvrBody_row (hf : RowFits s.cfg s.arg0.toNat s.arg1.toNat s.arg2.toNat)
    (hd : RowDisjoint s.cfg s.arg0.toNat s.arg1.toNat s.arg2.toNat) :
    cvrBody (started .cvr s) (s.start .cvr) = readInto s.arg0.toNat (rowBytes s.cfg)
      (fun t => (convertPixels s.arg0.toNat s.arg1.toNat s.arg2.toNat 0 s.cfg.width t).complete 0)
      (started .cvr s) (s.start .cvr) := (if_pos hf).trans (if_pos hd)

end

/-- The conversion of a row looks at `MEM` and the configuration only. -/
theorem convertPixels_mem_congr (scratch p0 base n x : Nat) {s t : State} (hm : t.mem = s.mem) (hd : t.memDraw = s.memDraw)
    (hc : t.cfg = s.cfg) :
    (convertPixels scratch p0 base x n t).mem = (convertPixels scratch p0 base x n s).mem := by
  induction n generalizing x s t with
  | zero => exact hm
  | succ n ih =>
    have hb := State.byte_congr hm hd
    refine ih (x + 1) ?_ hd hc
    simp only [convertPixel, State.packPixel_mem, State.bgr, hb, hm, hc]

/-! ### MAP, PCK and HDR never look at TIMEOUT -/

@[simp] theorem State.writeReg_cfg (s : State) (w : Word) (r : Reg) : (s.writeReg w r).cfg = s.cfg := by cases r <;> rfl

section
variable (r : Running) (s : State) (w : Word)

theorem mapBody_timeout : mapBody r (s.writeReg w .timeout) = (mapBody r s).writeReg w .timeout := by
  unfold mapBody
  split <;> rfl

theorem pckBody_timeout : pckBody r (s.writeReg w .timeout) = (pckBody r s).writeReg w .timeout := by
  simp only [pckBody, State.writeReg_cfg]
  split
  · split <;> rfl
  · rfl

theorem parseHeader_timeout (h n : Nat) : parseHeader (s.writeReg w .timeout) h n = parseHeader s h n := rfl

theorem hdrBody_timeout : hdrBody r (s.writeReg w .timeout) = (hdrBody r s).writeReg w .timeout := by
  simp only [hdrBody, parseHeader_timeout, State.writeReg_cfg]
  split
  · rfl
  · split
    · split <;> rfl
    · rfl

end

/-! ### RDX, SKP and CVR, through the engine, take a TIMEOUT of at most 1 for 0 -/

/-- What `body` makes of the command `i` that starts in `s` with TIMEOUT `w`. -/
def bodyAt (body : Running → State → State) (i : Instr) (w : Word) (s : State) : State :=
  body (started i (s.writeReg w .timeout)) ((s.writeReg w .timeout).start i)

section
variable {s : State} {w : Word}

theorem exec_eq_bodyAt (i : Instr) (w : Word) (hb : s.busy = false) (hn : s.NoTurn) :
    exec i { s with timeout := w } = .next (bodyAt (bodyOf i) i w s) :=
  exec_noTurn (s := s.writeReg w .timeout) hb hn

/-- The timeout that a command latches is TIMEOUT or 0. -/
theorem engine_timeout_le_one (n : Nat) (i : Instr) (s : State) (hw : w.toNat ≤ 1) :
    engine n (started i (s.writeReg w .timeout)) ((s.writeReg w .timeout).start i) =
      engine n (started i (s.writeReg 0 .timeout)) ((s.writeReg 0 .timeout).start i) := by
  have latched {v : Word} (hv : v.toNat ≤ 1) : (latch i (s.writeReg v .timeout)).t.toNat ≤ 1 := by
    cases i <;> simp [latch, State.writeReg, hv]
  rw [engine_started, engine_started, readerRun_timeout_le_one (latched hw), readerRun_timeout_le_one (latched (by decide))]
  rfl

theorem skpBody_timeout_le_one (h : NoHostTurn s.env) (hw : w.toNat ≤ 1) :
    bodyAt skpBody .skp w s = (bodyAt skpBody .skp 0 s).writeReg w .timeout := by
  have he := engine_timeout_le_one s.arg1.toNat .skp s hw
  rw [bodyAt, bodyAt, skpBody_ended (engine_started_not_paused (s := s.writeReg w .timeout) _ _ h),
    skpBody_ended (engine_started_not_paused (s := s.writeReg 0 .timeout) _ _ h)]
  exact congrArg (fun u : Run => ((s.writeReg w .timeout).consume u).ended u.status.err 0) he

/-- A read into `MEM`, when what follows it depends neither on TIMEOUT nor on the hidden state. -/
theorem readInto_timeout_le_one {i : Instr} {addr n : Nat} {done : State → State} (h : NoHostTurn s.env) (hw : w.toNat ≤ 1)
    (hdone : ∀ (u : State) (q : Option Running),
      done ({ u with running := q }.writeReg w .timeout) = (done u).writeReg w .timeout) :
    bodyAt (readInto addr n done) i w s = (bodyAt (readInto addr n done) i 0 s).writeReg w .timeout := by
  unfold bodyAt
  have he := engine_timeout_le_one n i s hw
  rcases readInto_cases addr n done (started i (s.writeReg 0 .timeout)) ((s.writeReg 0 .timeout).start i) with
    ⟨hs, h0⟩ | ⟨hs, h0⟩ | ⟨hs, -⟩
  · rw [readInto_ok (he ▸ hs), h0, ← hdone _ (some (started i (s.writeReg w .timeout))), afterRun, he]
    rfl
  · rw [readInto_fail (he ▸ hs), h0, afterRun, he]
    rfl
  · exact absurd hs (engine_started_not_paused (s := s.writeReg 0 .timeout) n i h)

theorem rdxBody_timeout_le_one (h : NoHostTurn s.env) (hw : w.toNat ≤ 1) :
    bodyAt rdxBody .rdx w s = (bodyAt rdxBody .rdx 0 s).writeReg w .timeout := by
  unfold bodyAt
  by_cases hf : Fits s.cfg s.arg0.toNat s.arg1.toNat
  · rw [rdxBody_inside (s := s.writeReg w .timeout) hf, rdxBody_inside (s := s.writeReg 0 .timeout) hf]
    exact readInto_timeout_le_one h hw fun _ _ => rfl
  · rw [rdxBody_outside (s := s.writeReg w .timeout) hf, rdxBody_outside (s := s.writeReg 0 .timeout) hf]
    rfl

/-- So the end of CVR meets the condition of `readInto_timeout_le_one`. -/
theorem convertPixels_complete_timeout (scratch p0 base n x : Nat) (v : Word) (u : State) (q : Option Running) :
    (convertPixels scratch p0 base x n ({ u with running := q }.writeReg w .timeout)).complete v =
      ((convertPixels scratch p0 base x n u).complete v).writeReg w .timeout := by
  have hmem : (convertPixels scratch p0 base x n ({ u with running := q }.writeReg w .timeout)).mem =
      (convertPixels scratch p0 base x n u).mem := convertPixels_mem_congr _ _ _ _ _ rfl rfl rfl
  rw [convertPixels_frame, hmem, convertPixels_frame _ _ _ _ _ u]
  rfl

theorem cvrBody_timeout_le_one (h : NoHostTurn s.env) (hw : w.toNat ≤ 1) :
    bodyAt cvrBody .cvr w s = (bodyAt cvrBody .cvr 0 s).writeReg w .timeout := by
  unfold bodyAt
  by_cases hf : RowFits s.cfg s.arg0.toNat s.arg1.toNat s.arg2.toNat
  · by_cases hd : RowDisjoint s.cfg s.arg0.toNat s.arg1.toNat s.arg2.toNat
    · rw [cvrBody_row (s := s.writeReg w .timeout) hf hd, cvrBody_row (s := s.writeReg 0 .timeout) hf hd]
      exact readInto_timeout_le_one h hw (convertPixels_complete_timeout _ _ _ _ _ _)
    · rw [cvrBody_overlap (s := s.writeReg w .timeout) hf hd, cvrBody_overlap (s := s.writeReg 0 .timeout) hf hd]
      rfl
  · rw [cvrBody_outside (s := s.writeReg w .timeout) hf, cvrBody_outside (s := s.writeReg 0 .timeout) hf]
    rfl

/-- Every command with a TIMEOUT of at most 1 leaves what it leaves with TIMEOUT 0, but for TIMEOUT itself. -/
theorem bodyOf_timeout_le_one (i : Instr) (h : NoHostTurn s.env) (hw : w.toNat ≤ 1) :
    bodyAt (bodyOf i) i w s = (bodyAt (bodyOf i) i 0 s).writeReg w .timeout := by
  cases i with
  | rdx => exact rdxBody_timeout_le_one h hw
  | skp => exact skpBody_timeout_le_one h hw
  | map => exact mapBody_timeout (started .map s) ((s.writeReg 0 .timeout).start .map) w
  | pck => exact pckBody_timeout (started .pck s) ((s.writeReg 0 .timeout).start .pck) w
  | hdr => exact hdrBody_timeout (started .hdr s) ((s.writeReg 0 .timeout).start .hdr) w
  | cvr => exact cvrBody_timeout_le_one h hw

end

/-- Settles O23: a successful run took its `n` bytes and no tick, and both runs are the one of TIMEOUT 0 but for TIMEOUT. -/
theorem timeoutZeroActsAsOne : Obligations.TimeoutZeroActsAsOne := by
  refine ⟨fun n t es ht _ hs => ?_, fun i s hb h => ?_⟩
  · have hspec := readerRun_spec n t es 0 0 (Nat.zero_le n)
    have hn := hspec.ok_got hs
    rw [hspec.got_eq, Nat.zero_add] at hn
    exact ⟨_, _, hn, events_eq_of_readerRun_ok ht hs⟩
  · have hexec (w : Word) (hw : w.toNat ≤ 1) :
        exec i { s with timeout := w } = .next { bodyAt (bodyOf i) i 0 s with timeout := w } := by
      rw [exec_eq_bodyAt i w hb h.noTurn, bodyOf_timeout_le_one i h hw]
      rfl
    exact ⟨_, hexec 0 (by decide), hexec 1 (by decide)⟩

end Sys2Proof.Machine
end

