-- ==== Sys2Proof/Proofs/Quantizer.lean ====
section
/-! The Color Quantizer and MAP (R76 to R84). The primaries are 255 apart in some channel and the tolerance is 6, so by the triangle
inequality tier 1 is exact; tier 2 is the library's `List.argmin` by squared distance, the first of the nearest table entries. -/

namespace Sys2Proof.Machine

/-! ### Tier 1 -/

theorem Color.mem_tier1Order (c : Color) : c ∈ Color.tier1Order := by cases c <;> decide

@[simp] theorem absDiff_self (a : Byte) : absDiff a a = 0 := by simp [absDiff]

theorem absDiff_triangle (a b x : Byte) : absDiff a b ≤ absDiff x a + absDiff x b := by
  unfold absDiff
  omega

theorem withinTol_self (p : RGB) : WithinTol p p := by simp [WithinTol]

/-- Two triples that are nowhere further apart than two tolerances. -/
abbrev WithinTwoTol (p q : RGB) : Prop :=
  absDiff p.r q.r ≤ Config.tol + Config.tol ∧ absDiff p.g q.g ≤ Config.tol + Config.tol ∧
    absDiff p.b q.b ≤ Config.tol + Config.tol

theorem WithinTol.withinTwoTol {x p q : RGB} (hp : WithinTol x p) (hq : WithinTol x q) : WithinTwoTol p q := by
  obtain ⟨hpr, hpg, hpb⟩ := hp
  obtain ⟨hqr, hqg, hqb⟩ := hq
  exact ⟨(absDiff_triangle _ _ x.r).trans (Nat.add_le_add hpr hqr), (absDiff_triangle _ _ x.g).trans (Nat.add_le_add hpg hqg),
    (absDiff_triangle _ _ x.b).trans (Nat.add_le_add hpb hqb)⟩

/-- Two distinct primaries are further apart than that in some channel (R7). -/
theorem eq_of_prim_withinTwoTol {c d : Color} (h : WithinTwoTol (Config.prim c) (Config.prim d)) : c = d := by
  have table : ∀ c ∈ Color.tier1Order, ∀ d ∈ Color.tier1Order,
      WithinTwoTol (Config.prim c) (Config.prim d) → c = d := by decide
  exact table c (Color.mem_tier1Order c) d (Color.mem_tier1Order d) h

/-- The six tolerance regions are pairwise disjoint (R78). -/
theorem withinTol_prim_unique {x : RGB} {c d : Color} (hc : WithinTol x (Config.prim c)) (hd : WithinTol x (Config.prim d)) :
    c = d :=
  eq_of_prim_withinTwoTol (WithinTol.withinTwoTol hc hd)

theorem withinTol_of_tier1 {x : RGB} {c : Color} (h : tier1 x = some c) : WithinTol x (Config.prim c) :=
  of_decide_eq_true (List.find?_some (p := fun c => WithinTol x (Config.prim c)) h)

theorem tier1_eq_some_iff {x : RGB} {c : Color} : tier1 x = some c ↔ WithinTol x (Config.prim c) := by
  refine ⟨withinTol_of_tier1, fun h => ?_⟩
  have hsome : (tier1 x).isSome := List.find?_isSome.2 ⟨c, Color.mem_tier1Order c, decide_eq_true h⟩
  obtain ⟨d, hd⟩ := Option.isSome_iff_exists.1 hsome
  rw [hd, withinTol_prim_unique (withinTol_of_tier1 hd) h]

theorem tier1_eq_none_iff {x : RGB} : tier1 x = none ↔ ∀ c, ¬ WithinTol x (Config.prim c) := by
  simp only [Option.eq_none_iff_forall_ne_some, ne_eq, tier1_eq_some_iff]

/-- Settles O14: the regions are disjoint, so the first hit in tier-1 order is the only one. -/
theorem toleranceRegionsAreDisjoint : Obligations.ToleranceRegionsAreDisjoint :=
  ⟨fun _ _ _ => withinTol_prim_unique, fun _ _ => tier1_eq_some_iff.symm⟩

/-! ### Tier 2 -/

/-- What tier 2 holds when `o` is the nearest entry so far. -/
def Best.ofEntry (x : RGB) : Option PalEntry → Best
  | none => ⟨.white, none⟩
  | some e => ⟨e.color, some (dist2 x e.rgb)⟩

/-- The table entry that tier 2 answers, the first at the least distance. -/
def nearest (c : Config) (x : RGB) : Option PalEntry := c.pal12.argmin fun e => dist2 x e.rgb

/-- One comparison of tier 2 is one step of `List.argmin`. -/
theorem tier2Step_ofEntry (x : RGB) (o : Option PalEntry) (e : PalEntry) :
    tier2Step x (Best.ofEntry x o) e = Best.ofEntry x (List.argAux (fun f g => dist2 x f.rgb < dist2 x g.rgb) o e) := by
  cases o with
  | none => rfl
  | some f => exact (apply_ite (Best.ofEntry x) (dist2 x e.rgb < dist2 x f.rgb) (some e) (some f)).symm

theorem tier2_eq_nearest (c : Config) (x : RGB) : tier2 c x = (Best.ofEntry x (nearest c x)).color :=
  congrArg Best.color (List.foldl_hom (Best.ofEntry x) (init := none) (tier2Step_ofEntry x))

/-- The place of an entry's first occurrence is at or before any other of its places. -/
theorem idxOf_le_of_getElem? {l : List PalEntry} {j : Nat} {e : PalEntry} (h : l[j]? = some e) : l.idxOf e ≤ j := by
  obtain ⟨hj, rfl⟩ := List.getElem?_eq_some_iff.1 h
  by_contra hlt
  exact absurd (List.not_of_lt_findIdx (Nat.not_le.1 hlt)) (by simp)

/-- The nearest entry stands in the table, no entry is nearer, and every entry before it is further (R79). -/
theorem nearest_spec {c : Config} {x : RGB} {e : PalEntry} (h : nearest c x = some e) :
    c.pal12[c.pal12.idxOf e]? = some e ∧
      ∀ (j : Nat) (f : PalEntry), c.pal12[j]? = some f →
        dist2 x e.rgb ≤ dist2 x f.rgb ∧ (j < c.pal12.idxOf e → dist2 x e.rgb < dist2 x f.rgb) := by
  obtain ⟨hmem, hle, hfirst⟩ := List.mem_argmin_iff.1 h
  refine ⟨List.getElem?_idxOf hmem, fun j f hf => ?_⟩
  have hmemf : f ∈ c.pal12 := List.mem_of_getElem? hf
  refine ⟨hle f hmemf, fun hj => ?_⟩
  by_contra hnot
  have hidx := hfirst f hmemf (Nat.not_lt.1 hnot)
  exact hj.not_ge (hidx.trans (idxOf_le_of_getElem? hf))

/-- A well-formed table is not empty (R8), so tier 2 answers an entry of it. -/
theorem exists_nearest {c : Config} (hc : c.WF) (x : RGB) : ∃ e, nearest c x = some e := by
  obtain ⟨-, -, ⟨hlen, -⟩, -⟩ := hc
  refine Option.ne_none_iff_exists'.1 fun hnone => ?_
  rw [List.argmin_eq_none.1 hnone] at hlen
  cases hlen

/-! ### The quantizer and MAP -/

theorem quantize_of_withinTol (c : Config) {x : RGB} {col : Color} (h : WithinTol x (Config.prim col)) : quantize c x = col := by
  rw [quantize, tier1_eq_some_iff.2 h]

theorem quantize_of_far (c : Config) {x : RGB} (h : ∀ col, ¬ WithinTol x (Config.prim col)) : quantize c x = tier2 c x := by
  rw [quantize, tier1_eq_none_iff.2 h]

/-- Settles O13: tier 1 gives (a) and (b), the nearest table entry gives (c). -/
theorem quantizerProperties : Obligations.QuantizerProperties := by
  intro c x hc
  refine ⟨fun col hx => ?exact, fun col => quantize_of_withinTol c, fun hfar => ?nearest, Color.mem_tier1Order _⟩
  case exact =>
    subst hx
    exact quantize_of_withinTol c (withinTol_self _)
  case nearest =>
    obtain ⟨e, he⟩ := exists_nearest hc x
    obtain ⟨hget, hmin⟩ := nearest_spec he
    refine ⟨_, e, hget, ?_, hmin⟩
    rw [quantize_of_far c hfar, tier2_eq_nearest, he, Best.ofEntry]

theorem mapBody_sample {r : Running} (h : rgbReserved r.ops.a0 = 0) (s : State) :
    mapBody r s = s.complete ((s.cfg.code (quantize s.cfg (rgbOf r.ops.a0))).setWidth 32) := if_pos h

theorem mapBody_reserved {r : Running} (h : rgbReserved r.ops.a0 ≠ 0) (s : State) : mapBody r s = s.raise .operand := if_neg h

/-- Settles O6: MAP's two ends, by the reserved bits of ARG0. -/
theorem mapQuantizesOneSample : Obligations.MapQuantizesOneSample := by
  refine ⟨decode_encode .map, fun s hb hn => ?_⟩
  rw [exec_noTurn hb hn, bodyOf]
  refine ⟨fun h => ?sample, fun h => ?reserved⟩
  case sample =>
    rw [mapBody_sample (r := started .map s) h]
    rfl
  case reserved =>
    rw [mapBody_reserved (r := started .map s) h]
    rfl

end Sys2Proof.Machine
end

