-- ==== Sys2Proof/Proofs/Packer.lean ====
section
/-! The Pixel Packer and PCK (R85, R86, R89, R90). A byte is two nibbles set side by side; `Pack` replaces one of them and keeps the
other, so two PCK commands on the two nibbles of a byte store the same byte in either order. -/

namespace Sys2Proof.Machine

/-! ### Nibbles as numbers -/

theorem append_toNat (a b : Nibble) : (a ++ b : Byte).toNat = 16 * a.toNat + b.toNat := by
  rw [BitVec.toNat_append, ← Nat.shiftLeft_add_eq_or_of_lt b.isLt, Nat.shiftLeft_eq]
  omega

theorem high_toNat (v : Byte) : (v.extractLsb' 4 4).toNat = v.toNat / 16 := by
  have h := v.isLt
  rw [BitVec.extractLsb'_toNat, Nat.shiftRight_eq_div_pow]
  omega

theorem low_toNat (v : Byte) : (v.extractLsb' 0 4).toNat = v.toNat % 16 := by
  rw [BitVec.extractLsb'_toNat, Nat.shiftRight_zero]

/-! ### `Pack` -/

theorem pack_two_mul (old : Byte) (a : Nibble) (k : Nat) : pack old a (2 * k) = a ++ old.extractLsb' 0 4 :=
  pack_even (by omega) old a

theorem pack_two_mul_add_one (old : Byte) (a : Nibble) (k : Nat) : pack old a (2 * k + 1) = old.extractLsb' 4 4 ++ a :=
  pack_odd (by omega) old a

theorem packedAddr_two_mul (base k : Nat) : packedAddr base (2 * k) = base + k := by
  unfold packedAddr
  omega

theorem packedAddr_two_mul_add_one (base k : Nat) : packedAddr base (2 * k + 1) = base + k := by
  unfold packedAddr
  omega

theorem pack_even_then_odd (old : Byte) (a b : Nibble) (k : Nat) : pack (pack old a (2 * k)) b (2 * k + 1) = a ++ b := by
  rw [pack_two_mul_add_one, pack_two_mul, high_append]

theorem pack_odd_then_even (old : Byte) (a b : Nibble) (k : Nat) : pack (pack old b (2 * k + 1)) a (2 * k) = a ++ b := by
  rw [pack_two_mul, pack_two_mul_add_one, low_append]

/-- A second code at the same position replaces the first (R86). -/
theorem pack_pack_same (old : Byte) (a b : Nibble) (p : Nat) : pack (pack old a p) b p = pack old b p := by
  rcases Nat.mod_two_eq_zero_or_one p with h | h
  · simp only [pack_even h, low_append]
  · simp only [pack_odd h, high_append]

/-- Settles O16: the two bit forms, read as numbers. -/
theorem packFunction : Obligations.PackFunction := by
  intro old idx p
  refine ⟨fun h => ⟨?even, pack_even h old idx⟩, fun h => ⟨?odd, pack_odd h old idx⟩⟩
  case even => rw [pack_even h, append_toNat, low_toNat]
  case odd => rw [pack_odd h, append_toNat, high_toNat, Nat.mul_comm]

/-- Settles O17: each lane is a half of `pack_two_mul` or `pack_two_mul_add_one`. -/
theorem packIdentities : Obligations.PackIdentities := by
  refine ⟨fun _ _ => rfl, fun old a k => ⟨?code, ?kept, ?lanes⟩, fun old a b p k => ?identities⟩
  case code =>
    have ha := a.isLt
    omega
  case kept => omega
  case lanes =>
    rw [pack_two_mul, pack_two_mul_add_one]
    exact ⟨high_append _ _, low_append _ _, low_append _ _, high_append _ _⟩
  case identities =>
    exact ⟨pack_even_then_odd old a b k, pack_odd_then_even old a b k, append_toNat a b, pack_pack_same old a b p⟩

/-! ### PCK -/

section
variable {s : State}

theorem exec_pck_reserved (hb : s.busy = false) (hn : s.NoTurn) (hr : idxReserved s.arg0 ≠ 0) :
    exec .pck s = .next (s.ended .operand 0) := by
  have hbody : pckBody (started .pck s) (s.start .pck) = (s.start .pck).raise .operand := if_neg hr
  rw [exec_noTurn hb hn, bodyOf, hbody]
  rfl

theorem exec_pck_outside (hb : s.busy = false) (hn : s.NoTurn) (hr : idxReserved s.arg0 = 0)
    (hf : ¬ packedAddr s.arg2.toNat s.arg1.toNat < s.cfg.memBytes) : exec .pck s = .next (s.ended .addr 0) := by
  have hbody : pckBody (started .pck s) (s.start .pck) = (s.start .pck).raise .addr := (if_pos hr).trans (if_neg hf)
  rw [exec_noTurn hb hn, bodyOf, hbody]
  rfl

theorem exec_pck_pixel (hb : s.busy = false) (hn : s.NoTurn) (hr : idxReserved s.arg0 = 0)
    (hf : packedAddr s.arg2.toNat s.arg1.toNat < s.cfg.memBytes) :
    exec .pck s = .next ((s.packPixel s.arg2.toNat s.arg1.toNat (idxOf s.arg0)).ended .none 0) := by
  have hbody : pckBody (started .pck s) (s.start .pck) =
      ((s.start .pck).packPixel s.arg2.toNat s.arg1.toNat (idxOf s.arg0)).complete 0 := (if_pos hr).trans (if_pos hf)
  rw [exec_noTurn hb hn, bodyOf, hbody]
  rfl

end

/-- Settles O7: PCK's three ends; what the stored byte becomes is `State.byte_packPixel`, for each parity of the position. -/
theorem pckWritesOneNibble : Obligations.PckWritesOneNibble := by
  refine ⟨decode_encode .pck, fun s hb hn => ⟨exec_pck_reserved hb hn, fun hr hf => exec_pck_outside hb hn hr hf.not_gt,
    fun hr hf => ⟨_, exec_pck_pixel hb hn hr hf, rfl, fun hp => ?even, fun hp => ?odd, fun a ha => ?other⟩⟩⟩
  case even => rw [State.byte_ended, State.byte_packPixel, if_pos rfl, pack_even hp, idxOf]
  case odd => rw [State.byte_ended, State.byte_packPixel, if_pos rfl, pack_odd hp, idxOf]
  case other => rw [State.byte_ended, State.byte_packPixel, if_neg ha]

/-! ### Two PCK commands -/

/-- The state after PCK of the code `i` at position `p`: its two operands written, the pixel packed, and success (R89). -/
def State.afterPck (s : State) (p : Nat) (i : Nibble) : State :=
  ({ s with arg0 := i.setWidth 32, arg1 := BitVec.ofNat 32 p }.packPixel s.arg2.toNat p i).ended .none 0

theorem idxReserved_code (i : Nibble) : idxReserved (i.setWidth 32) = 0 := by revert i; decide

theorem idxOf_code (i : Nibble) : idxOf (i.setWidth 32) = i := by revert i; decide

theorem exec_pck_code {s : State} {p : Nat} (i : Nibble) (hb : s.busy = false) (hn : s.NoTurn) (hp : p < 2 ^ 32)
    (hf : packedAddr s.arg2.toNat p < s.cfg.memBytes) :
    exec .pck { s with arg0 := i.setWidth 32, arg1 := BitVec.ofNat 32 p } = .next (s.afterPck p i) := by
  have hpos : (BitVec.ofNat 32 p).toNat = p := by
    rw [BitVec.toNat_ofNat, Nat.mod_eq_of_lt hp]
  rw [exec_pck_pixel (s := { s with arg0 := i.setWidth 32, arg1 := BitVec.ofNat 32 p }) hb hn (idxReserved_code i)
    (by rwa [hpos])]
  simp only [hpos, idxOf_code, State.afterPck]

/-- The host may give a second PCK as soon as the first has ended (R116): both succeed. -/
theorem andThen_exec_pck_code {s : State} {p q : Nat} (i j : Nibble) (hb : s.busy = false) (hn : s.NoTurn) (hp : p < 2 ^ 32)
    (hq : q < 2 ^ 32) (hfp : packedAddr s.arg2.toNat p < s.cfg.memBytes) (hfq : packedAddr s.arg2.toNat q < s.cfg.memBytes) :
    andThen (exec .pck { s with arg0 := i.setWidth 32, arg1 := BitVec.ofNat 32 p })
      (fun u => exec .pck { u with arg0 := j.setWidth 32, arg1 := BitVec.ofNat 32 q }) =
        .next ((s.afterPck p i).afterPck q j) := by
  rw [exec_pck_code i hb hn hp hfp, andThen_next]
  exact exec_pck_code (s := s.afterPck p i) j rfl hn hq hfq

theorem State.afterPck_byte (s : State) (p : Nat) (i : Nibble) :
    (s.afterPck p i).byte (packedAddr s.arg2.toNat p) = pack (s.byte (packedAddr s.arg2.toNat p)) i p :=
  (State.byte_packPixel _ _ _ _ _).trans (if_pos rfl)

/-- Two codes packed into one byte are one write to it (R40). -/
theorem State.afterPck_afterPck_mem (s : State) {p q x : Nat} (i j : Nibble) (hp : packedAddr s.arg2.toNat p = x)
    (hq : packedAddr s.arg2.toNat q = x) :
    ((s.afterPck p i).afterPck q j).mem = (s.setByte x (pack (pack (s.byte x) i p) j q)).mem := by
  have hbyte := s.afterPck_byte p i
  have hmem : ((s.afterPck p i).afterPck q j).mem =
      (s.mem.write (packedAddr s.arg2.toNat p) (pack (s.byte (packedAddr s.arg2.toNat p)) i p)).write
        (packedAddr s.arg2.toNat q) (pack ((s.afterPck p i).byte (packedAddr s.arg2.toNat q)) j q) := rfl
  rw [hp] at hbyte
  rw [hmem, hp, hq, hbyte, Memory.write_write_same, State.setByte_mem]

/-- Settles O18: in either order the two commands are one write of `a ++ b` to their byte, by the identities of `Pack`. -/
theorem pckEitherOrder : Obligations.PckEitherOrder := by
  intro s a b k hb hn hk hf even odd
  have heven := packedAddr_two_mul s.arg2.toNat k
  have hodd := packedAddr_two_mul_add_one s.arg2.toNat k
  have ht := s.afterPck_afterPck_mem a b heven hodd
  have hu := s.afterPck_afterPck_mem b a hodd heven
  rw [pack_even_then_odd] at ht
  rw [pack_odd_then_even] at hu
  have hbyte (x : Nat) := (State.byte_congr ht rfl x).trans (s.byte_setByte (s.arg2.toNat + k) x (a ++ b))
  refine ⟨_, _, andThen_exec_pck_code a b hb hn (by omega) hk (heven ▸ hf) (hodd ▸ hf),
    andThen_exec_pck_code b a hb hn hk (by omega) (hodd ▸ hf) (heven ▸ hf), ht.trans hu.symm, rfl, rfl, ?_, fun x hx => ?_⟩
  · rw [hbyte, if_pos rfl]
  · rw [hbyte, if_neg hx]

end Sys2Proof.Machine
end

