-- ==== Sys2Proof/Proofs/Header.lean ====
section
/-! The header validator and HDR (R91, R93, R95): past the checks of length and address, HDR's result is `headerError` and the
offset field, which are functions of the examined header bytes alone. -/

namespace Sys2Proof.Machine

/-! ### `ParseHeader` in bytes -/

/-- The byte at offset `o` of the header at address `a` (R57). -/
def State.headerByte (s : State) (a o : Nat) : Byte := s.byte (a + o)

/-- What HDR answers in RES for the header bytes `h`: the pixel-data offset on success (R95), 0 with an error (R114). -/
def headerRes (c : Config) (h : Nat → Byte) : Word :=
  match headerError c h with
  | .none => BitVec.ofNat 32 (le32 (h 10) (h 11) (h 12) (h 13))
  | _ => 0

section
variable (s : State) (a : Nat)

theorem hdrOffsetField_eq_bytes : hdrOffsetField s a =
    BitVec.ofNat 32 (le32 (s.headerByte a 10) (s.headerByte a 11) (s.headerByte a 12) (s.headerByte a 13)) :=
  congrArg (BitVec.ofNat 32) (s.memRead_four (a + 10))

theorem hdrBppField_eq_bytes : hdrBppField s a = le16 (s.headerByte a 28) (s.headerByte a 29) := s.memRead_two (a + 28)

theorem not_hdrSignature_iff_bytes : ¬ HdrSignature s a ↔ s.headerByte a 0 ≠ 0x42 ∨ s.headerByte a 1 ≠ 0x4D := not_and_or

theorem not_hdrDimensions_iff_bytes : ¬ HdrDimensions s a ↔
    (BitVec.ofNat 32 (le32 (s.headerByte a 18) (s.headerByte a 19) (s.headerByte a 20) (s.headerByte a 21))).toInt ≠ s.cfg.width ∨
      (BitVec.ofNat 32 (le32 (s.headerByte a 22) (s.headerByte a 23) (s.headerByte a 24) (s.headerByte a 25))).toInt.natAbs ≠
        s.cfg.height := by
  rw [HdrDimensions, not_and_or, hdrWidthField, hdrHeightField, State.memRead_four, State.memRead_four]
  rfl

/-- Past the length check `ParseHeader` accepts the headers without an error and rejects the others by the reason of their first
error (R91). -/
theorem parseHeader_cases {n : Nat} (hn : Config.hdrBytes ≤ n) :
    (headerError s.cfg (s.headerByte a) = .none ∧ parseHeader s a n = .accept (hdrOffsetField s a)) ∨
      ∃ why, headerError s.cfg (s.headerByte a) = HdrReject.err why ∧ parseHeader s a n = .reject why := by
  simp only [parseHeader, headerError, if_neg hn.not_gt, not_hdrSignature_iff_bytes, hdrBppField_eq_bytes,
    not_hdrDimensions_iff_bytes, Config.bpp]
  split_ifs
  · exact .inr ⟨.sig, rfl, rfl⟩
  · exact .inr ⟨.bpp, rfl, rfl⟩
  · exact .inr ⟨.dim, rfl, rfl⟩
  · exact .inl ⟨rfl, rfl⟩

end

/-! ### HDR -/

section
variable {s : State}

theorem exec_hdr_small (hb : s.busy = false) (hn : s.NoTurn) (hl : s.arg1.toNat < Config.hdrBytes) :
    exec .hdr s = .next (s.ended .hdrSmall 0) := by
  have hbody : hdrBody (started .hdr s) (s.start .hdr) = (s.start .hdr).raise .hdrSmall := if_pos hl
  rw [exec_noTurn hb hn, bodyOf, hbody]
  rfl

theorem exec_hdr_outside (hb : s.busy = false) (hn : s.NoTurn) (hl : Config.hdrBytes ≤ s.arg1.toNat)
    (hf : ¬ Fits s.cfg s.arg0.toNat Config.hdrBytes) : exec .hdr s = .next (s.ended .addr 0) := by
  have hbody : hdrBody (started .hdr s) (s.start .hdr) = (s.start .hdr).raise .addr := (if_neg hl.not_gt).trans (if_neg hf)
  rw [exec_noTurn hb hn, bodyOf, hbody]
  rfl

/-- A header that lies in `MEM` decides HDR by its bytes (R93, R95). -/
theorem exec_hdr_inside (hb : s.busy = false) (hn : s.NoTurn) (hl : Config.hdrBytes ≤ s.arg1.toNat)
    (hf : Fits s.cfg s.arg0.toNat Config.hdrBytes) : exec .hdr s = .next
      (s.ended (headerError s.cfg (s.headerByte s.arg0.toNat)) (headerRes s.cfg (s.headerByte s.arg0.toNat))) := by
  have hbody : hdrBody (started .hdr s) (s.start .hdr) = _ := (if_neg hl.not_gt).trans (if_pos hf)
  have hstart : parseHeader (s.start .hdr) (started .hdr s).ops.a0.toNat (started .hdr s).ops.a1.toNat =
      parseHeader s s.arg0.toNat s.arg1.toNat := rfl
  rw [exec_noTurn hb hn, bodyOf, hbody, hstart]
  rcases parseHeader_cases s s.arg0.toNat hl with ⟨he, hp⟩ | ⟨why, he, hp⟩
  · rw [hp, headerRes, he, hdrOffsetField_eq_bytes]
    rfl
  · rw [hp, headerRes, he]
    cases why <;> rfl

end

/-- Settles O8: the checks of length and address, and then the chain of `headerError`. -/
theorem hdrChecksInOrder : Obligations.HdrChecksInOrder := by
  refine ⟨decode_encode .hdr, fun s hb hn => ?_⟩
  intro h w ht
  rcases Nat.lt_or_ge s.arg1.toNat 54 with hl | hl
  · rw [if_pos hl, exec_hdr_small hb hn hl]
  rw [if_neg hl.not_gt]
  rcases Nat.lt_or_ge s.cfg.memBytes (s.arg0.toNat + 54) with hf | hf
  · rw [if_pos hf, exec_hdr_outside hb hn hl hf.not_ge]
  rw [if_neg hf.not_gt, exec_hdr_inside hb hn hl hf, Host.Outcome.next.injEq]
  have hbytes : s.headerByte s.arg0.toNat = h := rfl
  simp only [hbytes, headerRes, headerError]
  split_ifs <;> rfl

/-! ### The examined bytes -/

section
variable {h k : Nat → Byte} (hk : ∀ o ∈ examined, k o = h o)
include hk

theorem headerError_congr (c : Config) : headerError c k = headerError c h := by
  simp only [examined, List.forall_mem_cons] at hk
  simp only [headerError, hk]

theorem headerRes_congr (c : Config) : headerRes c k = headerRes c h := by
  have he := headerError_congr hk c
  simp only [examined, List.forall_mem_cons] at hk
  simp only [headerRes, he, hk]

end

/-- Settles O19: the checks of length and address read no byte, and the result of a header in `MEM` is one of its examined bytes. -/
theorem hdrReadsOnlyTheExaminedBytes : Obligations.HdrReadsOnlyTheExaminedBytes := by
  intro s m hb hn hm
  let s' : State := { s with mem := m }
  rcases Nat.lt_or_ge s.arg1.toNat Config.hdrBytes with hl | hl
  · exact ⟨_, _, exec_hdr_small hb hn hl, exec_hdr_small (s := s') hb hn hl, rfl, rfl⟩
  by_cases hf : Fits s.cfg s.arg0.toNat Config.hdrBytes
  · exact ⟨_, _, exec_hdr_inside hb hn hl hf, exec_hdr_inside (s := s') hb hn hl hf, (headerError_congr hm s.cfg).symm,
      (headerRes_congr hm s.cfg).symm⟩
  · exact ⟨_, _, exec_hdr_outside hb hn hl hf, exec_hdr_outside (s := s') hb hn hl hf, rfl, rfl⟩

end Sys2Proof.Machine
end

