-- ==== Sys2Proof/Proofs/RowConverter.lean ====
section
/-! The row converter, command CVR (R99, R100). A packed pixel holds its code and leaves every other pixel alone; while the scratch
and the packed bytes are disjoint, a conversion never overwrites the row it reads, so each pixel gets the code of its own triple. -/

namespace Sys2Proof.Machine

/-! ### Pixels of the packed buffer -/

section
variable {s t : State} {base p q : Nat}

theorem State.pixel_even (hp : p % 2 = 0) : s.pixel base p = (s.byte (packedAddr base p)).extractLsb' 4 4 := if_pos hp

theorem State.pixel_odd (hp : p % 2 = 1) : s.pixel base p = (s.byte (packedAddr base p)).extractLsb' 0 4 := if_neg (by omega)

theorem State.pixel_congr (h : t.byte (packedAddr base p) = s.byte (packedAddr base p)) : t.pixel base p = s.pixel base p := by
  rw [packedAddr] at h
  rw [State.pixel, State.pixel, h]

theorem State.pixel_packPixel_same (s : State) (base p : Nat) (i : Nibble) : (s.packPixel base p i).pixel base p = i := by
  rcases Nat.mod_two_eq_zero_or_one p with hp | hp
  · rw [State.pixel_even hp, State.byte_packPixel, if_pos rfl, pack_even hp, high_append]
  · rw [State.pixel_odd hp, State.byte_packPixel, if_pos rfl, pack_odd hp, low_append]

/-- Another pixel is in another byte, or in the other nibble of the same byte (R86). -/
theorem State.pixel_packPixel_other (s : State) (base : Nat) (i : Nibble) (h : q ≠ p) :
    (s.packPixel base p i).pixel base q = s.pixel base q := by
  by_cases ha : packedAddr base q = packedAddr base p
  · have hdiv : q / 2 = p / 2 := Nat.add_left_cancel ha
    rcases Nat.mod_two_eq_zero_or_one p with hp | hp
    · have hq : q % 2 = 1 := by omega
      rw [State.pixel_odd hq, State.pixel_odd hq, ha, State.byte_packPixel, if_pos rfl, pack_even hp, low_append]
    · have hq : q % 2 = 0 := by omega
      rw [State.pixel_even hq, State.pixel_even hq, ha, State.byte_packPixel, if_pos rfl, pack_odd hp, high_append]
  · exact State.pixel_congr (by rw [State.byte_packPixel, if_neg ha])

end

/-! ### The addresses of a row -/

section
variable {c : Config} {scratch p0 base x a : Nat}

theorem packedAddr_mem_row (base p0 : Nat) (hx : x < c.width) :
    packedAddr base p0 ≤ packedAddr base (p0 + x) ∧ packedAddr base (p0 + x) ≤ packedLast c base p0 := by
  unfold packedAddr packedLast
  omega

theorem RowDisjoint.ne_packedAddr (hd : RowDisjoint c scratch p0 base) (ha : InRange scratch (rowBytes c) a) (hx : x < c.width) :
    a ≠ packedAddr base (p0 + x) := by
  have hx := packedAddr_mem_row base p0 hx
  unfold RowDisjoint at hd
  unfold InRange at ha
  omega

end

/-! ### The conversion of a row -/

section
variable {c : Config} {scratch p0 base : Nat}

@[simp] theorem convertPixels_cfg (scratch p0 base x n : Nat) (s : State) :
    (convertPixels scratch p0 base x n s).cfg = s.cfg := by
  rw [convertPixels_frame]

/-- A conversion in two parts. -/
theorem convertPixels_add (scratch p0 base m n x : Nat) (s : State) :
    convertPixels scratch p0 base x (m + n) s =
      convertPixels scratch p0 base (x + m) n (convertPixels scratch p0 base x m s) := by
  induction m generalizing x s with
  | zero => rw [Nat.zero_add]; rfl
  | succ m ih => rw [Nat.add_right_comm, convertPixels, ih, convertPixels, Nat.add_right_comm x, Nat.add_assoc]

/-- A conversion leaves every pixel alone that is none of its own (R99). -/
theorem convertPixels_pixel_other {p : Nat} (n x : Nat) (s : State) (hp : p < p0 + x ∨ p0 + x + n ≤ p) :
    (convertPixels scratch p0 base x n s).pixel base p = s.pixel base p := by
  induction n generalizing x s with
  | zero => rfl
  | succ n ih => rw [convertPixels, ih _ _ (by omega), convertPixel, State.pixel_packPixel_other _ _ _ (by omega)]

/-- The first pixels of a row leave its scratch as it is. -/
theorem convertPixels_scratch {n a : Nat} (hd : RowDisjoint c scratch p0 base) (hn : n ≤ c.width)
    (ha : InRange scratch (rowBytes c) a) (s : State) : (convertPixels scratch p0 base 0 n s).byte a = s.byte a :=
  convertPixels_byte scratch p0 base a n 0 s fun _ _ hy => hd.ne_packedAddr ha (by omega)

/-- So every pixel is converted from the triple that was received. -/
theorem convertPixels_bgr {n x : Nat} (hd : RowDisjoint c scratch p0 base) (hn : n ≤ c.width) (hx : x < c.width) (s : State) :
    (convertPixels scratch p0 base 0 n s).bgr (scratch + 3 * x) = s.bgr (scratch + 3 * x) := by
  have hbyte (k : Nat) (hk : k < 3) :
      (convertPixels scratch p0 base 0 n s).byte (scratch + 3 * x + k) = s.byte (scratch + 3 * x + k) :=
    convertPixels_scratch hd hn (by unfold InRange rowBytes; omega) s
  rw [State.bgr, hbyte 2 (by decide), hbyte 1 (by decide)]
  exact congrArg _ (hbyte 0 (by decide))

/-- Each pixel of a row gets the code of its quantized triple (R99): the pixels before it leave the triple alone, those after it
leave the pixel alone. -/
theorem convertPixels_pixel {x : Nat} (hd : RowDisjoint c scratch p0 base) (hx : x < c.width) (s : State) :
    (convertPixels scratch p0 base 0 c.width s).pixel base (p0 + x) =
      s.cfg.code (quantize s.cfg (s.bgr (scratch + 3 * x))) := by
  obtain ⟨k, hk⟩ := Nat.exists_eq_add_of_lt hx
  rw [hk, Nat.add_assoc, convertPixels_add, Nat.zero_add, convertPixels, convertPixels_pixel_other _ _ _ (by omega), convertPixel,
    State.pixel_packPixel_same, convertPixels_cfg, convertPixels_bgr hd hx.le hx]

theorem State.bgr_setBytes_getElem {vs : List Byte} {x : Nat} {r g b : Byte} (hb : vs[3 * x]? = some b)
    (hg : vs[3 * x + 1]? = some g) (hr : vs[3 * x + 2]? = some r) (s : State) (a : Nat) :
    (s.setBytes a vs).bgr (a + 3 * x) = ⟨r, g, b⟩ := by
  rw [State.bgr, Nat.add_assoc, Nat.add_assoc, State.byte_setBytes_getElem hb, State.byte_setBytes_getElem hg,
    State.byte_setBytes_getElem hr]

end

/-! ### CVR -/

section
variable {s : State} {u : Run}

theorem exec_cvr_outside (hb : s.busy = false) (hn : s.NoTurn)
    (hf : ¬ RowFits s.cfg s.arg0.toNat s.arg1.toNat s.arg2.toNat) : exec .cvr s = .next (s.ended .addr 0) := by
  rw [exec_noTurn hb hn, bodyOf, cvrBody_outside hf]
  rfl

theorem exec_cvr_overlap (hb : s.busy = false) (hn : s.NoTurn) (hf : RowFits s.cfg s.arg0.toNat s.arg1.toNat s.arg2.toNat)
    (hd : ¬ RowDisjoint s.cfg s.arg0.toNat s.arg1.toNat s.arg2.toNat) : exec .cvr s = .next (s.ended .operand 0) := by
  rw [exec_noTurn hb hn, bodyOf, cvrBody_overlap hf hd]
  rfl

/-- The conversion does not look at the status fields that CVR's end writes. -/
theorem convertPixels_started_complete (scratch p0 base n x a : Nat) (s : State) (u : Run) :
    (convertPixels scratch p0 base x n (((s.start .cvr).consume u).setBytes a u.bytes)).complete 0 =
      (convertPixels scratch p0 base x n ((s.consume u).setBytes a u.bytes)).ended .none 0 := by
  have hmem : (convertPixels scratch p0 base x n (((s.start .cvr).consume u).setBytes a u.bytes)).mem =
      (convertPixels scratch p0 base x n ((s.consume u).setBytes a u.bytes)).mem := convertPixels_mem_congr _ _ _ _ _ rfl rfl rfl
  rw [convertPixels_frame, hmem, convertPixels_frame _ _ _ _ _ ((s.consume u).setBytes a u.bytes)]
  rfl

/-- CVR after a run that received the whole row. -/
theorem exec_cvr_ok (hb : s.busy = false) (hn : s.NoTurn) (hf : RowFits s.cfg s.arg0.toNat s.arg1.toNat s.arg2.toNat)
    (hd : RowDisjoint s.cfg s.arg0.toNat s.arg1.toNat s.arg2.toNat)
    (hu : readerRun (rowBytes s.cfg) s.timeout.toNat 0 0 s.env = u) (hs : u.status = .ok) :
    exec .cvr s = .next ((convertPixels s.arg0.toNat s.arg1.toNat s.arg2.toNat 0 s.cfg.width
      ((s.consume u).setBytes s.arg0.toNat u.bytes)).ended .none 0) := by
  have he : engine (rowBytes s.cfg) (started .cvr s) (s.start .cvr) = u := hu
  rw [exec_noTurn hb hn, bodyOf, cvrBody_row hf hd, readInto_ok (he ▸ hs), afterRun, he, started_got, Nat.add_zero,
    convertPixels_started_complete]

/-- CVR after a run that failed: no pixel is converted, and the scratch is lost. -/
theorem exec_cvr_fail (hb : s.busy = false) (hn : s.NoTurn) (hf : RowFits s.cfg s.arg0.toNat s.arg1.toNat s.arg2.toNat)
    (hd : RowDisjoint s.cfg s.arg0.toNat s.arg1.toNat s.arg2.toNat)
    (hu : readerRun (rowBytes s.cfg) s.timeout.toNat 0 0 s.env = u) (hs : u.status = .fail) :
    exec .cvr s =
      .next ((((s.consume u).setBytes s.arg0.toNat u.bytes).scramble s.arg0.toNat (rowBytes s.cfg)).ended .timeout 0) := by
  have he : engine (rowBytes s.cfg) (started .cvr s) (s.start .cvr) = u := hu
  rw [exec_noTurn hb hn, bodyOf, cvrBody_row hf hd, readInto_fail (he ▸ hs), afterRun, he]
  rfl

end

/-- Settles O11: the two address errors, a row that arrives and a row that does not, each with the state that CVR ends in. -/
theorem cvrConvertsOneRow : Obligations.CvrConvertsOneRow := by
  refine ⟨decode_encode .cvr, fun s hb hn _ => ?_⟩
  intro lo hi outside apart
  have fits (ho : ¬ outside) : RowFits s.cfg s.arg0.toNat s.arg1.toNat s.arg2.toNat :=
    ⟨not_lt.1 fun h => ho (.inl h), not_le.1 fun h => ho (.inr h)⟩
  refine ⟨fun ho => ?outside, fun ho hd => ?overlap, fun ho hd gs rest hin hlen henv => ?success,
    fun ho hd gs es rest hin hlen henv hst => ?timeout⟩
  case outside => exact exec_cvr_outside hb hn fun hf => ho.elim hf.1.not_gt hf.2.not_ge
  case overlap => exact exec_cvr_overlap hb hn (fits ho) hd
  case success =>
    have hrow : (delivered gs).length = rowBytes s.cfg := (delivered_length gs).trans hlen
    refine ⟨_, exec_cvr_ok hb hn (fits ho) hd (readerRun_delivery_ok hin hlen henv) rfl, ?state, fun i v hv => ?scratch,
      fun x b g r hx hb hg hr => ?pixel, fun p hp hs => ?otherPixel, fun a ha hpacked => ?otherByte⟩
    case state =>
      rw [convertPixels_frame, ← hlen, ← delivered_length]
      rfl
    case scratch =>
      have hi : i < (delivered gs).length := (List.getElem?_eq_some_iff.1 hv).1
      rw [State.byte_ended, convertPixels_scratch hd le_rfl ⟨by omega, by omega⟩, State.byte_setBytes_getElem hv]
    case pixel =>
      refine (convertPixels_pixel hd hx _).trans ?_
      rw [State.bgr_setBytes_getElem hb hg hr]
      rfl
    case otherPixel =>
      refine (convertPixels_pixel_other _ _ _ hp).trans (State.pixel_congr ?_)
      rw [State.byte_setBytes_outside hrow.le hs, State.byte_consume]
    case otherByte =>
      rw [State.byte_ended, convertPixels_byte, State.byte_setBytes_outside hrow.le ha, State.byte_consume]
      exact fun y _ hy h => hpacked (h ▸ packedAddr_mem_row _ _ (by omega))
  case timeout =>
    obtain ⟨k, hk⟩ := readerRun_delivery_fail hin hlen henv hst
    refine ⟨_, exec_cvr_fail hb hn (fits ho) hd hk rfl, ?state, fun a (ha : InRange s.arg0.toNat (rowBytes s.cfg) a) => ?lost,
      fun a (ha : ¬ InRange s.arg0.toNat (rowBytes s.cfg) a) => ?kept⟩
    case state =>
      rw [← delivered_length]
      rfl
    case lost =>
      rw [State.byte_ended, State.byte_scramble, if_pos ha]
      rfl
    case kept =>
      rw [State.byte_ended, State.byte_scramble, if_neg ha, State.byte_setBytes_outside (by simp [hlen.le, rowBytes]) ha,
        State.byte_consume]

end Sys2Proof.Machine
end

