-- ==== Sys2Proof/Proofs/Exceptions.lean ====
section
/-! How a command ends (R114, R116, R118): the four outcomes of a started command, said once for all six, and what follows from them
for errors and results; and that an idle block keeps its result until the next command or reset (R116, R129). -/

namespace Sys2Proof.Machine

/-- The end with E_TIMEOUT of the command `i` started in `s` (R118): beside STATUS and RES only the stream and the destination
differ, and the destination belongs to the fresh draw. -/
structure LosesDestination (i : Instr) (s t : State) : Prop where
  frame : t = { s.ended .timeout 0 with mem := t.mem, env := t.env, spos := t.spos, draws := t.draws }
  lost : ∀ a, Destination i s a → t.byte a = Config.freeByte s.draws a
  kept : ∀ a, ¬ Destination i s a → t.byte a = s.byte a

/-- Everything the command `i` started in `s` can come to. -/
inductive CommandOutcome (i : Instr) (s : State) : State → Prop where
  /-- It waits for the host. -/
  | waits {t : State} (hb : t.busy = true) : CommandOutcome i s t
  /-- It completes. -/
  | completes (u : State) (v : Word) : CommandOutcome i s (u.complete v)
  /-- It raises an error of its checks, with nothing done since its start. -/
  | raises {e : Err} (he : e ≠ .timeout) : CommandOutcome i s ((s.start i).raise e)
  /-- Its reader stalls. -/
  | stalls {t : State} (h : LosesDestination i s t) : CommandOutcome i s t

/-- An error of a command's checks leaves no trace of the start (R118). -/
theorem State.start_raise (i : Instr) (e : Err) (s : State) : (s.start i).raise e = s.ended e 0 := rfl

/-! ### The outcomes of the six commands -/

section
variable (s : State)

theorem mapBody_outcome : CommandOutcome .map s (mapBody (started .map s) (s.start .map)) := by
  by_cases h : rgbReserved s.arg0 = 0
  · rw [mapBody_sample (r := started .map s) h]
    exact .completes _ _
  · rw [mapBody_reserved (r := started .map s) h]
    exact .raises nofun

theorem pckBody_outcome : CommandOutcome .pck s (pckBody (started .pck s) (s.start .pck)) := by
  unfold pckBody
  split_ifs
  · exact .completes _ _
  · exact .raises nofun
  · exact .raises nofun

theorem HdrReject.err_ne_timeout (why : HdrReject) : why.err ≠ .timeout := by cases why <;> nofun

theorem hdrBody_outcome : CommandOutcome .hdr s (hdrBody (started .hdr s) (s.start .hdr)) := by
  unfold hdrBody
  split_ifs
  · exact .raises nofun
  · split
    · next why _ => exact .raises why.err_ne_timeout
    · exact .completes _ _
  · exact .raises nofun

/-- SKP has no destination: a stall changes no byte of `MEM` (R73). -/
theorem skpBody_outcome : CommandOutcome .skp s (skpBody (started .skp s) (s.start .skp)) := by
  rcases skpBody_cases (started .skp s) (s.start .skp) with ⟨-, h⟩ | ⟨-, h⟩ | ⟨-, h⟩ <;> rw [h]
  · exact .completes _ _
  · exact .stalls ⟨rfl, fun _ ha => ha.elim, fun _ _ => rfl⟩
  · exact .waits rfl

/-- A started command receives no more bytes than it wants (R63). -/
theorem engine_started_bytes_length_le (n : Nat) (i : Instr) : (engine n (started i s) (s.start i)).bytes.length ≤ n := by
  have spec := engine_spec (n := n) (r := started i s) (s.start i) (Nat.zero_le n)
  have hle := spec.got_le
  rw [spec.got_eq] at hle
  exact (Nat.le_add_left _ _).trans hle

section
variable {s} {i : Instr} {addr n : Nat}

/-- A stall while reading `n` bytes to `addr` loses these bytes, whether they had arrived or not, and no other (R72, R99). -/
theorem losesDestination_of_stall (hdest : ∀ a, Destination i s a ↔ InRange addr n a) :
    LosesDestination i s (((afterRun addr n (started i s) (s.start i)).scramble addr n).raise .timeout) where
  frame := rfl
  lost a ha := (State.byte_scramble _ _ _ _).trans (if_pos ((hdest a).1 ha))
  kept a ha := by
    have hout : ¬ InRange addr n a := fun h => ha ((hdest a).2 h)
    have hlen := engine_started_bytes_length_le s n i
    calc (((afterRun addr n (started i s) (s.start i)).scramble addr n).raise .timeout).byte a
        = (afterRun addr n (started i s) (s.start i)).byte a := (State.byte_scramble _ _ _ _).trans (if_neg hout)
      _ = s.byte a := State.byte_setBytes_outside hlen hout _

theorem readInto_outcome {done : State → State} (hdest : ∀ a, Destination i s a ↔ InRange addr n a)
    (hdone : ∀ t, ∃ u v, done t = State.complete v u) :
    CommandOutcome i s (readInto addr n done (started i s) (s.start i)) := by
  rcases readInto_cases addr n done (started i s) (s.start i) with ⟨-, h⟩ | ⟨-, h⟩ | ⟨-, h⟩ <;> rw [h]
  · obtain ⟨u, v, hu⟩ := hdone (afterRun addr n (started i s) (s.start i))
    rw [hu]
    exact .completes _ _
  · exact .stalls (losesDestination_of_stall hdest)
  · exact .waits rfl

end

theorem rdxBody_outcome : CommandOutcome .rdx s (rdxBody (started .rdx s) (s.start .rdx)) := by
  by_cases hf : Fits s.cfg s.arg0.toNat s.arg1.toNat
  · rw [rdxBody_inside hf]
    exact readInto_outcome (fun _ => Iff.rfl) fun t => ⟨t, 0, rfl⟩
  · rw [rdxBody_outside hf]
    exact .raises nofun

theorem cvrBody_outcome : CommandOutcome .cvr s (cvrBody (started .cvr s) (s.start .cvr)) := by
  by_cases hf : RowFits s.cfg s.arg0.toNat s.arg1.toNat s.arg2.toNat
  · by_cases hd : RowDisjoint s.cfg s.arg0.toNat s.arg1.toNat s.arg2.toNat
    · rw [cvrBody_row hf hd]
      exact readInto_outcome (fun _ => Iff.rfl) fun _ => ⟨_, 0, rfl⟩
    · rw [cvrBody_overlap hf hd]
      exact .raises nofun
  · rw [cvrBody_outside hf]
    exact .raises nofun

theorem bodyOf_outcome : (i : Instr) → CommandOutcome i s (bodyOf i (started i s) (s.start i))
  | .rdx => rdxBody_outcome s
  | .skp => skpBody_outcome s
  | .map => mapBody_outcome s
  | .pck => pckBody_outcome s
  | .hdr => hdrBody_outcome s
  | .cvr => cvrBody_outcome s

end

theorem exec_outcome {i : Instr} {s t : State} (h : exec i s = .next t) : CommandOutcome i s t := by
  obtain ⟨-, rfl | rfl⟩ := exec_cases h
  · exact .waits rfl
  · exact bodyOf_outcome s i

/-! ### Errors -/

namespace CommandOutcome
variable {i : Instr} {s t : State} (h : CommandOutcome i s t) (hb : t.busy = false)
include h hb

theorem eq_ended (hn : t.err ≠ .none) (ht : t.err ≠ .timeout) : t = s.ended t.err 0 := by
  cases h with
  | waits hw => exact nomatch hw.symm.trans hb
  | completes u v => exact absurd rfl hn
  | raises he => exact State.start_raise _ _ _
  | stalls hl => exact absurd (congrArg State.err hl.frame) ht

theorem losesDestination (ht : t.err = .timeout) : LosesDestination i s t := by
  cases h with
  | waits hw => exact nomatch hw.symm.trans hb
  | completes u v => exact nomatch ht
  | raises he => exact absurd ht he
  | stalls hl => exact hl

/-- DONE is set, the hidden state is gone, and an error comes with RES = 0 (R114, R116). -/
theorem done_and_res : t.done = true ∧ t.running = none ∧ (t.err ≠ .none → t.res = 0) := by
  cases h with
  | waits hw => exact nomatch hw.symm.trans hb
  | completes u v => exact ⟨rfl, rfl, fun hn => absurd rfl hn⟩
  | raises he => exact ⟨rfl, rfl, fun _ => rfl⟩
  | stalls hl => rw [hl.frame]; exact ⟨rfl, rfl, fun _ => rfl⟩

end CommandOutcome

theorem writeCmd_reserved {w : Word} {r : Reserved} (hd : decode w = .reserved r) (s : State) :
    writeCmd w s = .next s.reservedCommand := by
  rw [writeCmd, hd]

/-- Settles O34: an ended command raised, or stalled, or completed, and only the first two are errors. -/
theorem errorsArePrecise : Obligations.ErrorsArePrecise := by
  refine ⟨fun i s t h hb hn ht => (exec_outcome h).eq_ended hb hn ht, fun s w r _ hd => ?_, fun i s t h hb ht => ?_⟩
  · rw [writeCmd_reserved hd, State.reservedCommand_eq_ended]
  · obtain ⟨frame, lost, kept⟩ := (exec_outcome h).losesDestination hb ht
    exact ⟨frame, lost, kept⟩

/-! ### Results stay -/

@[simp] theorem State.writeReg_err (s : State) (w : Word) (r : Reg) : (s.writeReg w r).err = s.err := by cases r <;> rfl
@[simp] theorem State.writeReg_done (s : State) (w : Word) (r : Reg) : (s.writeReg w r).done = s.done := by cases r <;> rfl
@[simp] theorem State.writeReg_res (s : State) (w : Word) (r : Reg) : (s.writeReg w r).res = s.res := by cases r <;> rfl
@[simp] theorem State.writeReg_busy (s : State) (w : Word) (r : Reg) : (s.writeReg w r).busy = s.busy := by cases r <;> rfl

/-- The host changes STATUS and RES of an idle block only by a command or a reset (R18, R20, R116). -/
theorem idleAction_keeps_result {a : HostAction} {s t : State} (h : idleAction a s = .next t) (hcmd : ∀ w, a ≠ .writeReg .cmd w)
    (hreset : a ≠ .reset) : t.err = s.err ∧ t.done = s.done ∧ t.res = s.res ∧ t.busy = s.busy := by
  rcases idleAction_cases h with ⟨_, -, rfl⟩ | ⟨w, rfl, -⟩ | ⟨_, _, -, -, rfl⟩ | ⟨_, -, -, rfl⟩ | ⟨_, _, -, -, rfl⟩ |
      ⟨rfl, -⟩ | ⟨-, rfl⟩
  · exact ⟨rfl, rfl, rfl, rfl⟩
  · exact absurd rfl (hcmd w)
  · simp
  · exact ⟨rfl, rfl, rfl, rfl⟩
  · exact ⟨rfl, rfl, rfl, rfl⟩
  · exact absurd rfl hreset
  · exact ⟨rfl, rfl, rfl, rfl⟩

/-- Settles O44: an idle step takes the host's next action, and there is none. -/
theorem idleBlockKeepsItsState : Obligations.IdleBlockKeepsItsState := fun _ => step_idle_nil

theorem exec_next_of_idle {s : State} (hb : s.busy = false) (i : Instr) : ∃ t, exec i s = .next t :=
  ⟨_, exec_next_iff.2 ⟨hb, rfl⟩⟩

/-- Settles O36: the outcomes of a command, and the host's actions while idle. -/
theorem resultsStayUntilTheNextCommand : Obligations.ResultsStayUntilTheNextCommand := by
  refine ⟨fun i s t h hb => ?ended, fun s t hb h hcmd hreset => ?stays⟩
  case ended =>
    obtain ⟨hdone, hrunning, hres⟩ := (exec_outcome h).done_and_res hb
    exact ⟨hdone, hrunning, hres, exec_next_of_idle hb⟩
  case stays =>
    rw [← hb]
    cases hh : s.host with
    | nil =>
      rw [step_idle_nil hb hh, Host.Outcome.next.injEq] at h
      subst h
      exact ⟨rfl, rfl, rfl, rfl⟩
    | cons a rest =>
      rw [step_idle_cons hb hh] at h
      rw [hh] at hcmd hreset
      have kept := idleAction_keeps_result h (fun w ha => hcmd w (congrArg some ha)) fun ha => hreset (congrArg some ha)
      exact kept

end Sys2Proof.Machine
end

