-- ==== Sys2Proof/Proofs/Body.lean ====
section
/-! What the body of a command can do, said once for all six (R63, R116, R117), whether it has just started or goes on after the
host's turn: what it leaves alone, where it stores, which events it takes, and that it then ends or waits for the host. -/

namespace Sys2Proof.Machine

/-! ### Stores -/

/-- `m'` comes from `m` by stores to addresses of `P`. -/
structure Memory.StoredAt (P : Nat → Prop) (m m' : Memory) : Prop where
  wf : m.wf → m'.wf
  entries : ∀ c ∈ m', c ∈ m ∨ P c.1
  other : ∀ a, ¬ P a → m'.lookup a = m.lookup a

namespace Memory.StoredAt
variable {P : Nat → Prop} {m m' m'' : Memory}

theorem refl (P : Nat → Prop) (m : Memory) : StoredAt P m m := ⟨id, fun _ => .inl, fun _ _ => rfl⟩

theorem trans (h : StoredAt P m m') (h' : StoredAt P m' m'') : StoredAt P m m'' where
  wf hm := h'.wf (h.wf hm)
  entries c hc := (h'.entries c hc).elim (h.entries c) .inr
  other a ha := (h'.other a ha).trans (h.other a ha)

theorem write {a : Nat} (ha : P a) (v : Byte) : StoredAt P m (m.write a v) where
  wf hm := Memory.write_wf hm a v
  entries c hc := (Memory.of_mem_write hc).elim (fun h => .inr (by rwa [h])) .inl
  other x hx := Memory.lookup_write_other m v fun h => hx (h ▸ ha)

theorem writeList {a : Nat} {vs : List Byte} (hP : ∀ x, InRange a vs.length x → P x) : StoredAt P m (m.writeList a vs) := by
  induction vs generalizing m a with
  | nil => exact refl P m
  | cons v vs ih =>
    have hrest (x : Nat) (hx : InRange (a + 1) vs.length x) : P x :=
      hP x ⟨by unfold InRange at hx; omega, by unfold InRange at hx; rw [List.length_cons]; omega⟩
    exact (write (hP a ⟨le_rfl, by simp⟩) v).trans (ih hrest)

/-- Stores below `n` keep a memory below `n`. -/
theorem below {n : Nat} (h : StoredAt P m m') (hP : ∀ a, P a → a < n) (hm : Memory.Below m n) : Memory.Below m' n :=
  fun c hc => (h.entries c hc).elim (hm c) (hP c.1)

end Memory.StoredAt

/-! ### The events taken -/

theorem byteCount_append (es fs : List Event) : byteCount (es ++ fs) = byteCount es + byteCount fs := by
  simp [byteCount]

/-- From `s` to `t` the stream only advanced, by the bytes taken (R27). -/
def Advances (s t : State) : Prop := ∃ pre, s.env = pre ++ t.env ∧ t.spos = s.spos + byteCount pre

theorem Advances.of_eq {s t : State} (he : t.env = s.env) (hp : t.spos = s.spos) : Advances s t := ⟨[], he.symm, hp⟩

theorem Advances.trans {s t u : State} (h : Advances s t) (h' : Advances t u) : Advances s u := by
  obtain ⟨pre, he, hp⟩ := h
  obtain ⟨pre', he', hp'⟩ := h'
  refine ⟨pre ++ pre', by rw [he, he', List.append_assoc], ?_⟩
  rw [hp', hp, byteCount_append, Nat.add_assoc]

/-- A stretch of the engine takes events from the front, whatever its counters. -/
theorem readerRun_taken (n t got stall : Nat) (es : List Event) :
    ∃ pre, es = pre ++ (readerRun n t got stall es).rest ∧ byteCount pre = (readerRun n t got stall es).bytes.length := by
  rcases Nat.le_total got n with h | h
  · obtain ⟨pre, he, hb, -⟩ := (readerRun_spec n t es got stall h).taken
    exact ⟨pre, he, hb⟩
  · rw [readerRun_ready h]
    exact ⟨[], rfl, rfl⟩

/-- A stretch of the engine stays inside the bytes it wants, whatever its counters. -/
theorem readerRun_inRange {n t got stall a x : Nat} {es : List Event}
    (hx : InRange (a + got) (readerRun n t got stall es).bytes.length x) : InRange a n x := by
  rcases Nat.le_total got n with h | h
  · have spec := readerRun_spec n t es got stall h
    have hle := spec.got_le
    rw [spec.got_eq] at hle
    unfold InRange at hx ⊢
    omega
  · rw [readerRun_ready h] at hx
    unfold InRange at hx
    simp only [List.length_nil] at hx
    omega

/-! ### The effect of an operation -/

/-- From `s` to `t` the block kept the registers the host writes, the configuration, the host side and the draw of unlisted bytes; it
stored at most to addresses of `P` and only advanced in the stream. Nothing is said of STATUS, RES and the hidden state. -/
structure Effect (P : Nat → Prop) (s t : State) : Prop where
  arg0 : t.arg0 = s.arg0
  arg1 : t.arg1 = s.arg1
  arg2 : t.arg2 = s.arg2
  timeout : t.timeout = s.timeout
  cfg : t.cfg = s.cfg
  host : t.host = s.host
  reply : t.reply = s.reply
  memDraw : t.memDraw = s.memDraw
  draws : s.draws ≤ t.draws
  stores : s.mem.StoredAt P t.mem
  stream : Advances s t

namespace Effect
variable {P : Nat → Prop} {s t u : State}

theorem refl (P : Nat → Prop) (s : State) : Effect P s s :=
  ⟨rfl, rfl, rfl, rfl, rfl, rfl, rfl, rfl, le_rfl, .refl P _, .of_eq rfl rfl⟩

theorem trans (h : Effect P s t) (h' : Effect P t u) : Effect P s u where
  arg0 := h'.arg0.trans h.arg0
  arg1 := h'.arg1.trans h.arg1
  arg2 := h'.arg2.trans h.arg2
  timeout := h'.timeout.trans h.timeout
  cfg := h'.cfg.trans h.cfg
  host := h'.host.trans h.host
  reply := h'.reply.trans h.reply
  memDraw := h'.memDraw.trans h.memDraw
  draws := h.draws.trans h'.draws
  stores := h.stores.trans h'.stores
  stream := h.stream.trans h'.stream

/-- STATUS, RES and the hidden state are no part of the effect. -/
theorem status (h : Effect P s t) (b d : Bool) (e : Err) (v : Word) (q : Option Running) :
    Effect P s { t with busy := b, done := d, err := e, res := v, running := q } := { h with }

theorem start (i : Instr) (s : State) : Effect P s (s.start i) := (refl P s).status _ _ _ _ _

theorem ended (h : Effect P s t) (e : Err) (v : Word) : Effect P s (t.ended e v) := h.status _ _ _ _ _

theorem keep (h : Effect P s t) (r : Running) (w : Run) (c : List Byte) : Effect P s (t.keep r w c) := h.status _ _ _ _ _

/-- A change of `MEM` alone. -/
theorem of_stores {m : Memory} (h : s.mem.StoredAt P m) : Effect P s { s with mem := m } := { refl P s with stores := h }

theorem setByte {a : Nat} (ha : P a) (v : Byte) : Effect P s (s.setByte a v) := of_stores (.write ha v)

theorem setBytes {a : Nat} {vs : List Byte} (hP : ∀ x, InRange a vs.length x → P x) : Effect P s (s.setBytes a vs) :=
  of_stores (.writeList hP)

theorem scramble {a n : Nat} (hP : ∀ x, InRange a n x → P x) : Effect P s (s.scramble a n) :=
  { setBytes (s := s) (vs := freeBytes s.draws a n) (by rwa [freeBytes_length]) with draws := Nat.le_succ _ }

theorem packPixel {base p : Nat} (hP : P (packedAddr base p)) (i : Nibble) : Effect P s (s.packPixel base p i) := setByte hP _

theorem convertPixels {scratch p0 base n x : Nat} (hP : ∀ y, x ≤ y → y < x + n → P (packedAddr base (p0 + y))) :
    Effect P s (convertPixels scratch p0 base x n s) := by
  induction n generalizing x s with
  | zero => exact refl P s
  | succ n ih =>
    exact (packPixel (hP x le_rfl (by omega)) _).trans (ih fun y h1 h2 => hP y (by omega) (by omega))

theorem consume (n : Nat) (r : Running) (s : State) : Effect P s (s.consume (engine n r s)) := by
  obtain ⟨pre, he, hb⟩ := readerRun_taken n r.ops.t.toNat r.got r.stall s.env
  exact { refl P s with stream := ⟨pre, he, congrArg (s.spos + ·) hb.symm⟩ }

theorem afterRun {addr n : Nat} (hP : ∀ x, InRange addr n x → P x) (r : Running) (s : State) :
    Effect P s (afterRun addr n r s) :=
  (consume n r s).trans (setBytes fun x hx => hP x (readerRun_inRange hx))

theorem byte (h : Effect P s t) {a : Nat} (ha : ¬ P a) : t.byte a = s.byte a := by
  rw [State.byte, State.byte, h.stores.other a ha, h.memDraw]

end Effect

/-! ### How a body leaves the block -/

/-- The addresses that a command with these operands stores to (R38, R39), inside `MEM`. -/
def StoreAddr (c : Config) (i : Instr) (o : Operands) (a : Nat) : Prop :=
  a < c.memBytes ∧
    match i with
    | .rdx => InRange o.a0.toNat o.a1.toNat a
    | .pck => a = packedAddr o.a2.toNat o.a1.toNat
    | .cvr => InRange o.a0.toNat (rowBytes c) a ∨
        (packedAddr o.a2.toNat o.a1.toNat ≤ a ∧ a ≤ packedLast c o.a2.toNat o.a1.toNat)
    | .skp | .map | .hdr => False

theorem StoreAddr.mayWrite {i : Instr} {s : State} {a : Nat} (h : StoreAddr s.cfg i (latch i s) a) : MayWrite i s a := by
  cases i <;> exact h.2

/-- A command of `i` has ended (R113, R114, R116). -/
structure Ended (i : Instr) (t : State) : Prop where
  busy : t.busy = false
  done : t.done = true
  running : t.running = none
  mayEnd : t.err.mayEnd i = true
  res : t.err ≠ .none → t.res = 0

theorem State.ended_ended {i : Instr} {e : Err} {v : Word} (t : State) (he : e.mayEnd i = true) (hv : e ≠ .none → v = 0) :
    Ended i (t.ended e v) := ⟨rfl, rfl, rfl, he, hv⟩

/-- The hidden state of a running command after the stretch `u` of the engine. -/
def Running.after (r : Running) (u : Run) (chunk : List Byte) : Running := { r with got := u.got, stall := u.stall, chunk := chunk }

/-- A command that wants `n` bytes waits in `t` for the host, after a stretch of the engine from `s`. -/
structure Waits (n : Nat) (r : Running) (s t : State) : Prop where
  paused : (engine n r s).status = .paused
  busy : t.busy = s.busy
  done : t.done = s.done
  err : t.err = s.err
  res : t.res = s.res
  env : t.env = (engine n r s).rest
  running : ∃ chunk, t.running = some (r.after (engine n r s) chunk) ∧
    (r.chunk.length < s.cfg.skipChunk → chunk.length < s.cfg.skipChunk)

/-- Everything the body of `i` can do with the hidden state `r`. -/
structure BodySpec (i : Instr) (r : Running) (s t : State) : Prop where
  effect : Effect (StoreAddr s.cfg i r.ops) s t
  ended_or_waits : Ended i t ∨ Waits (wanted s.cfg i r.ops) r s t

/-! ### The six bodies -/

section
variable {i : Instr} {r : Running} {s : State}

theorem BodySpec.ended {t : State} {e : Err} {v : Word} (h : Effect (StoreAddr s.cfg i r.ops) s t) (he : e.mayEnd i = true)
    (hv : e ≠ .none → v = 0) : BodySpec i r s (t.ended e v) :=
  ⟨h.ended e v, .inl (t.ended_ended he hv)⟩

theorem BodySpec.completes {t : State} (h : Effect (StoreAddr s.cfg i r.ops) s t) (v : Word) : BodySpec i r s (t.complete v) :=
  BodySpec.ended (t := t) (e := .none) h rfl fun hn => absurd rfl hn

theorem BodySpec.fails {t : State} {e : Err} (h : Effect (StoreAddr s.cfg i r.ops) s t) (he : e.mayEnd i = true) :
    BodySpec i r s (t.raise e) :=
  BodySpec.ended (t := t) (v := 0) h he fun _ => rfl

theorem BodySpec.raises {e : Err} (he : e.mayEnd i = true) : BodySpec i r s (s.raise e) := .fails (.refl _ s) he

/-- Reading into `MEM` and what follows it. -/
theorem readInto_spec {addr n : Nat} {done : State → State} (hn : wanted s.cfg i r.ops = n)
    (ht : Err.timeout.mayEnd i = true) (haddr : ∀ x, InRange addr n x → StoreAddr s.cfg i r.ops x)
    (hdone : ∀ t, t.cfg = s.cfg → Effect (StoreAddr s.cfg i r.ops) t (done t) ∧ Ended i (done t)) :
    BodySpec i r s (readInto addr n done r s) := by
  have hrun := Effect.afterRun haddr r s
  rcases readInto_cases addr n done r s with ⟨-, h⟩ | ⟨-, h⟩ | ⟨hp, h⟩ <;> rw [h]
  · obtain ⟨heff, hend⟩ := hdone (afterRun addr n r s) rfl
    exact ⟨hrun.trans heff, .inl hend⟩
  · exact .fails (hrun.trans (.scramble haddr)) ht
  · subst hn
    exact ⟨hrun.keep _ _ _, .inr ⟨hp, rfl, rfl, rfl, rfl, rfl, r.chunk, rfl, id⟩⟩

theorem rdxBody_spec (r : Running) (s : State) : BodySpec .rdx r s (rdxBody r s) := by
  unfold rdxBody
  split_ifs with hf
  · refine readInto_spec rfl rfl (fun x hx => ⟨?_, hx⟩) fun t _ => ⟨(Effect.refl _ t).ended _ _, t.ended_ended rfl fun _ => rfl⟩
    unfold InRange at hx
    omega
  · exact .raises rfl

/-- A chunk buffer that is not full stays so (R26, R74). -/
theorem foldl_chunkPush_length_lt {cap : Nat} {chunk : List Byte} (h : chunk.length < cap) (vs : List Byte) :
    (vs.foldl (chunkPush cap) chunk).length < cap := by
  induction vs generalizing chunk with
  | nil => exact h
  | cons v vs ih =>
    refine ih ?_
    unfold chunkPush
    split_ifs with hc
    · exact Nat.zero_lt_of_lt h
    · simpa using hc

theorem skpBody_spec (r : Running) (s : State) : BodySpec .skp r s (skpBody r s) := by
  have hrun := Effect.consume (P := StoreAddr s.cfg .skp r.ops) r.ops.a1.toNat r s
  rcases skpBody_cases r s with ⟨-, h⟩ | ⟨-, h⟩ | ⟨hp, h⟩ <;> rw [h]
  · exact .completes hrun 0
  · exact .fails hrun rfl
  · exact ⟨hrun.keep _ _ _, .inr ⟨hp, rfl, rfl, rfl, rfl, rfl, _, rfl, fun hc => foldl_chunkPush_length_lt hc _⟩⟩

theorem mapBody_spec (r : Running) (s : State) : BodySpec .map r s (mapBody r s) := by
  by_cases h : rgbReserved r.ops.a0 = 0
  · rw [mapBody_sample h]
    exact .completes (.refl _ s) _
  · rw [mapBody_reserved h]
    exact .raises rfl

theorem pckBody_spec (r : Running) (s : State) : BodySpec .pck r s (pckBody r s) := by
  unfold pckBody
  split_ifs with _ hf
  · exact .completes (.packPixel ⟨hf, rfl⟩ _) 0
  · exact .raises rfl
  · exact .raises rfl

theorem HdrReject.err_mayEnd (why : HdrReject) : why.err.mayEnd .hdr = true := by cases why <;> rfl

theorem hdrBody_spec (r : Running) (s : State) : BodySpec .hdr r s (hdrBody r s) := by
  unfold hdrBody
  split_ifs
  · exact .raises rfl
  · split
    · next why _ => exact .raises why.err_mayEnd
    · exact .completes (.refl _ s) _
  · exact .raises rfl

theorem cvrBody_spec (r : Running) (s : State) : BodySpec .cvr r s (cvrBody r s) := by
  unfold cvrBody
  split_ifs with hf _
  · obtain ⟨hscratch, hlast⟩ := hf
    refine readInto_spec rfl rfl (fun x hx => ⟨?_, .inl hx⟩) fun t _ => ⟨?_, State.ended_ended _ rfl fun _ => rfl⟩
    · unfold InRange at hx
      omega
    · refine Effect.ended (.convertPixels fun y _ hy => ?_) _ _
      obtain ⟨hlo, hhi⟩ := packedAddr_mem_row (c := s.cfg) (x := y) r.ops.a2.toNat r.ops.a1.toNat (by omega)
      exact ⟨hhi.trans_lt hlast, .inr ⟨hlo, hhi⟩⟩
  · exact .raises rfl
  · exact .raises rfl

end

theorem bodyOf_spec : (i : Instr) → (r : Running) → (s : State) → BodySpec i r s (bodyOf i r s)
  | .rdx => rdxBody_spec
  | .skp => skpBody_spec
  | .map => mapBody_spec
  | .pck => pckBody_spec
  | .hdr => hdrBody_spec
  | .cvr => cvrBody_spec

/-! ### Waiting -/

/-- A run that stops at a host turn still wants bytes, so it started with a legal count. -/
theorem engine_spec_of_paused {n : Nat} {r : Running} {s : State} (hp : (engine n r s).status = .paused) :
    RunSpec n r.ops.t.toNat r.got r.stall s.env (engine n r s) := by
  refine engine_spec s (Nat.le_of_lt (Nat.lt_of_not_le fun hle => ?_))
  rw [engine, readerRun_ready hle] at hp
  cases hp

namespace Waits
variable {n : Nat} {r : Running} {s t : State} (h : Waits n r s t)
include h

theorem spec : RunSpec n r.ops.t.toNat r.got r.stall s.env (engine n r s) := engine_spec_of_paused h.paused

theorem env_eq : ∃ pre es, s.env = pre ++ .hostTurn :: es ∧ t.env = .hostTurn :: es ∧ NoHostTurn pre := by
  obtain ⟨pre, he, -, hpre⟩ := h.spec.taken
  obtain ⟨-, es, hr⟩ := h.spec.paused h.paused
  exact ⟨pre, es, hr ▸ he, h.env.trans hr, hpre⟩

/-- Unless the host moves first, a command that waits has taken an event. -/
theorem env_length_lt (hn : s.NoTurn) : t.env.length < s.env.length := by
  obtain ⟨pre, es, hs, ht, -⟩ := h.env_eq
  cases pre with
  | nil => exact absurd (congrArg List.head? hs) hn
  | cons e pre =>
    rw [hs, ht]
    simp

theorem not_noHostTurn (hn : NoHostTurn s.env) : False := by
  obtain ⟨pre, es, he, -⟩ := h.env_eq
  rw [he, noHostTurn_append, noHostTurn_cons] at hn
  exact hn.2.1 rfl

end Waits

/-! ### A command from its start, and as it goes on -/

theorem resume_some {s : State} {r : Running} (h : s.running = some r) : resume s = bodyOf r.instr r s := by
  rw [resume, h]

theorem resume_none {s : State} (h : s.running = none) : resume s = s := by
  rw [resume, h]

/-- Everything `exec` can do: the host moves first and the command waits right after its start, or its body runs. -/
theorem exec_turn_or_body {i : Instr} {s t : State} (h : exec i s = .next t) :
    (∃ es, s.env = .hostTurn :: es) ∧ t = s.start i ∨ t = bodyOf i (started i s) (s.start i) := by
  obtain ⟨-, rfl⟩ := exec_next_iff.1 h
  rcases s.turn_or_not with hn | ⟨es, he⟩
  · exact .inr (goOn_noTurn _ hn)
  · exact .inl ⟨⟨es, he⟩, goOn_turn _ he⟩

theorem started_spec (i : Instr) (s : State) : BodySpec i (started i s) (s.start i) (bodyOf i (started i s) (s.start i)) :=
  bodyOf_spec i _ _

theorem exec_effect {i : Instr} {s t : State} (h : exec i s = .next t) : Effect (StoreAddr s.cfg i (latch i s)) s t := by
  rcases exec_turn_or_body h with ⟨-, rfl⟩ | rfl
  · exact .start i s
  · exact (Effect.start i s).trans (started_spec i s).effect

/-- A command that `exec` left idle has ended; one that it left busy waits. -/
theorem exec_ended {i : Instr} {s t : State} (h : exec i s = .next t) (hb : t.busy = false) : Ended i t := by
  rcases exec_turn_or_body h with ⟨-, rfl⟩ | rfl
  · cases hb
  · refine (started_spec i s).ended_or_waits.resolve_right fun hw => ?_
    exact nomatch hb.symm.trans hw.busy

/-- Without a host turn a command ends in the step that starts it. -/
theorem exec_ended_of_noHostTurn {i : Instr} {s t : State} (h : exec i s = .next t) (hn : NoHostTurn s.env) : Ended i t := by
  rcases exec_turn_or_body h with ⟨⟨es, he⟩, -⟩ | rfl
  · rw [he, noHostTurn_cons] at hn
    exact absurd rfl hn.1
  · exact (started_spec i s).ended_or_waits.resolve_right fun hw => hw.not_noHostTurn hn

end Sys2Proof.Machine
end

