-- ==== Sys2Proof/Proofs/Invariant.lean ====
section
/-! The invariant (R8, R20, R25, R26, R114): it holds at reset, the body of a command keeps it by what `BodySpec` says of it, and so
does every host action. -/

namespace Sys2Proof.Machine

/-! ### The parts of the invariant -/

/-- The part of the invariant that says nothing of STATUS, RES and the hidden state. -/
structure DataInv (s : State) : Prop where
  config : s.cfg.WF
  canonical : s.mem.wf
  inside : Memory.Below s.mem s.cfg.memBytes
  fresh : s.memDraw < s.draws

theorem Inv.data {s : State} (h : Inv s) : DataInv s := ⟨h.config, h.canonical, h.inside, h.fresh⟩

theorem Inv.running_eq_none {s : State} (h : Inv s) (hb : s.busy = false) : s.running = none := by
  have hr := h.busy_running
  rw [hb] at hr
  exact Option.isNone_iff_eq_none.1 (Option.isSome_eq_false_iff.1 hr.symm)

/-- Idle, the rules of STATUS and RES complete the invariant. -/
theorem DataInv.inv_idle {s : State} (h : DataInv s) (hb : s.busy = false) (hr : s.running = none)
    (hdone : s.err ≠ .none → s.done = true) (hres : s.err ≠ .none → s.res = 0) : Inv s where
  config := h.config
  canonical := h.canonical
  inside := h.inside
  busy_not_done hbd := nomatch hb.symm.trans hbd.1
  err_done := hdone
  err_res := hres
  busy_running := by rw [hb, hr]; rfl
  running r hr' := nomatch hr.symm.trans hr'
  fresh := h.fresh

/-- While a command runs, DONE and ERR are clear and the hidden state is legal. -/
theorem DataInv.inv_busy {s : State} {r : Running} (h : DataInv s) (hb : s.busy = true) (hr : s.running = some r)
    (hdone : s.done = false) (herr : s.err = .none) (hlegal : RunningInv s r) : Inv s where
  config := h.config
  canonical := h.canonical
  inside := h.inside
  busy_not_done hbd := nomatch hdone.symm.trans hbd.2
  err_done hn := absurd herr hn
  err_res hn := absurd herr hn
  busy_running := by rw [hb, hr]; rfl
  running r' hr' := by rw [Option.some.inj (hr'.symm.trans hr)]; exact hlegal
  fresh := h.fresh

theorem Inv.done_and_err_of_busy {s : State} (h : Inv s) (hb : s.busy = true) : s.done = false ∧ s.err = .none := by
  have hdone : s.done = false := Bool.eq_false_iff.2 fun hd => h.busy_not_done ⟨hb, hd⟩
  exact ⟨hdone, by_contra fun hn => nomatch hdone.symm.trans (h.err_done hn)⟩

/-- The invariant says nothing of the events, the host and the reply. -/
theorem Inv.of_env_host_reply {s : State} (h : Inv s) (es : List Event) (as : List HostAction) (x : Reply) (p : Nat) :
    Inv { s with env := es, host := as, reply := x, spos := p } :=
  { h with running := fun r hr => { h.running r hr with } }

/-! ### Commands -/

theorem Effect.dataInv {P : Nat → Prop} {s t : State} (h : Effect P s t) (hP : ∀ a, P a → a < s.cfg.memBytes) (hs : DataInv s) :
    DataInv t where
  config := by rw [h.cfg]; exact hs.config
  canonical := h.stores.wf hs.canonical
  inside := by rw [h.cfg]; exact h.stores.below hP hs.inside
  fresh := by rw [h.memDraw]; exact hs.fresh.trans_le h.draws

/-- A command reads its operand registers only, so it finds the latched values as long as nobody wrote them. -/
theorem Effect.latch_eq {P : Nat → Prop} {s t : State} (h : Effect P s t) (i : Instr) : latch i t = latch i s := by
  cases i <;> simp [latch, h.arg0, h.arg1, h.arg2, h.timeout]

/-- The body of a running command keeps the invariant. -/
theorem inv_body {s : State} {r : Running} (h : Inv s) (hb : s.busy = true) (hr : s.running = some r) :
    Inv (bodyOf r.instr r s) := by
  obtain ⟨effect, hend | hwait⟩ := bodyOf_spec r.instr r s
  all_goals have hdata := effect.dataInv (fun a ha => ha.1) h.data
  · exact hdata.inv_idle hend.busy hend.running (fun _ => hend.done) hend.res
  · obtain ⟨latched, -, stall_lt, chunk_lt⟩ := h.running r hr
    obtain ⟨hdone, herr⟩ := h.done_and_err_of_busy hb
    obtain ⟨chunk, hrun, hchunk⟩ := hwait.running
    refine hdata.inv_busy (hwait.busy.trans hb) hrun (hwait.done.trans hdone) (hwait.err.trans herr) ⟨?_, ?_, ?_, ?_⟩
    · exact latched.trans (effect.latch_eq r.instr).symm
    · rw [effect.cfg]
      exact hwait.spec.got_le
    · exact hwait.spec.stall_lt (by rw [hwait.paused]; nofun) stall_lt
    · rw [effect.cfg]
      exact hchunk chunk_lt

/-- So does the start of a command. -/
theorem inv_start {s : State} (h : Inv s) (i : Instr) : Inv (s.start i) := by
  obtain ⟨-, -, -, ⟨hchunk, -⟩, -⟩ := h.config
  refine DataInv.inv_busy (r := started i s) { h.data with } rfl rfl rfl rfl ⟨?_, Nat.zero_le _, ?_, hchunk⟩
  · exact ((Effect.start (P := fun _ => True) i s).latch_eq i).symm
  · exact Nat.lt_of_lt_of_le Nat.zero_lt_one (Nat.le_max_right _ _)

theorem inv_exec {i : Instr} {s t : State} (h : Inv s) (he : exec i s = .next t) : Inv t := by
  rcases exec_turn_or_body he with ⟨-, rfl⟩ | rfl
  · exact inv_start h i
  · exact inv_body (r := started i s) (inv_start h i) rfl rfl

/-! ### Host actions -/

theorem inv_doReset {s : State} (h : Inv s) : Inv s.doReset :=
  DataInv.inv_idle ⟨h.config, List.Pairwise.nil, fun _ hc => absurd hc List.not_mem_nil, Nat.lt_succ_self _⟩ rfl rfl
    (fun hn => absurd rfl hn) fun hn => absurd rfl hn

theorem inv_reservedCommand {s : State} (h : Inv s) : Inv s.reservedCommand :=
  DataInv.inv_idle { h.data with } rfl rfl (fun _ => rfl) fun _ => rfl

/-- A register write touches nothing but an operand register or TIMEOUT, and no command runs that has latched it. -/
theorem inv_writeReg {s : State} (h : Inv s) (hb : s.busy = false) (w : Word) (r : Reg) : Inv (s.writeReg w r) := by
  have hr := h.running_eq_none hb
  cases r <;> exact DataInv.inv_idle { h.data with } hb hr h.err_done h.err_res

theorem inv_setByte {s : State} (h : Inv s) (hb : s.busy = false) {a : Nat} (ha : a < s.cfg.memBytes) (v : Byte) :
    Inv (s.setByte a v) :=
  DataInv.inv_idle ((Effect.setByte (P := (· < s.cfg.memBytes)) ha v).dataInv (fun _ => id) h.data) hb
    (h.running_eq_none hb) h.err_done h.err_res

theorem inv_idleAction {a : HostAction} {s t : State} (h : Inv s) (hb : s.busy = false) (ht : idleAction a s = .next t) :
    Inv t := by
  have hreply (x : Reply) : Inv { s with reply := x } := h.of_env_host_reply s.env s.host x s.spos
  rcases idleAction_cases ht with ⟨_, -, rfl⟩ | ⟨w, -, hw⟩ | ⟨r, w, -, -, rfl⟩ | ⟨_, -, -, rfl⟩ | ⟨x, v, -, hx, rfl⟩ |
      ⟨-, rfl⟩ | ⟨-, rfl⟩
  · exact hreply _
  · rcases writeCmd_cases w { s with reply := .nothing } with ⟨i, -, he⟩ | ⟨-, -, he⟩ <;> rw [he] at hw
    · exact inv_exec (hreply _) hw
    · cases hw
      exact inv_reservedCommand (hreply _)
  · exact inv_writeReg (hreply .nothing) hb w r
  · exact hreply _
  · exact inv_setByte (hreply .nothing) hb hx v
  · exact inv_doReset h
  · exact hreply _

theorem inv_busyAction {a : HostAction} {s t : State} (h : Inv s) (ht : busyAction a s = .next t) : Inv t := by
  rcases busyAction_cases ht with ⟨-, rfl⟩ | ⟨-, rfl⟩ | ⟨-, rfl⟩
  · exact h.of_env_host_reply _ _ _ _
  · exact h.of_env_host_reply _ _ _ _
  · exact inv_doReset h

/-! ### Reset and steps -/

/-- The stand-in of the unknown build is well-formed. -/
theorem tcA_wf : Config.tcA.WF := by
  refine ⟨by decide, by decide, by decide, by decide, by decide⟩

theorem buildConfig_wf : buildConfig.WF := by
  unfold buildConfig
  split
  · assumption
  · exact tcA_wf

/-- Settles O47: reset is idle without an error, with no byte written and the build's configuration. -/
theorem resetMeetsTheInvariant : Obligations.ResetMeetsTheInvariant :=
  DataInv.inv_idle ⟨buildConfig_wf, List.Pairwise.nil, fun _ hc => absurd hc List.not_mem_nil, Nat.zero_lt_one⟩ rfl rfl
    (fun hn => absurd rfl hn) fun hn => absurd rfl hn

/-- Settles O48: a step is a host action or the body of the running command, and each keeps the invariant. -/
theorem everyStepKeepsTheInvariant : Obligations.EveryStepKeepsTheInvariant := by
  intro s t h hstep
  rcases step_cases hstep with ⟨-, -, rfl⟩ | ⟨a, rest, hb, -, ha⟩ | ⟨es, -, -, -, rfl⟩ | ⟨es, a, rest, -, -, -, ha⟩ |
      ⟨hb, -, rfl⟩
  · exact h
  · exact inv_idleAction (h.of_env_host_reply s.env rest s.reply s.spos) hb ha
  · exact h.of_env_host_reply es s.host s.reply s.spos
  · exact inv_busyAction (h.of_env_host_reply es rest s.reply s.spos) ha
  · cases hr : s.running with
    | some r => exact resume_some hr ▸ inv_body h hb hr
    | none => exact (resume_none hr).symm ▸ h

end Sys2Proof.Machine
end

