-- ==== Sys2Proof/Proofs/CommandFrames.lean ====
section
/-! What commands and steps leave alone, and who changes what (R17, R18, R21, R24, R27, R38, R51, R65, R113), each read off from what
a body can do and from what a step can do. -/

namespace Sys2Proof.Machine

/-! ### Commands -/

/-- Settles O22: without a host turn the body runs in the step that starts it, and cannot wait. -/
theorem everyCommandEnds : Obligations.EveryCommandEnds := by
  intro i s hb hn
  obtain ⟨t, ht⟩ := exec_next_of_idle hb i
  have hend := exec_ended_of_noHostTurn ht hn
  exact ⟨t, ht, hend.busy, hend.done, hend.running⟩

/-- Settles O35: the codes are a table, an ended command has a code of its row, and a reserved word raises its own. -/
theorem errorCodesOfEachCommand : Obligations.ErrorCodesOfEachCommand := by
  refine ⟨rfl, rfl, rfl, rfl, rfl, rfl, rfl, rfl, rfl, fun i s t h hb => (exec_ended h hb).mayEnd, fun s w r _ hd => ?_⟩
  exact ⟨_, writeCmd_reserved hd s, rfl⟩

/-- Settles O37: the frame of `Effect`. -/
theorem commandsKeepOperandsAndConfiguration : Obligations.CommandsKeepOperandsAndConfiguration := by
  intro i s t h
  have e := exec_effect h
  exact ⟨e.arg0, e.arg1, e.arg2, e.timeout, e.cfg, e.host, e.reply, e.memDraw⟩

/-- Settles O38: a command stores to `StoreAddr` only, which are bytes that it may write. -/
theorem commandsWriteOnlyTheirBytes : Obligations.CommandsWriteOnlyTheirBytes :=
  fun _ _ _ h _ ha => (exec_effect h).byte fun hs => ha hs.mayWrite

/-! ### What a body does not read -/

/-- The registers that the host writes, its next actions and its reply. -/
structure HostSide where
  arg0 : Word
  arg1 : Word
  arg2 : Word
  timeout : Word
  host : List HostAction
  reply : Reply

def State.hostSide (s : State) : HostSide := ⟨s.arg0, s.arg1, s.arg2, s.timeout, s.host, s.reply⟩

def State.withHostSide (s : State) (p : HostSide) : State :=
  { s with arg0 := p.arg0, arg1 := p.arg1, arg2 := p.arg2, timeout := p.timeout, host := p.host, reply := p.reply }

def State.updateHostSide (s : State) (f : HostSide → HostSide) : State := s.withHostSide (f s.hostSide)

theorem Effect.hostSide {P : Nat → Prop} {s t : State} (h : Effect P s t) : t.hostSide = s.hostSide := by
  simp [State.hostSide, h.arg0, h.arg1, h.arg2, h.timeout, h.host, h.reply]

/-- A change of the state that the operations on `MEM` neither see nor disturb. -/
structure Unseen (f : State → State) : Prop where
  cfg : ∀ s, (f s).cfg = s.cfg
  byte : ∀ s a, (f s).byte a = s.byte a
  setByte : ∀ s a v, (f s).setByte a v = f (s.setByte a v)

namespace Unseen
variable {f : State → State} (hf : Unseen f)
include hf

theorem convertPixels (scratch p0 base n x : Nat) (s : State) :
    convertPixels scratch p0 base x n (f s) = f (convertPixels scratch p0 base x n s) := by
  induction n generalizing x s with
  | zero => rfl
  | succ n ih =>
    have hpixel : convertPixel scratch p0 base x (f s) = f (convertPixel scratch p0 base x s) := by
      simp only [convertPixel, State.packPixel, State.bgr, hf.cfg, hf.byte, hf.setByte]
    rw [Machine.convertPixels, hpixel, ih, Machine.convertPixels]

theorem memRead (s : State) (n a : Nat) : (f s).memRead a n = s.memRead a n := by
  induction n generalizing a with
  | zero => rfl
  | succ n ih => rw [State.memRead, State.memRead, hf.byte, ih]

theorem parseHeader (s : State) (a n : Nat) : parseHeader (f s) a n = parseHeader s a n := by
  have hsig : HdrSignature (f s) a ↔ HdrSignature s a := by rw [HdrSignature, hf.byte, hf.byte]
  have hbpp : hdrBppField (f s) a = hdrBppField s a := hf.memRead s 2 _
  have hoff : hdrOffsetField (f s) a = hdrOffsetField s a := congrArg _ (hf.memRead s 4 _)
  have hdim : HdrDimensions (f s) a ↔ HdrDimensions s a := by
    rw [HdrDimensions, hdrWidthField, hdrHeightField, hf.memRead, hf.memRead, hf.cfg]
    rfl
  exact if_congr Iff.rfl rfl (if_congr (not_congr hsig) rfl
    (if_congr (by rw [hbpp]) rfl (if_congr (not_congr hdim) rfl (by rw [hoff]))))

/-! When the end of a command does not disturb the change either, the bodies without a reader commute with it. -/

variable (hend : ∀ s e v, (f s).ended e v = f (s.ended e v)) (r : Running) (s : State)
include hend

theorem mapBody : mapBody r (f s) = f (mapBody r s) := by
  by_cases h : rgbReserved r.ops.a0 = 0
  · rw [mapBody_sample h, mapBody_sample h, hf.cfg]
    exact hend s .none _
  · rw [mapBody_reserved h, mapBody_reserved h]
    exact hend s .operand 0

theorem pckBody : pckBody r (f s) = f (pckBody r s) := by
  rw [Machine.pckBody, Machine.pckBody, hf.cfg]
  split_ifs
  · rw [State.packPixel, hf.byte, hf.setByte]
    exact hend _ .none 0
  · exact hend s .addr 0
  · exact hend s .operand 0

theorem hdrBody : hdrBody r (f s) = f (hdrBody r s) := by
  rw [Machine.hdrBody, Machine.hdrBody, hf.cfg, hf.parseHeader]
  split_ifs
  · exact hend s .hdrSmall 0
  · split
    · exact hend s _ 0
    · exact hend s .none _
  · exact hend s .addr 0

end Unseen

theorem withHostSide_unseen (p : HostSide) : Unseen (State.withHostSide · p) := ⟨fun _ => rfl, fun _ _ => rfl, fun _ _ _ => rfl⟩

section
variable (p : HostSide) (r : Running) (s : State)

theorem readInto_withHostSide {addr n : Nat} {done : State → State}
    (hdone : ∀ t, done (t.withHostSide p) = (done t).withHostSide p) :
    readInto addr n done r (s.withHostSide p) = (readInto addr n done r s).withHostSide p := by
  rcases readInto_cases addr n done r s with ⟨hs, h⟩ | ⟨hs, h⟩ | ⟨hs, h⟩
  · rw [h, readInto_ok (s := s.withHostSide p) hs, ← hdone]
    rfl
  · rw [h, readInto_fail (s := s.withHostSide p) hs]
    rfl
  · rw [h, readInto_paused (s := s.withHostSide p) hs]
    rfl

theorem rdxBody_withHostSide : rdxBody r (s.withHostSide p) = (rdxBody r s).withHostSide p := by
  rw [rdxBody, rdxBody, (withHostSide_unseen p).cfg]
  split_ifs
  · exact readInto_withHostSide p r s fun _ => rfl
  · rfl

theorem skpBody_withHostSide : skpBody r (s.withHostSide p) = (skpBody r s).withHostSide p := by
  have he : engine r.ops.a1.toNat r (s.withHostSide p) = engine r.ops.a1.toNat r s := rfl
  simp only [skpBody, he]
  split <;> rfl

theorem cvrBody_withHostSide : cvrBody r (s.withHostSide p) = (cvrBody r s).withHostSide p := by
  rw [cvrBody, cvrBody, (withHostSide_unseen p).cfg]
  split_ifs
  · exact readInto_withHostSide p r s fun t => congrArg (State.complete 0) ((withHostSide_unseen p).convertPixels _ _ _ _ _ t)
  · rfl
  · rfl

/-- A body reads its latched operands, never the registers, and nothing of the host. -/
theorem bodyOf_withHostSide : (i : Instr) → bodyOf i r (s.withHostSide p) = (bodyOf i r s).withHostSide p
  | .rdx => rdxBody_withHostSide p r s
  | .skp => skpBody_withHostSide p r s
  | .map => (withHostSide_unseen p).mapBody (fun _ _ _ => rfl) r s
  | .pck => (withHostSide_unseen p).pckBody (fun _ _ _ => rfl) r s
  | .hdr => (withHostSide_unseen p).hdrBody (fun _ _ _ => rfl) r s
  | .cvr => cvrBody_withHostSide p r s

theorem bodyOf_updateHostSide (f : HostSide → HostSide) (i : Instr) :
    bodyOf i r (s.updateHostSide f) = (bodyOf i r s).updateHostSide f := by
  rw [State.updateHostSide, bodyOf_withHostSide, State.updateHostSide, (bodyOf_spec i r s).effect.hostSide]

end

/-- With another value in what the command does not latch, it does the same and leaves that value. -/
theorem exec_updateHostSide {i : Instr} {s t : State} (f : HostSide → HostSide) (h : exec i s = .next t)
    (hlatch : latch i (s.updateHostSide f) = latch i s) : exec i (s.updateHostSide f) = .next (t.updateHostSide f) := by
  have hstart : (s.updateHostSide f).start i = (s.start i).updateHostSide f := by
    rw [State.start, hlatch]; rfl
  obtain ⟨hb, rfl⟩ := exec_next_iff.1 h
  rw [exec_next_iff]
  refine ⟨hb, ?_⟩
  rcases s.turn_or_not with hn | ⟨es, he⟩
  · have hstarted : started i (s.updateHostSide f) = started i s := by rw [started, hlatch]; rfl
    rw [goOn_noTurn _ hn, goOn_noTurn (s := s.updateHostSide f) _ hn, hstart, hstarted, bodyOf_updateHostSide]
  · rw [goOn_turn _ he, goOn_turn (s := s.updateHostSide f) _ he, hstart]

/-- Settles O39: none of these registers is latched by its command. -/
theorem unnamedRegistersDoNotMatter : Obligations.UnnamedRegistersDoNotMatter := fun _ _ x0 x1 x2 xt =>
  ⟨fun h => exec_updateHostSide (fun p => { p with arg2 := x2 }) h rfl,
    fun h => exec_updateHostSide (fun p => { p with arg0 := x0, arg2 := x2 }) h rfl,
    fun h => exec_updateHostSide (fun p => { p with arg1 := x1, arg2 := x2, timeout := xt }) h rfl,
    fun h => exec_updateHostSide (fun p => { p with timeout := xt }) h rfl,
    fun h => exec_updateHostSide (fun p => { p with arg2 := x2, timeout := xt }) h rfl⟩

/-! ### Steps -/

theorem writeCmd_effect {w : Word} {s t : State} (h : writeCmd w s = .next t) : ∃ P, Effect P s t := by
  rcases writeCmd_cases w s with ⟨i, -, he⟩ | ⟨-, -, he⟩ <;> rw [he] at h
  · exact ⟨_, exec_effect h⟩
  · cases h
    exact ⟨fun _ => True, (Effect.refl _ s).ended _ _⟩

theorem resume_effect (s : State) : ∃ P, Effect P s (resume s) := by
  cases hr : s.running with
  | some r =>
    rw [resume_some hr]
    exact ⟨_, (bodyOf_spec r.instr r s).effect⟩
  | none =>
    rw [resume_none hr]
    exact ⟨fun _ => True, .refl _ s⟩

/-- Beside the reply, a host action while idle has the effect of a command, or writes a register, or resets. -/
theorem idleAction_effect {a : HostAction} {s t : State} (h : idleAction a s = .next t) :
    (∃ P x, Effect P { s with reply := x } t) ∨
    (∃ r w, a = .writeReg r w ∧ t = { s with reply := .nothing }.writeReg w r) ∨ (a = .reset ∧ t = s.doReset) := by
  rcases idleAction_cases h with ⟨_, -, rfl⟩ | ⟨w, -, hw⟩ | ⟨r, w, ha, -, ht⟩ | ⟨_, -, -, rfl⟩ | ⟨_, v, -, -, rfl⟩ | ⟨ha, ht⟩ |
      ⟨-, rfl⟩
  · exact .inl ⟨fun _ => True, _, .refl _ _⟩
  · obtain ⟨P, e⟩ := writeCmd_effect hw
    exact .inl ⟨P, _, e⟩
  · exact .inr (.inl ⟨r, w, ha, ht⟩)
  · exact .inl ⟨fun _ => True, _, .refl _ _⟩
  · exact .inl ⟨fun _ => True, _, .setByte trivial v⟩
  · exact .inr (.inr ⟨ha, ht⟩)
  · exact .inl ⟨fun _ => True, _, .refl _ _⟩

/-- `s` before a step, with the host's turn and action taken and some reply. -/
structure TurnTaken (s u : State) : Prop where
  env : u.env = s.env ∨ s.env = .hostTurn :: u.env
  rest : u = { s with env := u.env, host := u.host, reply := u.reply }

/-- Everything a step can do: the effect of a command, or a register write while idle, or a reset. -/
theorem step_effect {s t : State} (h : step s = .next t) : ∃ u, TurnTaken s u ∧
    ((∃ P, Effect P u t) ∨
      (∃ r w, s.busy = false ∧ s.host.head? = some (.writeReg r w) ∧ t = u.writeReg w r) ∨
      (s.host.head? = some .reset ∧ t = u.doReset)) := by
  rcases step_cases h with ⟨-, -, rfl⟩ | ⟨a, rest, hb, hh, ha⟩ | ⟨es, -, he, -, rfl⟩ | ⟨es, a, rest, -, he, hh, ha⟩ | ⟨-, -, rfl⟩
  · exact ⟨_, ⟨.inl rfl, rfl⟩, .inl ⟨fun _ => True, .refl _ _⟩⟩
  · rcases idleAction_effect ha with ⟨P, x, e⟩ | ⟨r, w, rfl, rfl⟩ | ⟨rfl, rfl⟩
    · exact ⟨{ s with host := rest, reply := x }, ⟨.inl rfl, rfl⟩, .inl ⟨P, e⟩⟩
    · exact ⟨{ s with host := rest, reply := .nothing }, ⟨.inl rfl, rfl⟩, .inr (.inl ⟨r, w, hb, by rw [hh]; rfl, rfl⟩)⟩
    · exact ⟨{ s with host := rest }, ⟨.inl rfl, rfl⟩, .inr (.inr ⟨by rw [hh]; rfl, rfl⟩)⟩
  · exact ⟨_, ⟨.inr he, rfl⟩, .inl ⟨fun _ => True, .refl _ _⟩⟩
  · rcases busyAction_cases ha with ⟨-, rfl⟩ | ⟨-, rfl⟩ | ⟨rfl, rfl⟩
    · exact ⟨_, ⟨.inr he, rfl⟩, .inl ⟨fun _ => True, .refl _ _⟩⟩
    · exact ⟨_, ⟨.inr he, rfl⟩, .inl ⟨fun _ => True, .refl _ _⟩⟩
    · exact ⟨{ s with env := es, host := rest }, ⟨.inr he, rfl⟩, .inr (.inr ⟨by rw [hh]; rfl, rfl⟩)⟩
  · obtain ⟨P, e⟩ := resume_effect s
    exact ⟨s, ⟨.inl rfl, rfl⟩, .inl ⟨P, e⟩⟩

theorem TurnTaken.advances {s u : State} (h : TurnTaken s u) : Advances s u := by
  obtain ⟨he | he, hrest⟩ := h
  · exact .of_eq he (by rw [hrest])
  · exact ⟨[.hostTurn], he, by rw [hrest]; rfl⟩

theorem TurnTaken.readReg {s u : State} (h : TurnTaken s u) (r : Reg) : u.readReg r = s.readReg r := by
  rw [h.rest]
  rfl

/-- Settles O49: the host's turn is no byte, and what follows it takes nothing or what a command takes. -/
theorem streamOnlyAdvances : Obligations.StreamOnlyAdvances := by
  intro s t h
  obtain ⟨u, hu, ⟨_, e⟩ | ⟨r, w, -, -, rfl⟩ | ⟨-, rfl⟩⟩ := step_effect h
  · exact hu.advances.trans e.stream
  · exact hu.advances.trans (by cases r <;> exact .of_eq rfl rfl)
  · exact hu.advances.trans (.of_eq rfl rfl)

/-! ### Who writes the registers -/

theorem step_cfg {s t : State} (h : step s = .next t) : t.cfg = s.cfg := by
  obtain ⟨u, hu, ht⟩ := step_effect h
  have hcfg : u.cfg = s.cfg := by rw [hu.rest]
  rcases ht with ⟨_, e⟩ | ⟨r, w, -, -, rfl⟩ | ⟨-, rfl⟩
  · exact e.cfg.trans hcfg
  · exact (State.writeReg_cfg u w r).trans hcfg
  · exact hcfg

/-- The registers whose value comes from the host alone (R17, R21). -/
def Reg.hostWritten : Reg → Bool
  | .arg0 | .arg1 | .arg2 | .timeout => true
  | .cmd | .res | .status | .reserved => false

theorem Effect.readReg {P : Nat → Prop} {s t : State} (h : Effect P s t) {r : Reg} (hr : r.hostWritten = true) :
    t.readReg r = s.readReg r := by
  cases r with
  | arg0 => exact h.arg0
  | arg1 => exact h.arg1
  | arg2 => exact h.arg2
  | timeout => exact h.timeout
  | cmd | res | status | reserved => cases hr

/-- A register write reaches its own register and no other of these. -/
theorem State.readReg_writeReg {s : State} {w : Word} {r : Reg} (hr : r.hostWritten = true) (q : Reg) :
    (s.writeReg w q).readReg r = if q = r then w else s.readReg r := by
  cases r with
  | arg0 | arg1 | arg2 | timeout => cases q <;> rfl
  | cmd | res | status | reserved => cases hr

theorem step_hostWritten {s t : State} {r : Reg} (hr : r.hostWritten = true) (h : step s = .next t)
    (hne : t.readReg r ≠ s.readReg r) :
    s.busy = false ∧ (∃ w, s.host.head? = some (.writeReg r w)) ∨ s.host.head? = some .reset := by
  obtain ⟨u, hu, ht⟩ := step_effect h
  rw [← hu.readReg] at hne
  rcases ht with ⟨_, e⟩ | ⟨q, w, hb, hh, rfl⟩ | ⟨hh, -⟩
  · exact absurd (e.readReg hr) hne
  · have hq : q = r := by_contra fun hq => hne ((State.readReg_writeReg hr q).trans (if_neg hq))
    exact .inl ⟨hb, w, hq ▸ hh⟩
  · exact .inr hh

/-- A body that changes RES ends the command (R18). -/
theorem BodySpec.res_changed {i : Instr} {r : Running} {s t : State} (h : BodySpec i r s t) (hne : t.res ≠ s.res) :
    t.done = true ∧ t.busy = false := by
  rcases h.ended_or_waits with hend | hw
  · exact ⟨hend.done, hend.busy⟩
  · exact absurd hw.res hne

theorem writeCmd_res_changed {w : Word} {s t : State} (h : writeCmd w s = .next t) (hne : t.res ≠ s.res) :
    t.done = true ∧ t.busy = false := by
  rcases writeCmd_cases w s with ⟨i, -, he⟩ | ⟨-, -, he⟩ <;> rw [he] at h
  · rcases exec_turn_or_body h with ⟨-, rfl⟩ | rfl
    · exact absurd rfl hne
    · exact (started_spec i s).res_changed hne
  · cases h
    exact ⟨rfl, rfl⟩

theorem resume_res_changed {s : State} (hne : (resume s).res ≠ s.res) : (resume s).done = true ∧ (resume s).busy = false := by
  cases hr : s.running with
  | some r =>
    rw [resume_some hr] at hne ⊢
    exact (bodyOf_spec r.instr r s).res_changed hne
  | none => exact absurd (congrArg State.res (resume_none hr)) hne

theorem step_res_changed {s t : State} (h : step s = .next t) (hne : t.res ≠ s.res) :
    t.done = true ∧ t.busy = false ∧ (s.busy = true ∨ ∃ w, s.host.head? = some (.writeReg .cmd w)) ∨
      s.host.head? = some .reset := by
  rcases step_cases h with ⟨-, -, rfl⟩ | ⟨a, rest, hb, hh, ha⟩ | ⟨es, -, -, -, rfl⟩ | ⟨es, a, rest, -, -, hh, ha⟩ | ⟨hb, -, rfl⟩
  · exact absurd rfl hne
  · by_cases hreset : a = .reset
    · exact .inr (by rw [hh, hreset]; rfl)
    · by_cases hcmd : ∃ w, a = .writeReg .cmd w
      · obtain ⟨w, rfl⟩ := hcmd
        obtain ⟨hdone, hbusy⟩ := writeCmd_res_changed (s := { s with host := rest, reply := .nothing }) ha hne
        exact .inl ⟨hdone, hbusy, .inr ⟨w, by rw [hh]; rfl⟩⟩
      · obtain ⟨-, -, hres, -⟩ := idleAction_keeps_result ha (not_exists.1 hcmd) hreset
        exact absurd hres hne
  · exact absurd rfl hne
  · rcases busyAction_cases ha with ⟨-, rfl⟩ | ⟨-, rfl⟩ | ⟨rfl, -⟩
    · exact absurd rfl hne
    · exact absurd rfl hne
    · exact .inr (by rw [hh]; rfl)
  · obtain ⟨hdone, hbusy⟩ := resume_res_changed hne
    exact .inl ⟨hdone, hbusy, .inl hb⟩

/-- Settles O50: the four registers by `step_hostWritten`, RES by `step_res_changed`. -/
theorem whoWritesTheRegisters : Obligations.WhoWritesTheRegisters := fun _ _ h =>
  ⟨step_cfg h, step_hostWritten (r := .arg0) rfl h, step_hostWritten (r := .arg1) rfl h, step_hostWritten (r := .arg2) rfl h,
    step_hostWritten (r := .timeout) rfl h, step_res_changed h⟩

end Sys2Proof.Machine
end

