-- ==== Sys2Proof/Proofs/HostPort.lean ====
section
/-! The host port and the small claims around it: how a command comes to run (R19, R47, R49), the register map and STATUS (R16, R20),
what a busy block refuses (R135), `WAIT` (R59), and the state after reset (R29). -/

namespace Sys2Proof.Machine

/-! ### How a command comes to run -/

theorem decodeTableWord_encode (i : Instr) : decodeTableWord 32 (encode i).toNat = some i := by
  have hw : tableWord 32 (encode i).toNat = (encode i).toNat := Nat.mod_eq_of_lt (encode i).isLt
  rw [decodeTableWord, hw, if_pos (encode i).isLt, BitVec.ofNat_toNat, BitVec.setWidth_eq, decode_encode]

/-- Settles O1: `decode_encode`, and the table entry point reads the same word. -/
theorem encodedCommandDecodesToItself : Obligations.EncodedCommandDecodesToItself :=
  fun i _ => ⟨decode_encode i, decodeTableWord_encode i⟩

theorem writeCmd_command {w : Word} {i : Instr} (h : decode w = .command i) (s : State) : writeCmd w s = exec i s := by
  rw [writeCmd, h]

/-- Settles O4: an idle write to CMD is `writeCmd`. -/
theorem stepRunsTheDecodedCommand : Obligations.StepRunsTheDecodedCommand := by
  intro s w i rest hb hh hd _
  rw [step_writeCmd hb hh, writeCmd_command hd]

/-- Settles O5: the placed state is idle and its host writes the command's word to CMD. -/
theorem placedWordRunsNext : Obligations.PlacedWordRunsNext := by
  intro s i
  have hw : BitVec.ofNat 32 (tableWord 32 (encode i).toNat) = encode i := by
    rw [tableWord, Nat.mod_eq_of_lt (encode i).isLt, BitVec.ofNat_toNat, BitVec.setWidth_eq]
  rw [State.withFetchWord, hw]
  exact stepRunsTheDecodedCommand (s.withCommandWord (encode i)) (encode i) i s.host rfl rfl (decode_encode i) (by cases i <;> rfl)

/-! ### Registers -/

theorem step_readReg {s : State} {r : Reg} {rest : List HostAction} (hb : s.busy = false) (hh : s.host = .readReg r :: rest) :
    step s = .next { s with host := rest, reply := .word (s.readReg r) } := by
  rw [step_idle_cons hb hh]
  rfl

theorem idleAction_writeReg {r : Reg} (hr : r ≠ .cmd) (w : Word) (s : State) :
    idleAction (.writeReg r w) s = .next ({ s with reply := .nothing }.writeReg w r) := by
  cases r with
  | cmd => exact absurd rfl hr
  | arg0 | arg1 | arg2 | res | status | timeout | reserved => rfl

/-- Settles O40: the offsets are a table; a read answers `State.readReg` and a write is `State.writeReg`, register by register. -/
theorem registerMap : Obligations.RegisterMap := by
  refine ⟨rfl, fun s r rest hb hh => ?read, fun s r w rest hb hr hh => ?write⟩
  case read =>
    rw [step_readReg hb hh]
    cases r <;> rfl
  case write =>
    rw [step_idle_cons hb hh, idleAction_writeReg hr]
    cases r <;> rfl

/-- Settles O41: STATUS is a word of five fields side by side. -/
theorem statusWordFields : Obligations.StatusWordFields := by
  have fields : ∀ (c : Nibble) (d b : Bool),
      let w : Word := (0 : BitVec 24) ++ c ++ (0 : BitVec 2) ++ BitVec.ofBool d ++ BitVec.ofBool b
      w.extractLsb' 0 1 = BitVec.ofBool b ∧ w.extractLsb' 1 1 = BitVec.ofBool d ∧ w.extractLsb' 2 2 = 0 ∧
        w.extractLsb' 4 4 = c ∧ w.extractLsb' 8 24 = 0 := by decide
  exact fun s => fields s.err.code s.done s.busy

/-! ### The busy block -/

theorem busyAction_pollStatus (s : State) : busyAction (.readReg .status) s = .next { s with reply := .word s.statusWord } := rfl

theorem busyAction_wait (s : State) :
    busyAction .wait s = .next { s with host := .wait :: s.host, reply := .word s.statusWord } := rfl

theorem busyAction_other {a : HostAction} (hp : a ≠ .readReg .status) (hw : a ≠ .wait) (hr : a ≠ .reset) (s : State) :
    busyAction a s = .refused .hostAccessWhileBusy := by
  cases a with
  | readReg r =>
    cases r with
    | status => exact absurd rfl hp
    | cmd | arg0 | arg1 | arg2 | res | timeout | reserved => rfl
  | wait => exact absurd rfl hw
  | reset => exact absurd rfl hr
  | writeReg | readMem | writeMem => rfl

/-- Settles O43: a host turn of a running command is `busyAction`, by the host's action. -/
theorem busyBlockRefusesTheHost : Obligations.BusyBlockRefusesTheHost := by
  refine ⟨fun s es a rest hb he hh => ?_, fun i s hb => exec_busy hb⟩
  rw [step_turn_cons hb he hh]
  refine ⟨fun ha => ?poll, fun ha => ?wait, fun hp hw hr => busyAction_other hp hw hr _⟩
  case poll =>
    rw [ha, busyAction_pollStatus]
    rfl
  case wait =>
    rw [ha, busyAction_wait, hh, ha]
    rfl

/-- Settles O27: the read of a `WAIT` line, idle and at a host turn. -/
theorem waitRepeatsWhileBusy : Obligations.WaitRepeatsWhileBusy := by
  intro s rest hh
  refine ⟨fun hb => ?idle, fun es hb he => ?busy⟩
  case idle =>
    rw [step_idle_cons hb hh]
    rfl
  case busy =>
    rw [step_turn_cons hb he hh, busyAction_wait]
    rfl

/-! ### Reset -/

/-- Settles O45: the fields of `State.reset`; no byte is listed, so each is a free value. -/
theorem resetState : Obligations.ResetState :=
  ⟨rfl, rfl, rfl, rfl, rfl, rfl, rfl, rfl, rfl, rfl, fun _ => rfl⟩

end Sys2Proof.Machine
end

