-- ==== Sys2Proof/Proofs/Bounds.lean ====
section
/-! Numeric bounds: the quantizer's arithmetic (R81), HDR's height (R92, R96), and what a run of the reader can take (R64). -/

namespace Sys2Proof.Machine

/-! ### Distances -/

theorem absDiff_le (a b : Byte) : absDiff a b ≤ 255 := by
  have ha := a.isLt
  have hb := b.isLt
  unfold absDiff
  omega

/-- Settles O15: each of the three squares is at most 255². -/
theorem distancesAreBounded : Obligations.DistancesAreBounded := by
  intro x p
  have sq (a b : Byte) : absDiff a b ^ 2 ≤ 255 ^ 2 := Nat.pow_le_pow_left (absDiff_le a b) 2
  have hr := sq x.r p.r
  have hg := sq x.g p.g
  have hb := sq x.b p.b
  refine ⟨absDiff_le _ _, ?_⟩
  unfold dist2
  omega

/-! ### The height field -/

/-- The signed reading of a header field (R11). -/
theorem toInt_ofNat_field {n : Nat} (h : n < 2 ^ 32) :
    (BitVec.ofNat 32 n).toInt = if n < 2 ^ 31 then (n : Int) else (n : Int) - 2 ^ 32 := by
  rw [BitVec.toInt_eq_toNat_cond, BitVec.toNat_ofNat, Nat.mod_eq_of_lt h]
  split_ifs <;> omega

/-- With the signature, the bits per pixel and the width checked, the height decides (R91). -/
theorem headerError_height {c : Config} {h : Nat → Byte} (h0 : h 0 = 0x42) (h1 : h 1 = 0x4D)
    (hbpp : le16 (h 28) (h 29) = 24) (hw : (BitVec.ofNat 32 (le32 (h 18) (h 19) (h 20) (h 21))).toInt = c.width) :
    headerError c h =
      if (BitVec.ofNat 32 (le32 (h 22) (h 23) (h 24) (h 25))).toInt.natAbs = c.height then .none else .hdrDim := by
  rw [headerError, if_neg (by simp [h0, h1]), if_neg (by simp [hbpp])]
  simp only [hw, ne_eq, not_true_eq_false, false_or, ite_not]

/-- Settles O20: the height field read as a signed number is HEIGHT, -HEIGHT or -2^31, and HEIGHT is below 2^31. -/
theorem hdrHeightSign : Obligations.HdrHeightSign := by
  intro s hb hn hwf hl hf h0 h1 h28 h29 hw
  obtain ⟨⟨-, -, hpos, hwidth, hheight, -⟩, -⟩ := hwf
  let a := s.arg0.toNat
  have hfield (o : Nat) : le32 (s.headerByte a o) (s.headerByte a (o + 1)) (s.headerByte a (o + 2)) (s.headerByte a (o + 3)) =
      s.memRead (a + o) 4 := (s.memRead_four (a + o)).symm
  have hbpp : le16 (s.headerByte a 28) (s.headerByte a 29) = 24 := by
    rw [State.headerByte, State.headerByte, h28, h29]
    rfl
  have hwf : (BitVec.ofNat 32 (s.memRead (a + 18) 4)).toInt = s.cfg.width := by
    rw [hw, toInt_ofNat_field (by omega), if_pos hwidth]
  have herr := headerError_height (c := s.cfg) (h := s.headerByte a) h0 h1 hbpp (by rwa [hfield 18])
  rw [hfield 22] at herr
  rw [exec_hdr_inside hb hn hl hf, headerRes, herr, hfield 10]
  refine ⟨fun hh => ?accepted, fun hh => ?rejected⟩
  case accepted =>
    have habs : (BitVec.ofNat 32 (s.memRead (a + 22) 4)).toInt.natAbs = s.cfg.height := by
      rcases hh with hh | hh
      · rw [hh, toInt_ofNat_field (by omega), if_pos hheight]
        rfl
      · rw [hh, toInt_ofNat_field (by omega), if_neg (by omega)]
        omega
    rw [if_pos habs]
  case rejected =>
    have habs : (BitVec.ofNat 32 (s.memRead (a + 22) 4)).toInt.natAbs ≠ s.cfg.height := by
      rw [hh, toInt_ofNat_field (by decide), if_neg (by decide)]
      omega
    rw [if_neg habs]

/-! ### The length of a run -/

theorem tickCount_append (es fs : List Event) : tickCount (es ++ fs) = tickCount es + tickCount fs := by
  simp [tickCount]

/-- The ticks that a run of the engine may take beyond those of a successful one. -/
def RunStatus.lastTick : RunStatus → Nat
  | .ok => 0
  | .fail | .paused => 1

/-- Each byte still wanted is worth at most T' - 1 ticks, and the tick that ends a failed run comes on top (R63, R64). -/
theorem readerRun_tickCount {n t : Nat} (es : List Event) (got stall : Nat) (hstall : stall < max t 1)
    (hdone : n ≤ got → stall = 0) :
    tickCount es + stall ≤ tickCount (readerRun n t got stall es).rest + (n - got) * (max t 1 - 1) +
      (readerRun n t got stall es).status.lastTick := by
  induction es generalizing got stall with
  | nil =>
    rcases Nat.lt_or_ge got n with h | h
    · rw [readerRun_nil h]
      have hone := Nat.le_mul_of_pos_left (max t 1 - 1) (Nat.sub_pos_of_lt h)
      simp only [tickCount_nil, RunStatus.lastTick]
      omega
    · rw [readerRun_ready h, hdone h]
      simp
  | cons e es ih =>
    rcases Nat.lt_or_ge got n with h | h
    · have hone := Nat.le_mul_of_pos_left (max t 1 - 1) (Nat.sub_pos_of_lt h)
      cases e with
      | byte v =>
        have hrest := ih (got + 1) 0 (by omega) fun _ => rfl
        have hmul : (n - got) * (max t 1 - 1) = (n - (got + 1)) * (max t 1 - 1) + (max t 1 - 1) := by
          rw [← Nat.succ_mul]
          congr 1
          omega
        rw [readerRun_byte h, tickCount_byte, Run.prepend_rest, Run.prepend_status, hmul]
        omega
      | tick =>
        by_cases ht : t ≤ stall + 1
        · rw [readerRun_tick_fail h ht]
          simp only [tickCount_tick, RunStatus.lastTick]
          omega
        · have hrest := ih got (stall + 1) (by omega) fun hle => absurd h hle.not_gt
          rw [readerRun_tick_on h (Nat.not_le.1 ht), tickCount_tick]
          omega
      | hostTurn =>
        rw [readerRun_turn h]
        simp only [RunStatus.lastTick]
        omega
    · rw [readerRun_ready h, hdone h]
      exact Nat.le_add_right _ _ |>.trans (Nat.le_add_right _ _)

/-- Settles O21: the bytes by the engine's count, the ticks by `readerRun_tickCount`. -/
theorem readerRunIsBounded : Obligations.ReaderRunIsBounded := by
  intro n t es hn hes
  have spec := readerRun_spec n t.toNat es 0 0 (Nat.zero_le n)
  have hticks := readerRun_tickCount (n := n) (t := t.toNat) es 0 0 (by omega) fun _ => rfl
  have hpaused := readerRun_not_paused (n := n) (t := t.toNat) (got := 0) (stall := 0) (Nat.zero_le n) hes
  generalize readerRun n t.toNat 0 0 es = u at *
  obtain ⟨pre, he, hbytes, -⟩ := spec.taken
  have hgot : u.got = byteCount pre := by rw [spec.got_eq, hbytes, Nat.zero_add]
  have hgot_le := hgot ▸ spec.got_le
  have hpre : tickCount es = tickCount pre + tickCount u.rest := by rw [← tickCount_append, ← he]
  rw [hpre, Nat.sub_zero] at hticks
  refine ⟨pre, he, hgot_le, ?_, fun hok => ?_, ?_⟩
  · have hlast : u.status.lastTick ≤ 1 := by cases u.status <;> simp [RunStatus.lastTick]
    unfold effTimeout
    omega
  · rw [hok, RunStatus.lastTick] at hticks
    have hgot_n := hgot ▸ spec.ok_got hok
    unfold effTimeout
    exact ⟨hgot_n, by omega⟩
  · cases hs : u.status with
    | ok => exact .inl rfl
    | fail => exact .inr rfl
    | paused => exact absurd hs hpaused

end Sys2Proof.Machine
end

