-- ==== Sys2Proof/Proofs/HostTurns.lean ====
section
/-! Commands that the host watches (R41, R59, R117; log entry 7): a command that waited goes on as if there had been no turn, so it ends
like the atomic command, the `WAIT` after it is done then, and every script comes to its end. -/

namespace Sys2Proof.Machine

/-! ### The engine around a host turn -/

/-- A run that waited for the host goes on, whatever events follow, as the run without the turn does. -/
theorem readerRun_paused_append {n t : Nat} {pre es : List Event} (hnt : NoHostTurn pre) (R : List Event) (got stall : Nat)
    (hp : (readerRun n t got stall (pre ++ .hostTurn :: es)).status = .paused) :
    readerRun n t got stall (pre ++ R) =
      (readerRun n t (readerRun n t got stall (pre ++ .hostTurn :: es)).got
        (readerRun n t got stall (pre ++ .hostTurn :: es)).stall R).prepend
        (readerRun n t got stall (pre ++ .hostTurn :: es)).bytes := by
  induction pre generalizing got stall with
  | nil =>
    rcases Nat.lt_or_ge got n with h | h
    · have hturn := readerRun_turn (t := t) h stall es
      rw [List.nil_append, List.nil_append, hturn]
      rfl
    · rw [List.nil_append, readerRun_ready h] at hp
      cases hp
  | cons e pre ih =>
    obtain ⟨he, hpre⟩ := noHostTurn_cons.1 hnt
    rw [List.cons_append] at hp ⊢
    rw [List.cons_append]
    rcases Nat.lt_or_ge got n with h | h
    · cases e with
      | byte v =>
        rw [readerRun_byte h] at hp ⊢
        rw [readerRun_byte h, ih hpre _ _ hp, Run.prepend_prepend]
        rfl
      | tick =>
        by_cases ht : t ≤ stall + 1
        · rw [readerRun_tick_fail h ht] at hp
          cases hp
        · rw [readerRun_tick_on h (Nat.not_le.1 ht)] at hp ⊢
          rw [readerRun_tick_on h (Nat.not_le.1 ht)]
          exact ih hpre _ _ hp
      | hostTurn => exact absurd rfl he
    · rw [readerRun_ready h] at hp
      cases hp

/-- Where the first host turn stands is determined. -/
theorem firstTurn_unique {pre pre' post post' : List Event} (h : NoHostTurn pre) (h' : NoHostTurn pre')
    (he : pre ++ .hostTurn :: post = pre' ++ .hostTurn :: post') : pre = pre' ∧ post = post' := by
  induction pre generalizing pre' with
  | nil =>
    cases pre' with
    | nil => exact ⟨rfl, (List.cons.inj he).2⟩
    | cons e' pre' => exact absurd (List.cons.inj he).1.symm (noHostTurn_cons.1 h').1
  | cons e pre ih =>
    cases pre' with
    | nil => exact absurd (List.cons.inj he).1 (noHostTurn_cons.1 h).1
    | cons e' pre' =>
      obtain ⟨hhead, htail⟩ := List.cons.inj he
      obtain ⟨hpre, hpost⟩ := ih (noHostTurn_cons.1 h).2 (noHostTurn_cons.1 h').2 htail
      exact ⟨by rw [hhead, hpre], hpost⟩

theorem blockEvents_append (es fs : List Event) : blockEvents (es ++ fs) = blockEvents es ++ blockEvents fs := List.filter_append ..

theorem blockEvents_eq_self {es : List Event} (h : NoHostTurn es) : blockEvents es = es :=
  List.filter_eq_self.2 fun _ he => decide_eq_true fun ht => h (ht ▸ he)

/-! ### A body that goes on -/

/-- `s` with other events. -/
def State.withEnv (s : State) (es : List Event) : State := { s with env := es }

theorem withEnv_unseen (es : List Event) : Unseen (State.withEnv · es) := ⟨fun _ => rfl, fun _ _ => rfl, fun _ _ _ => rfl⟩

/-- What follows a read into `MEM` does not look at the hidden state and the events. -/
structure EndsAlike (done : State → State) : Prop where
  running : ∀ (t : State) (q : Option Running), done { t with running := q } = done t
  env : ∀ (t : State) (es : List Event), done (t.withEnv es) = (done t).withEnv es

theorem complete_endsAlike (v : Word) : EndsAlike (State.complete v) := ⟨fun _ _ => rfl, fun _ _ => rfl⟩

theorem convertPixels_complete_endsAlike (scratch p0 base n x : Nat) (v : Word) :
    EndsAlike fun t => (convertPixels scratch p0 base x n t).complete v where
  running t q := by
    have hq : Unseen fun t => { t with running := q } := ⟨fun _ => rfl, fun _ _ => rfl, fun _ _ _ => rfl⟩
    rw [hq.convertPixels]
    rfl
  env t es := by
    rw [(withEnv_unseen es).convertPixels]
    rfl

section
variable {n addr : Nat} {r : Running} {s : State} {u w : Run} {done : State → State}

/-- `readInto` as a function of the engine's run. -/
def readOutcome (addr n : Nat) (done : State → State) (r : Running) (u : Run) (s : State) : State :=
  let s' := (s.consume u).setBytes (addr + r.got) u.bytes
  match u.status with
  | .ok => done s'
  | .fail => (s'.scramble addr n).raise .timeout
  | .paused => s'.keep r u r.chunk

theorem readInto_eq_readOutcome (addr : Nat) (done : State → State) (h : engine n r s = u) :
    readInto addr n done r s = readOutcome addr n done r u s := by
  subst h
  rfl

/-- `skpBody` as a function of the engine's run. -/
def skpOutcome (r : Running) (u : Run) (s : State) : State :=
  match u.status with
  | .ok => (s.consume u).complete 0
  | .fail => (s.consume u).raise .timeout
  | .paused => (s.consume u).keep r u (u.bytes.foldl (chunkPush s.cfg.skipChunk) r.chunk)

theorem skpBody_eq_skpOutcome (h : engine r.ops.a1.toNat r s = u) : skpBody r s = skpOutcome r u s := by
  subst h
  rfl

/-! #### Two stretches -/

/-- Two stretches of events are taken like one. -/
theorem consume_prepend (s : State) (u w : Run) (E R : List Event) :
    (s.withEnv E).consume (w.prepend u.bytes) = ((s.consume u).withEnv R).consume w := by
  have hlen := Nat.add_assoc s.spos u.bytes.length w.bytes.length
  rw [State.consume, Run.prepend_bytes, List.length_append]
  exact congrArg (fun p => ({ s with env := w.rest, spos := p } : State)) hlen.symm

/-- Two stretches of bytes are stored like one. -/
theorem setBytes_append (s : State) (a : Nat) (vs ws : List Byte) :
    s.setBytes a (vs ++ ws) = (s.setBytes a vs).setBytes (a + vs.length) ws := by
  rw [State.setBytes, Memory.writeList_append]
  rfl

theorem readOutcome_goesOn (hdone : EndsAlike done) (hp : u.status = .paused) (hgot : u.got = r.got + u.bytes.length)
    (E R : List Event) :
    readOutcome addr n done r (w.prepend u.bytes) (s.withEnv E) =
      readOutcome addr n done (r.after u r.chunk) w ((readOutcome addr n done r u s).withEnv R) := by
  have hafter : ((s.withEnv E).consume (w.prepend u.bytes)).setBytes (addr + r.got) (u.bytes ++ w.bytes) =
      { ((((s.consume u).setBytes (addr + r.got) u.bytes).keep r u r.chunk).withEnv R).consume w |>.setBytes (addr + u.got)
          w.bytes with running := s.running } := by
    rw [setBytes_append, consume_prepend s u w E R, hgot, Nat.add_assoc addr]
    rfl
  have hgot' : (r.after u r.chunk).got = u.got := rfl
  simp only [readOutcome, hp, Run.prepend_status, Run.prepend_bytes, hafter, hgot']
  generalize (((((s.consume u).setBytes (addr + r.got) u.bytes).keep r u r.chunk).withEnv R).consume w).setBytes (addr + u.got)
    w.bytes = t
  cases w.status with
  | ok => exact hdone.running t s.running
  | fail => rfl
  | paused => rfl

theorem skpOutcome_goesOn (hp : u.status = .paused) (E R : List Event) :
    skpOutcome r (w.prepend u.bytes) (s.withEnv E) =
      skpOutcome (r.after u (u.bytes.foldl (chunkPush s.cfg.skipChunk) r.chunk)) w ((skpOutcome r u s).withEnv R) := by
  simp only [skpOutcome, hp, Run.prepend_status, Run.prepend_bytes, consume_prepend s u w E R, List.foldl_append]
  cases w.status <;> rfl

/-! #### A run that ended, without the turns -/

theorem readOutcome_withEnv (hdone : EndsAlike done) (hp : u.status ≠ .paused) (E R : List Event) :
    readOutcome addr n done r { u with rest := R } (s.withEnv E) = (readOutcome addr n done r u s).withEnv R := by
  unfold readOutcome
  cases h : u.status with
  | ok => exact hdone.env ((s.consume u).setBytes (addr + r.got) u.bytes) R
  | fail => rfl
  | paused => exact absurd h hp

theorem skpOutcome_withEnv (hp : u.status ≠ .paused) (E R : List Event) :
    skpOutcome r { u with rest := R } (s.withEnv E) = (skpOutcome r u s).withEnv R := by
  unfold skpOutcome
  cases h : u.status with
  | ok => rfl
  | fail => rfl
  | paused => exact absurd h hp

end

/-! ### The shape of a body -/

/-- The body of `i` with the operands `o` reads into `MEM`, or is SKP's, or ends without looking at the events. -/
inductive BodyShape (i : Instr) (o : Operands) (c : Config) : Prop where
  | reads (addr : Nat) (done : State → State) (hdone : EndsAlike done)
      (h : ∀ r s, r.ops = o → s.cfg = c → bodyOf i r s = readInto addr (wanted c i o) done r s)
  | skips (hi : i = .skp)
  | atOnce (henv : ∀ r s es, r.ops = o → s.cfg = c → bodyOf i r (s.withEnv es) = (bodyOf i r s).withEnv es)
      (hend : ∀ r s, r.ops = o → s.cfg = c → (bodyOf i r s).running = none)

theorem BodyShape.raises {i : Instr} {o : Operands} {c : Config} (e : Err)
    (h : ∀ r s, r.ops = o → s.cfg = c → bodyOf i r s = s.raise e) : BodyShape i o c := by
  refine .atOnce (fun r s es ho hc => ?_) fun r s ho hc => ?_
  · rw [h r s ho hc, h r (s.withEnv es) ho hc]
    rfl
  · rw [h r s ho hc]
    rfl

section
variable (o : Operands) (c : Config)

theorem rdx_shape : BodyShape .rdx o c := by
  by_cases hf : Fits c o.a0.toNat o.a1.toNat
  · refine .reads o.a0.toNat _ (complete_endsAlike 0) fun r s ho hc => ?_
    rw [← ho, ← hc] at hf ⊢
    exact if_pos hf
  · exact .raises .addr fun r s ho hc => if_neg (by rwa [ho, hc])

theorem map_shape : BodyShape .map o c := by
  refine .atOnce (fun r s es _ _ => (withEnv_unseen es).mapBody (fun _ _ _ => rfl) r s) fun r s _ _ => ?_
  rw [bodyOf, mapBody]
  split_ifs <;> rfl

theorem pck_shape : BodyShape .pck o c := by
  refine .atOnce (fun r s es _ _ => (withEnv_unseen es).pckBody (fun _ _ _ => rfl) r s) fun r s _ _ => ?_
  rw [bodyOf, pckBody]
  split_ifs <;> rfl

theorem hdr_shape : BodyShape .hdr o c := by
  refine .atOnce (fun r s es _ _ => (withEnv_unseen es).hdrBody (fun _ _ _ => rfl) r s) fun r s _ _ => ?_
  rw [bodyOf, hdrBody]
  split_ifs
  · rfl
  · split <;> rfl
  · rfl

theorem cvr_shape : BodyShape .cvr o c := by
  by_cases hf : RowFits c o.a0.toNat o.a1.toNat o.a2.toNat
  · by_cases hd : RowDisjoint c o.a0.toNat o.a1.toNat o.a2.toNat
    · refine .reads o.a0.toNat _
        (convertPixels_complete_endsAlike o.a0.toNat o.a1.toNat o.a2.toNat c.width 0 0) fun r s ho hc => ?_
      rw [← ho, ← hc] at hf hd ⊢
      exact (if_pos hf).trans (if_pos hd)
    · refine .raises .operand fun r s ho hc => ?_
      rw [← ho, ← hc] at hf hd
      exact (if_pos hf).trans (if_neg hd)
  · exact .raises .addr fun r s ho hc => if_neg (by rwa [ho, hc])

theorem bodyShape : (i : Instr) → BodyShape i o c
  | .rdx => rdx_shape o c
  | .skp => .skips rfl
  | .map => map_shape o c
  | .pck => pck_shape o c
  | .hdr => hdr_shape o c
  | .cvr => cvr_shape o c

end

/-! ### A body that waited, and a body that ended -/

section
variable {i : Instr} {n : Nat} {r : Running} {s : State} {pre es : List Event}

theorem engine_goesOn (hp : (engine n r s).status = .paused) (hs : s.env = pre ++ .hostTurn :: es) (hpre : NoHostTurn pre)
    (R : List Event) :
    engine n r (s.withEnv (pre ++ R)) =
      (readerRun n r.ops.t.toNat (engine n r s).got (engine n r s).stall R).prepend (engine n r s).bytes := by
  unfold engine at hp ⊢
  rw [hs] at hp ⊢
  exact readerRun_paused_append hpre R _ _ hp

theorem engine_after_withEnv (n : Nat) (r : Running) (u : Run) (chunk : List Byte) (s : State) (R : List Event) :
    engine n (r.after u chunk) (s.withEnv R) = readerRun n r.ops.t.toNat u.got u.stall R := rfl

theorem readInto_goesOn {addr : Nat} {done : State → State} (hdone : EndsAlike done) (hp : (engine n r s).status = .paused)
    (hs : s.env = pre ++ .hostTurn :: es) (hpre : NoHostTurn pre) (R : List Event) :
    readInto addr n done r (s.withEnv (pre ++ R)) =
      readInto addr n done (r.after (engine n r s) r.chunk) ((readInto addr n done r s).withEnv R) := by
  have hgot := (engine_spec_of_paused hp).got_eq
  have hrun := engine_goesOn hp hs hpre R
  rw [readInto_eq_readOutcome addr done hrun, readInto_eq_readOutcome (s := s) addr done rfl]
  generalize engine n r s = u at *
  rw [readOutcome_goesOn hdone hp hgot _ R]
  exact (readInto_eq_readOutcome addr done (engine_after_withEnv ..)).symm

theorem skpBody_goesOn (hp : (engine r.ops.a1.toNat r s).status = .paused) (hs : s.env = pre ++ .hostTurn :: es)
    (hpre : NoHostTurn pre) (R : List Event) :
    skpBody r (s.withEnv (pre ++ R)) =
      skpBody (r.after (engine r.ops.a1.toNat r s)
        ((engine r.ops.a1.toNat r s).bytes.foldl (chunkPush s.cfg.skipChunk) r.chunk)) ((skpBody r s).withEnv R) := by
  have hrun := engine_goesOn hp hs hpre R
  rw [skpBody_eq_skpOutcome hrun, skpBody_eq_skpOutcome (s := s) rfl]
  generalize engine r.ops.a1.toNat r s = u at *
  rw [skpOutcome_goesOn hp _ R]
  exact (skpBody_eq_skpOutcome (engine_after_withEnv ..)).symm

/-- A body that waits goes on, whatever events follow the host's turn, as it would have without the turn. -/
theorem bodyOf_goesOn (hw : Waits (wanted s.cfg i r.ops) r s (bodyOf i r s)) (hs : s.env = pre ++ .hostTurn :: es)
    (hpre : NoHostTurn pre) :
    ∃ r', (bodyOf i r s).running = some r' ∧ r'.instr = r.instr ∧
      ∀ R, bodyOf i r (s.withEnv (pre ++ R)) = bodyOf i r' ((bodyOf i r s).withEnv R) := by
  have hcfg := (bodyOf_spec i r s).effect.cfg
  have hp := hw.paused
  obtain ⟨addr, done, hdone, h⟩ | rfl | ⟨-, hend⟩ := bodyShape r.ops s.cfg i
  · generalize wanted s.cfg i r.ops = n at *
    let r' := r.after (engine n r s) r.chunk
    refine ⟨r', by rw [h r s rfl rfl, readInto_paused hp]; rfl, rfl, fun R => ?_⟩
    calc bodyOf i r (s.withEnv (pre ++ R))
        = readInto addr n done r (s.withEnv (pre ++ R)) := h r _ rfl rfl
      _ = readInto addr n done r' ((readInto addr n done r s).withEnv R) := readInto_goesOn hdone hp hs hpre R
      _ = readInto addr n done r' ((bodyOf i r s).withEnv R) := by rw [h r s rfl rfl]
      _ = bodyOf i r' ((bodyOf i r s).withEnv R) := (h r' ((bodyOf i r s).withEnv R) rfl hcfg).symm
  · have hp : (engine r.ops.a1.toNat r s).status = .paused := hp
    refine ⟨r.after _ _, ?_, rfl, skpBody_goesOn hp hs hpre⟩
    rw [bodyOf, skpBody_eq_skpOutcome rfl, skpOutcome, hp]
    rfl
  · obtain ⟨_, hrun, -⟩ := hw.running
    exact nomatch hrun.symm.trans (hend r s rfl rfl)

theorem engine_blockEvents (hp : (engine n r s).status ≠ .paused) :
    engine n r (s.withEnv (blockEvents s.env)) = { engine n r s with rest := blockEvents (engine n r s).rest } :=
  readerRun_blockEvents_ended n r.ops.t.toNat s.env r.got r.stall hp

theorem EndsAlike.env_eq {done : State → State} (h : EndsAlike done) (t : State) : (done t).env = t.env :=
  (congrArg State.env (h.env t t.env)).trans rfl

/-- A body that ended takes the same bytes and ticks without the host's turns. -/
theorem bodyOf_blockEvents (hend : (bodyOf i r s).running = none) :
    bodyOf i r (s.withEnv (blockEvents s.env)) = (bodyOf i r s).withEnv (blockEvents (bodyOf i r s).env) := by
  obtain ⟨addr, done, hdone, h⟩ | rfl | ⟨henv, -⟩ := bodyShape r.ops s.cfg i
  · have hbody := h r s rfl rfl
    rw [h r (s.withEnv (blockEvents s.env)) rfl rfl]
    generalize wanted s.cfg i r.ops = n at *
    have hp : (engine n r s).status ≠ .paused := fun hp => by
      rw [hbody, readInto_paused hp] at hend
      cases hend
    have hrest : (bodyOf i r s).env = (engine n r s).rest := by
      rcases readInto_cases addr n done r s with ⟨-, he⟩ | ⟨-, he⟩ | ⟨hs, -⟩
      · rw [hbody, he, hdone.env_eq]
        rfl
      · rw [hbody, he]
        rfl
      · exact absurd hs hp
    rw [readInto_eq_readOutcome addr done (engine_blockEvents hp), readOutcome_withEnv hdone hp, hrest, hbody]
    rw [readInto_eq_readOutcome addr done rfl]
  · have hp : (engine r.ops.a1.toNat r s).status ≠ .paused := fun hp => by
      rw [bodyOf, skpBody_eq_skpOutcome rfl, skpOutcome, hp] at hend
      cases hend
    have hrest : (skpBody r s).env = (engine r.ops.a1.toNat r s).rest := by rw [skpBody_ended hp]; rfl
    rw [bodyOf, skpBody_eq_skpOutcome (engine_blockEvents hp), skpOutcome_withEnv hp, hrest, skpBody_eq_skpOutcome rfl]
  · have hsame : (bodyOf i r s).env = s.env :=
      (congrArg State.env (henv r s s.env rfl rfl)).trans rfl
    rw [henv r s _ rfl rfl, hsame]

end
/-! ### The command that the host watches -/

/-- The state in which the running command `r` ends when the host no longer moves inside it. -/
def atomicEnd (r : Running) (s : State) : State := bodyOf r.instr r (s.withEnv (blockEvents s.env))

theorem atomicEnd_ended (r : Running) (s : State) : Ended r.instr (atomicEnd r s) :=
  (bodyOf_spec r.instr r (s.withEnv (blockEvents s.env))).ended_or_waits.resolve_right fun hw =>
    hw.not_noHostTurn (blockEvents_noHostTurn s.env)

/-- STATUS of a command that has just started is BUSY alone (R115). -/
theorem State.start_statusWord (i : Instr) (s : State) : (s.start i).statusWord = 1 := by
  simp only [State.statusWord, State.start_err, State.start_done, State.start_busy]
  decide

/-- A command that `exec` left waiting: STATUS is BUSY alone, and whatever follows the host's turn, it goes on as without it. -/
theorem exec_waits {i : Instr} {s u : State} (h : exec i s = .next u) (hb : u.busy = true) :
    u.statusWord = 1 ∧ ∃ r pre es, u.running = some r ∧ r.instr = i ∧ s.env = pre ++ .hostTurn :: es ∧
      u.env = .hostTurn :: es ∧ NoHostTurn pre ∧
      ∀ R, bodyOf i (started i s) ((s.start i).withEnv (pre ++ R)) = bodyOf i r (u.withEnv R) := by
  rcases exec_turn_or_body h with ⟨⟨es, he⟩, rfl⟩ | rfl
  · exact ⟨s.start_statusWord i, started i s, [], es, rfl, rfl, he, he, noHostTurn_nil, fun _ => rfl⟩
  · have hw := (started_spec i s).ended_or_waits.resolve_left fun hend => nomatch hb.symm.trans hend.busy
    obtain ⟨pre, es, hs, hu, hpre⟩ := hw.env_eq
    obtain ⟨r, hr, hi, hgo⟩ := bodyOf_goesOn hw hs hpre
    refine ⟨?_, r, pre, es, hr, hi, hs, hu, hpre, hgo⟩
    rw [← s.start_statusWord i, State.statusWord, hw.err, hw.done, hw.busy, State.statusWord]

/-- Settles O26: after the host's read the command goes on from where it waited, as the atomic one does, and the host side is no part
of what it does. -/
theorem watchedCommandEndsAlike : Obligations.WatchedCommandEndsAlike := by
  intro i s u pre post rest hb hpre hpost henv hhost h hbusy
  obtain ⟨hstatus, r, pre', es, hr, hi, hs, hu, hpre', hgo⟩ := exec_waits h hbusy
  obtain ⟨rfl, rfl⟩ := firstTurn_unique hpre' hpre (hs.symm.trans henv)
  have hside := (exec_effect h).hostSide
  have hhost' : u.host = .readReg .status :: rest := (congrArg HostSide.host hside).trans hhost
  let f : HostSide → HostSide := fun p => { p with host := rest, reply := .word 1 }
  let v := (u.withEnv es).updateHostSide f
  have hread : step u = .next v := by
    rw [step_turn_cons hbusy hu hhost', busyAction_pollStatus]
    exact congrArg (fun w => Host.Outcome.next { u with env := es, host := rest, reply := .word w }) hstatus
  refine ⟨v, resume v, hread, rfl, step_resume hbusy (NoHostTurn.noTurn hpost), ?_⟩
  have hbody : resume v = (bodyOf i (started i s) ((s.start i).withEnv (pre' ++ es))).updateHostSide f := by
    rw [resume_some (s := v) hr, hi, hgo]
    exact bodyOf_updateHostSide r (u.withEnv es) f i
  rw [hbody, ← bodyOf_updateHostSide]
  exact exec_noTurn (s := (s.withEnv (pre' ++ es)).updateHostSide f) hb
    (NoHostTurn.noTurn (s := s.withEnv (pre' ++ es)) (noHostTurn_append.2 ⟨hpre, hpost⟩))

/-! ### `WAIT` -/

/-- From `u` the host's `WAIT` is done after some steps, with the block in the state `w` but for the events after the command. -/
def WaitDone (rest : List HostAction) (u w : State) : Prop :=
  ∃ n t, runFor n u = .next t ∧ t = { w with env := t.env, host := rest, reply := .word w.statusWord } ∧ blockEvents t.env = w.env

namespace WaitDone
variable {rest : List HostAction} {s t u w : State}

theorem of_step (h : step s = .next u) : WaitDone rest u w → WaitDone rest s w := fun ⟨n, t, hn, ht⟩ =>
  ⟨n + 1, t, by rw [runFor_step h, hn], ht⟩

/-- The `WAIT` of an idle block is done at once. -/
theorem of_idle (hb : u.busy = false) (hh : u.host = .wait :: rest) : WaitDone rest u (u.withEnv (blockEvents u.env)) :=
  ⟨1, { u with host := rest, reply := .word u.statusWord }, runFor_step ((waitRepeatsWhileBusy u rest hh).1 hb) 0, rfl, rfl⟩

/-- The reply is replaced in any case. -/
theorem of_reply {x : Reply} (h : WaitDone rest u (w.updateHostSide fun p => { p with reply := x })) : WaitDone rest u w := h

end WaitDone

/-- A stretch of the command, when the `WAIT` ends after every shorter list of events. -/
theorem waitDone_body {r : Running} {s : State} {rest : List HostAction} (hb : s.busy = true) (hn : s.NoTurn)
    (hh : s.host = .wait :: rest)
    (ih : ∀ (r' : Running) (u : State), u.env.length < s.env.length → u.busy = true → u.running = some r' →
      u.host = .wait :: rest → WaitDone rest u (atomicEnd r' u)) :
    WaitDone rest (bodyOf r.instr r s) (atomicEnd r s) := by
  obtain ⟨effect, hend | hw⟩ := bodyOf_spec r.instr r s
  all_goals have hhost := effect.host.trans hh
  · rw [atomicEnd, bodyOf_blockEvents hend.running]
    exact .of_idle hend.busy hhost
  · obtain ⟨pre, es, hs, hu, hpre⟩ := hw.env_eq
    obtain ⟨r', hr', hi, hgo⟩ := bodyOf_goesOn hw hs hpre
    have hsame : atomicEnd r s = atomicEnd r' (bodyOf r.instr r s) := by
      rw [atomicEnd, atomicEnd, hu, hs, hi, blockEvents_append, blockEvents_eq_self hpre]
      exact hgo _
    rw [hsame]
    exact ih r' _ (hw.env_length_lt hn) (hw.busy.trans hb) hr' hhost

/-- However often the host polls a running command, the `WAIT` is done at its end. -/
theorem waitDone_running {rest : List HostAction} (r : Running) (s : State) (hb : s.busy = true) (hr : s.running = some r)
    (hh : s.host = .wait :: rest) : WaitDone rest s (atomicEnd r s) := by
  induction hlen : s.env.length using Nat.strong_induction_on generalizing r s with
  | _ N ih =>
    subst hlen
    rcases s.turn_or_not with hn | ⟨es, he⟩
    · refine .of_step (by rw [step_resume hb hn, resume_some hr]) (waitDone_body hb hn hh fun r' u hu hb' hr' hh' => ?_)
      exact ih _ hu r' u hb' hr' hh' rfl
    · let f : HostSide → HostSide := fun p => { p with reply := .word s.statusWord }
      let u := (s.withEnv es).updateHostSide f
      have hpoll : step s = .next u := by
        rw [(waitRepeatsWhileBusy s rest hh).2 es hb he, ← hh]
        rfl
      have hsame : atomicEnd r u = (atomicEnd r s).updateHostSide f := by
        rw [atomicEnd, atomicEnd, he, blockEvents_turn, ← bodyOf_updateHostSide]
        rfl
      have hdone : WaitDone rest u (atomicEnd r u) := ih _ (by rw [he]; exact Nat.lt_succ_self _) r u hb hr hh rfl
      rw [hsame] at hdone
      exact .of_step hpoll (.of_reply hdone)

/-- Settles O28: the `WAIT` is done when the command has ended, and what it ends in is what the atomic command ends in. -/
theorem waitEndsWithTheCommand : Obligations.WaitEndsWithTheCommand := by
  intro i s u rest hb hh h
  have hatomic : exec i { s with env := blockEvents s.env } = .next (atomicEnd (started i s) (s.start i)) :=
    exec_noTurn (s := s.withEnv (blockEvents s.env)) hb (NoHostTurn.noTurn (blockEvents_noHostTurn s.env))
  have hdone : WaitDone rest u (atomicEnd (started i s) (s.start i)) := by
    obtain ⟨-, rfl⟩ := exec_next_iff.1 h
    rcases s.turn_or_not with hn | ⟨es, he⟩
    · rw [goOn_noTurn _ hn]
      exact waitDone_body (r := started i s) (s := s.start i) rfl hn hh fun r' u _ => waitDone_running r' u
    · rw [goOn_turn _ he]
      exact waitDone_running (started i s) (s.start i) rfl rfl hh
  obtain ⟨n, t, hn, ht, henv⟩ := hdone
  exact ⟨n, t, _, hn, hatomic, (atomicEnd_ended _ _).busy, ht, henv⟩

/-! ### Scripts -/

/-- What a script has still to do: each line is a host action, which may start a command, and each event may be a host turn. -/
def State.work (s : State) : Nat := 2 * s.host.length + s.env.length + s.busy.toNat

/-- A busy block has a running command. -/
def State.Live (s : State) : Prop := s.busy = true → ∃ r, s.running = some r

theorem State.live_of_idle {s : State} (h : s.busy = false) : s.Live := fun hb => nomatch h.symm.trans hb

theorem BodySpec.live {i : Instr} {r : Running} {s t : State} (h : BodySpec i r s t) : t.Live := by
  rcases h.ended_or_waits with hend | hw
  · exact State.live_of_idle hend.busy
  · obtain ⟨chunk, hrun, -⟩ := hw.running
    exact fun _ => ⟨_, hrun⟩

theorem writeCmd_live {w : Word} {s t : State} (h : writeCmd w s = .next t) : t.Live := by
  rcases writeCmd_cases w s with ⟨i, -, he⟩ | ⟨-, -, he⟩ <;> rw [he] at h
  · rcases exec_turn_or_body h with ⟨-, rfl⟩ | rfl
    · exact fun _ => ⟨_, rfl⟩
    · exact (started_spec i s).live
  · cases h
    exact State.live_of_idle rfl

/-- An idle host action beside a write to CMD leaves the block idle. -/
theorem idleAction_live {a : HostAction} {s t : State} (hb : s.busy = false) (h : idleAction a s = .next t) : t.Live := by
  by_cases hreset : a = .reset
  · subst hreset
    cases h
    exact State.live_of_idle rfl
  · by_cases hcmd : ∃ w, a = .writeReg .cmd w
    · obtain ⟨w, rfl⟩ := hcmd
      exact writeCmd_live (s := { s with reply := .nothing }) h
    · obtain ⟨-, -, -, hbusy⟩ := idleAction_keeps_result h (not_exists.1 hcmd) hreset
      exact State.live_of_idle (hbusy.trans hb)

theorem Advances.env_length_le {s t : State} (h : Advances s t) : t.env.length ≤ s.env.length := by
  obtain ⟨pre, he, -⟩ := h
  rw [he, List.length_append]
  omega

/-- An idle host action takes no event back and gives the host no line. -/
theorem idleAction_work {a : HostAction} {s t : State} (h : idleAction a s = .next t) :
    t.host = s.host ∧ t.env.length ≤ s.env.length := by
  rcases idleAction_effect h with ⟨_, _, e⟩ | ⟨r, w, -, rfl⟩ | ⟨-, rfl⟩
  · exact ⟨e.host, e.stream.env_length_le⟩
  · cases r <;> exact ⟨rfl, le_rfl⟩
  · exact ⟨rfl, le_rfl⟩

/-- A stretch of a running command ends it or takes an event. -/
theorem bodyOf_work {i : Instr} {r : Running} {s : State} (hb : s.busy = true) (hn : s.NoTurn) :
    (bodyOf i r s).work < s.work := by
  obtain ⟨effect, hend | hw⟩ := bodyOf_spec i r s
  all_goals unfold State.work; rw [effect.host, hb]
  · have hle := effect.stream.env_length_le
    rw [hend.busy]
    simp only [Bool.toNat_false, Bool.toNat_true]
    omega
  · rw [hw.busy, hb]
    have hlt := hw.env_length_lt hn
    omega

theorem State.finished_of_work {s : State} (h : s.work = 0) : s.Finished := by
  unfold State.work at h
  refine ⟨?_, List.length_eq_zero_iff.1 (by omega)⟩
  cases hb : s.busy
  · rfl
  · rw [hb, Bool.toNat_true] at h
    omega

/-- Each step of an unfinished script leaves less to do. -/
theorem step_work {s t : State} (hlive : s.Live) (h : step s = .next t) (hf : ¬ s.Finished) : t.work < s.work ∧ t.Live := by
  rcases step_cases h with ⟨hb, hh, -⟩ | ⟨a, rest, hb, hh, ha⟩ | ⟨es, -, he, -, rfl⟩ | ⟨es, a, rest, hb, he, hh, ha⟩ |
      ⟨hb, hn, rfl⟩
  · exact absurd ⟨hb, hh⟩ hf
  · obtain ⟨hhost, henv⟩ := idleAction_work ha
    have henv : t.env.length ≤ s.env.length := henv
    have hbusy := Bool.toNat_le t.busy
    refine ⟨?_, idleAction_live (s := { s with host := rest }) hb ha⟩
    unfold State.work
    rw [hhost, hh, hb, List.length_cons]
    show 2 * rest.length + _ + _ < _
    simp only [Bool.toNat_false]
    omega
  · refine ⟨?_, hlive⟩
    unfold State.work
    rw [he, List.length_cons]
    show 2 * s.host.length + es.length + s.busy.toNat < _
    omega
  · have hwork : t.work ≤ 2 * s.host.length + es.length + s.busy.toNat ∧ t.Live := by
      rcases busyAction_cases ha with ⟨-, rfl⟩ | ⟨-, rfl⟩ | ⟨-, rfl⟩
      all_goals unfold State.work; rw [hh]
      · exact ⟨by simp, hlive⟩
      · exact ⟨by simp, hlive⟩
      · exact ⟨by simp; omega, State.live_of_idle rfl⟩
    refine ⟨hwork.1.trans_lt ?_, hwork.2⟩
    unfold State.work
    rw [he, List.length_cons]
    omega
  · obtain ⟨r, hr⟩ := hlive hb
    rw [resume_some hr]
    exact ⟨bodyOf_work hb hn, (bodyOf_spec r.instr r s).live⟩

theorem runFor_finishes {n : Nat} {s t : State} (hlive : s.Live) (hn : s.work ≤ n) (h : runFor n s = .next t) : t.Finished := by
  induction n generalizing s with
  | zero =>
    cases h
    exact State.finished_of_work (Nat.le_zero.1 hn)
  | succ n ih =>
    by_cases hf : s.Finished
    · rw [runFor_finished hf.1 hf.2] at h
      cases h
      exact hf
    · obtain ⟨u, hu, hrun⟩ := andThen_eq_next h
      obtain ⟨hlt, hlive'⟩ := step_work hlive hu hf
      exact ih hlive' (by omega) hrun

/-- Settles O29: `Script.run` takes more steps than there is work, and each step of an unfinished script does some. -/
theorem scriptsEnd : Obligations.ScriptsEnd := by
  intro lines s t hb h
  refine runFor_finishes (s := { s with host := lines }) (State.live_of_idle hb) ?_ h
  show 2 * lines.length + s.env.length + s.busy.toNat ≤ _
  rw [hb]
  exact Nat.le_succ _

end Sys2Proof.Machine
end

