-- ==== Sys2Proof/Proofs/ScriptRow.lean ====
section
/-! CVR and the host script of R101: RDX of the row, then MAP and PCK for each pixel. The script's pixel does to `MEM` what the
conversion's pixel does, so the two leave the same data. -/

namespace Sys2Proof.Machine

/-- A number that fits a register is read back from it. -/
theorem toNat_ofNat_of_lt {n : Nat} (h : n < 2 ^ 32) : (BitVec.ofNat 32 n).toNat = n := by
  rw [BitVec.toNat_ofNat, Nat.mod_eq_of_lt h]

/-! ### The data of the block -/

/-- `t` agrees with `s` on everything but registers, STATUS, the hidden state and the host side. -/
structure SameData (s t : State) : Prop where
  mem : t.mem = s.mem
  memDraw : t.memDraw = s.memDraw
  draws : t.draws = s.draws
  cfg : t.cfg = s.cfg
  env : t.env = s.env
  spos : t.spos = s.spos

namespace SameData
variable {s t : State}

theorem byte (h : SameData s t) (a : Nat) : t.byte a = s.byte a := State.byte_congr h.mem h.memDraw a

theorem packPixel (h : SameData s t) (base p : Nat) (i : Nibble) : SameData (s.packPixel base p i) (t.packPixel base p i) where
  mem := by rw [State.packPixel_mem, State.packPixel_mem, h.mem, h.byte]
  memDraw := h.memDraw
  draws := h.draws
  cfg := h.cfg
  env := h.env
  spos := h.spos

end SameData

/-! ### The script's pixel -/

theorem rgbReserved_triple (x : RGB) : rgbReserved ((0 : Byte) ++ x.r ++ x.g ++ x.b) = 0 := by
  rw [rgbReserved, BitVec.extractLsb'_append_eq_of_le (by decide), BitVec.extractLsb'_append_eq_of_le (by decide)]
  exact BitVec.extractLsb'_append_eq_left

theorem rgbOf_triple (x : RGB) : rgbOf ((0 : Byte) ++ x.r ++ x.g ++ x.b) = x := by
  have hr : ((0 : Byte) ++ x.r ++ x.g ++ x.b).extractLsb' 16 8 = x.r := by
    rw [BitVec.extractLsb'_append_eq_of_le (by decide), BitVec.extractLsb'_append_eq_of_le (by decide)]
    exact BitVec.extractLsb'_append_eq_right
  have hg : ((0 : Byte) ++ x.r ++ x.g ++ x.b).extractLsb' 8 8 = x.g := by
    rw [BitVec.extractLsb'_append_eq_of_le (by decide)]
    exact BitVec.extractLsb'_append_eq_right
  rw [rgbOf, hr, hg, BitVec.extractLsb'_append_eq_right]

theorem exec_map_triple {s : State} (hb : s.busy = false) (hn : s.NoTurn) (x : RGB) :
    exec .map { s with arg0 := (0 : Byte) ++ x.r ++ x.g ++ x.b } = .next
      ({ s with arg0 := (0 : Byte) ++ x.r ++ x.g ++ x.b }.ended .none ((s.cfg.code (quantize s.cfg x)).setWidth 32)) := by
  have h := (mapQuantizesOneSample.2 { s with arg0 := (0 : Byte) ++ x.r ++ x.g ++ x.b } hb hn).1 (rgbReserved_triple x)
  have hx := rgbOf_triple x
  unfold rgbOf at hx
  rwa [hx] at h

/-- MAP and PCK of one pixel leave the data that one pixel of the conversion leaves (R101). -/
theorem scriptPixel_eq {s t : State} {scratch p0 base x : Nat} (h : SameData s t) (hb : t.busy = false) (hn : t.NoTurn)
    (hp : p0 + x < 2 ^ 32) (hbase : base < 2 ^ 32) (hf : packedAddr base (p0 + x) < s.cfg.memBytes) :
    ∃ u, scriptPixel (scratch + 3 * x) (p0 + x) base t = .next u ∧ SameData (convertPixel scratch p0 base x s) u ∧
      u.busy = false ∧ u.err = .none := by
  let i := t.cfg.code (quantize t.cfg (t.bgr (scratch + 3 * x)))
  have hi : i = s.cfg.code (quantize s.cfg (s.bgr (scratch + 3 * x))) := by
    simp only [i, h.cfg, State.bgr, h.byte]
  let v : State := { t with arg2 := BitVec.ofNat 32 base }.ended .none (i.setWidth 32)
  have hpos : v.arg2.toNat = base := toNat_ofNat_of_lt hbase
  have hpck := exec_pck_code (s := v) (p := p0 + x) i rfl hn hp (by rw [hpos]; exact h.cfg ▸ hf)
  refine ⟨v.afterPck (p0 + x) i, ?_, ?_, rfl, rfl⟩
  · rw [scriptPixel, exec_map_triple hb hn, andThen_next, ← hpck]
    rfl
  · have hpixel := h.packPixel base (p0 + x) i
    rw [convertPixel, ← hi]
    exact ⟨by rw [← hpixel.mem, State.afterPck, hpos]; rfl, hpixel.memDraw, hpixel.draws, hpixel.cfg, hpixel.env, hpixel.spos⟩

theorem scriptPixels_eq {scratch p0 base : Nat} (hbase : base < 2 ^ 32) {s t : State} (n x : Nat) (h : SameData s t)
    (hb : t.busy = false) (herr : t.err = .none) (hn : t.NoTurn) (hp : p0 + x + n ≤ 2 ^ 32)
    (hf : ∀ y, x ≤ y → y < x + n → packedAddr base (p0 + y) < s.cfg.memBytes) :
    ∃ u, scriptPixels scratch p0 base x n t = .next u ∧ SameData (convertPixels scratch p0 base x n s) u ∧ u.err = .none := by
  induction n generalizing x s t with
  | zero => exact ⟨t, rfl, h, herr⟩
  | succ n ih =>
    obtain ⟨v, hv, hdata, hvb, hverr⟩ := scriptPixel_eq (scratch := scratch) h hb hn (by omega) hbase (hf x le_rfl (by omega))
    have hvn : v.NoTurn := by
      rw [State.NoTurn, hdata.env.trans h.env.symm]
      exact hn
    obtain ⟨u, hu, hdata, huerr⟩ := ih (x + 1) hdata hvb hverr hvn (by omega) fun y h1 h2 => hf y (by omega) (by omega)
    exact ⟨u, by rw [scriptPixels, hv, andThen_next, hu], hdata, huerr⟩

/-! ### The script's row -/

theorem scriptRow_eq {s u : State} (h : exec .rdx { s with arg1 := BitVec.ofNat 32 (rowBytes s.cfg) } = .next u) :
    scriptRow s = if u.err = .none then scriptPixels s.arg0.toNat s.arg1.toNat s.arg2.toNat 0 s.cfg.width u else .next u := by
  rw [scriptRow, h]
  rfl

/-- Settles O12: both read the row with the same run; after a stall both lose the scratch, else the pixels do the same. -/
theorem cvrEqualsTheScript : Obligations.CvrEqualsTheScript := by
  intro s hb hwf hn hscratch hlast hd hp
  obtain ⟨-, -, -, -, -, hmem⟩ := hwf
  have hrow : (BitVec.ofNat 32 (rowBytes s.cfg)).toNat = rowBytes s.cfg := by
    refine toNat_ofNat_of_lt ?_
    unfold rowBytes at hscratch ⊢
    omega
  let s' : State := { s with arg1 := BitVec.ofNat 32 (rowBytes s.cfg) }
  have hf : Fits s'.cfg s'.arg0.toNat s'.arg1.toNat := by rw [hrow]; exact hscratch
  have hu : readerRun s'.arg1.toNat s'.timeout.toNat 0 0 s'.env = readerRun (rowBytes s.cfg) s.timeout.toNat 0 0 s.env :=
    congrArg (readerRun · s.timeout.toNat 0 0 s.env) hrow
  have hspec := readerRun_spec (rowBytes s.cfg) s.timeout.toNat s.env 0 0 (Nat.zero_le _)
  have hpaused := readerRun_not_paused (n := rowBytes s.cfg) (t := s.timeout.toNat) (stall := 0) (Nat.zero_le _) hn
  generalize hrun : readerRun (rowBytes s.cfg) s.timeout.toNat 0 0 s.env = u at *
  cases hs : u.status with
  | paused => exact absurd hs hpaused
  | fail =>
    have hrdx := exec_rdx_fail (s := s') hb hn.noTurn hf hu hs
    rw [hrow] at hrdx
    exact ⟨_, _, exec_cvr_fail hb hn.noTurn ⟨hscratch, hlast⟩ hd hrun hs, (scriptRow_eq hrdx).trans (if_neg nofun), rfl,
      fun _ => rfl, rfl, rfl, rfl, rfl⟩
  | ok =>
    have hrdx := exec_rdx_ok (s := s') hb hn.noTurn hf hu hs
    let read := (s.consume u).setBytes s.arg0.toNat u.bytes
    let read' := ((s'.consume u).setBytes s'.arg0.toNat u.bytes).ended .none 0
    have hsame : SameData read read' := ⟨rfl, rfl, rfl, rfl, rfl, rfl⟩
    have hread : read'.NoTurn := by
      obtain ⟨pre, he, -, -⟩ := hspec.taken
      rw [he] at hn
      exact NoHostTurn.noTurn (noHostTurn_append.1 hn).2
    obtain ⟨v, hv, hdata, herr⟩ := scriptPixels_eq (scratch := s.arg0.toNat) (p0 := s.arg1.toNat) s.arg2.isLt s.cfg.width 0 hsame
      rfl rfl hread hp fun y _ hy => ((packedAddr_mem_row _ _ (by omega)).2.trans_lt hlast)
    exact ⟨_, v, exec_cvr_ok hb hn.noTurn ⟨hscratch, hlast⟩ hd hrun hs, (scriptRow_eq hrdx).trans ((if_pos rfl).trans hv),
      hdata.mem.symm, fun a => (hdata.byte a).symm, hdata.env.symm, hdata.spos.symm, herr.symm, hdata.draws.symm⟩

end Sys2Proof.Machine
end

