-- ==== Sys2Proof/Proofs/Transfers.lean ====
section
/-! What the host's transfers are made of (R60, R105, R109, R110): a pseudo-instruction with its test of STATUS.ERR, on bytes that
arrive in time or stall, and a read-out of `MEM`. Each is stated for every continuation, so that the paths chain them. -/

namespace Sys2Proof.Machine

/-! ### States between the script's lines -/

/-- From `s` to `t` the scripts of a transfer took `k` bytes and left the events `rest`; the block is idle with its last command's error
`e`, no line is left, and every byte of `MEM` outside `A` is as before. -/
structure ScriptStep (A : Nat → Prop) (e : Err) (k : Nat) (rest : List Event) (s t : State) : Prop where
  idle : t.busy = false
  host : t.host = []
  err : t.err = e
  cfg : t.cfg = s.cfg
  timeout : t.timeout = s.timeout
  env : t.env = rest
  spos : t.spos = s.spos + k
  kept : ∀ a, ¬ A a → t.byte a = s.byte a

namespace ScriptStep
variable {A B : Nat → Prop} {e e' : Err} {k l : Nat} {es rest : List Event} {s t u : State}

theorem trans (h : ScriptStep A e k es s t) (h' : ScriptStep A e' l rest t u) : ScriptStep A e' (k + l) rest s u where
  idle := h'.idle
  host := h'.host
  err := h'.err
  cfg := h'.cfg.trans h.cfg
  timeout := h'.timeout.trans h.timeout
  env := h'.env
  spos := by rw [h'.spos, h.spos, Nat.add_assoc]
  kept a ha := (h'.kept a ha).trans (h.kept a ha)

theorem mono (h : ScriptStep A e k rest s t) (hAB : ∀ a, A a → B a) : ScriptStep B e k rest s t :=
  { h with kept := fun a ha => h.kept a fun hA => ha (hAB a hA) }

theorem finished (h : ScriptStep A e k rest s t) : t.Finished := ⟨h.idle, h.host⟩

end ScriptStep

/-- The block after a pseudo-instruction's test: the host has read STATUS (R105). -/
def State.tested (t : State) : State := { t with host := [], reply := .word t.statusWord }

/-- A delivery that holds a byte, and a stall, begin with no host turn. -/
theorem noTurn_delivery {s : State} {gs : List (Nat × Byte)} {es : List Event} (hgs : gs ≠ [])
    (henv : s.env = delivery gs ++ es) : s.NoTurn := by
  rw [State.NoTurn, henv]
  obtain ⟨⟨k, v⟩, gs, rfl⟩ := List.exists_cons_of_ne_nil hgs
  cases k <;> simp [delivery, List.replicate_succ]

theorem noTurn_stalls {s : State} {t : Word} {gs : List (Nat × Byte)} {es rest : List Event}
    (henv : s.env = delivery gs ++ es) (hst : Stalls t es rest) : s.NoTurn := by
  rcases eq_or_ne gs [] with rfl | hgs
  · have hpos : 0 < effTimeout t := Nat.lt_of_lt_of_le Nat.zero_lt_one (Nat.le_max_right _ _)
    obtain ⟨j, hj⟩ := Nat.exists_eq_add_of_lt hpos
    rw [Nat.zero_add] at hj
    rw [State.NoTurn, henv]
    rcases hst with rfl | ⟨-, m, -, rfl⟩
    · rw [hj]
      simp [delivery, List.replicate_succ]
    · cases m <;> simp [delivery, List.replicate_succ]
  · exact noTurn_delivery hgs henv

/-! ### One pseudo-instruction -/

namespace Script

/-- The state in which the command of a pseudo-instruction starts, its registers written. -/
def atGo (s : State) : State := { s with host := [.wait, .readReg .status], reply := .nothing }

/-- A pseudo-instruction whose command ends without an error, for every continuation. -/
def Passes (lines : List HostAction) (s t : State) : Prop :=
  ∀ onError next, tested lines onError s next = next t

/-- A pseudo-instruction whose command ends with an error. -/
def Fails (lines : List HostAction) (s t : State) : Prop :=
  ∀ onError next, tested lines onError s next = .next ⟨t, onError, .failure⟩

section
variable {i : Instr} {lines : List HostAction} {s u t : State}

theorem passes_of_exec (hp : PseudoOf i lines s u) (hb : s.busy = false) (h : exec i (atGo u) = .next t)
    (ht : t.busy = false) (herr : t.err = .none) : Passes lines s t.tested :=
  fun _ _ => (tested_eq hp hb h ht (exec_effect h).host).trans (if_pos herr)

theorem fails_of_exec (hp : PseudoOf i lines s u) (hb : s.busy = false) (h : exec i (atGo u) = .next t)
    (ht : t.busy = false) (herr : t.err ≠ .none) : Fails lines s t.tested :=
  fun _ _ => (tested_eq hp hb h ht (exec_effect h).host).trans (if_neg herr)

end

/-- The test after a command that ended in the way of R116. -/
theorem scriptStep_of_ended {A : Nat → Prop} {e : Err} {v : Word} {k d : Nat} {rest : List Event} {s t : State}
    (h : t = { (atGo s).ended e v with mem := t.mem, env := rest, spos := s.spos + k, draws := d })
    (hkept : ∀ a, ¬ A a → t.byte a = s.byte a) : t.busy = false ∧ t.err = e ∧ ScriptStep A e k rest s t.tested := by
  have hb : t.busy = false := by rw [h]; rfl
  have he : t.err = e := by rw [h]; rfl
  refine ⟨hb, he, hb, rfl, he, ?_, ?_, ?_, ?_, hkept⟩ <;> rw [h] <;> rfl

/-! ### RDX and SKP on a delivery -/

section
variable {s : State} {gs : List (Nat × Byte)} {es rest : List Event} {area : Word} {n : Nat}

theorem rdx_passes (hb : s.busy = false) (hn : s.NoTurn) (hsize : n < 2 ^ 32) (hf : area.toNat + n ≤ s.cfg.memBytes)
    (hin : InTime s.timeout gs) (hlen : gs.length = n) (henv : s.env = delivery gs ++ rest) :
    ∃ t, Passes (rdx area (BitVec.ofNat 32 n)) s t ∧ ScriptStep (InRange area.toNat n) .none n rest s t ∧
      ∀ i v, (delivered gs)[i]? = some v → t.byte (area.toNat + i) = v := by
  obtain ⟨-, hok, -⟩ := rdxReadsExactly.2 (atGo { s with arg0 := area, arg1 := BitVec.ofNat 32 n }) hb hn
  rw [show (atGo { s with arg0 := area, arg1 := BitVec.ofNat 32 n }).arg1.toNat = n from toNat_ofNat_of_lt hsize] at hok
  obtain ⟨t, ht, hframe, hread, hkept⟩ := hok hf gs rest hin hlen henv
  obtain ⟨hbusy, herr, hstep⟩ := scriptStep_of_ended (d := s.draws) hframe hkept
  exact ⟨t.tested, passes_of_exec (rdx_pseudo hb _ _) hb ht hbusy herr, { hstep with }, hread⟩

theorem rdx_fails (hb : s.busy = false) (hsize : n < 2 ^ 32) (hf : area.toNat + n ≤ s.cfg.memBytes)
    (hin : InTime s.timeout gs) (hlen : gs.length < n) (henv : s.env = delivery gs ++ es) (hst : Stalls s.timeout es rest) :
    ∃ t, Fails (rdx area (BitVec.ofNat 32 n)) s t ∧ ScriptStep (InRange area.toNat n) .timeout gs.length rest s t := by
  have hn := noTurn_stalls henv hst
  obtain ⟨-, -, hstall⟩ := rdxReadsExactly.2 (atGo { s with arg0 := area, arg1 := BitVec.ofNat 32 n }) hb hn
  rw [show (atGo { s with arg0 := area, arg1 := BitVec.ofNat 32 n }).arg1.toNat = n from toNat_ofNat_of_lt hsize] at hstall
  obtain ⟨t, ht, hframe, -, hkept⟩ := hstall hf gs es rest hin hlen henv hst
  obtain ⟨hbusy, herr, hstep⟩ := scriptStep_of_ended (d := s.draws + 1) hframe hkept
  exact ⟨t.tested, fails_of_exec (rdx_pseudo hb _ _) hb ht hbusy (by rw [herr]; nofun), { hstep with }⟩

theorem skp_passes (hb : s.busy = false) (hn : s.NoTurn) (hsize : n < 2 ^ 32) (hin : InTime s.timeout gs) (hlen : gs.length = n)
    (henv : s.env = delivery gs ++ rest) :
    ∃ t, Passes (skp (BitVec.ofNat 32 n)) s t ∧ ScriptStep (fun _ => False) .none n rest s t := by
  obtain ⟨hok, -⟩ := skpDiscardsExactly.2 (atGo { s with arg1 := BitVec.ofNat 32 n }) hb hn
  rw [show (atGo { s with arg1 := BitVec.ofNat 32 n }).arg1.toNat = n from toNat_ofNat_of_lt hsize] at hok
  have ht := hok gs rest hin hlen henv
  exact ⟨_, passes_of_exec (skp_pseudo hb _) hb ht rfl rfl, ⟨rfl, rfl, rfl, rfl, rfl, rfl, rfl, fun _ _ => rfl⟩⟩

end

/-! ### Read-outs -/

/-- The bytes of a stretch of `MEM` that is known. -/
theorem map_byte_range' {t : State} {a : Nat} {vs : List Byte} (h : ∀ i v, vs[i]? = some v → t.byte (a + i) = v) :
    (List.range' a vs.length).map t.byte = vs := by
  refine List.ext_getElem (by simp) fun i _ hi => ?_
  rw [List.getElem_map, List.getElem_range', Nat.one_mul]
  exact h i _ (List.getElem?_eq_getElem hi)

/-- A buffer read that is answered was inside `MEM`. -/
theorem run_readMem_next {s t : State} {a : Nat} (hb : s.busy = false) (h : run [.readMem a] s = .next t) :
    t = { s with host := [], reply := .byte (s.byte a) } := by
  rcases Nat.lt_or_ge a s.cfg.memBytes with ha | ha
  · rw [run_readMem hb ha] at h
    exact (Host.Outcome.next.inj h).symm
  · obtain ⟨u, hu, -⟩ := andThen_eq_next (o := step { s with host := [.readMem a] }) h
    rw [step_readMem (s := { s with host := [.readMem a] }) hb rfl, withAddress_outside (by exact ha)] at hu
    cases hu

/-- A read-out that is answered has read its bytes and changed only what the host got back. -/
theorem readOut_next {a n : Nat} {s u : State} {vs : List Byte} (hb : s.busy = false) (hh : s.host = [])
    (h : readOut a n s = .next (u, vs)) : vs.length = n ∧ u = { s with reply := u.reply } := by
  induction n generalizing a s u vs with
  | zero =>
    cases h
    exact ⟨rfl, rfl⟩
  | succ n ih =>
    obtain ⟨t, ht, h⟩ := andThen_eq_next h
    have ht := run_readMem_next hb ht
    subst ht
    obtain ⟨⟨w, ws⟩, hw, h⟩ := andThen_eq_next h
    cases h
    obtain ⟨hlen, hu⟩ := ih (by exact hb) rfl hw
    refine ⟨by simp [hlen], ?_⟩
    rw [hu, hh]

/-- A read-out inside `MEM` answers the bytes there. -/
theorem readOut_inside {a n : Nat} {s : State} (hb : s.busy = false) (hh : s.host = []) (hf : a + n ≤ s.cfg.memBytes) :
    ∃ u, readOut a n s = .next (u, (List.range' a n).map s.byte) ∧ ScriptStep (fun _ => False) s.err 0 s.env s u := by
  obtain ⟨u, hu, -⟩ := readOut_eq n a s hb hf
  obtain ⟨-, hsame⟩ := readOut_next hb hh hu
  refine ⟨u, hu, ?_⟩
  rw [hsame]
  exact ⟨hb, hh, rfl, rfl, rfl, rfl, rfl, fun _ _ => rfl⟩

end Script
end Sys2Proof.Machine
end

