-- ==== Sys2Proof/Proofs/DirectPath.lean ====
section
/-! The direct path (R109): each chunk that arrives goes to the panel unchanged, so a frame that arrives is forwarded whole, and one that
stalls up to its last complete chunk. -/

namespace Sys2Proof.Machine

theorem delivery_append (gs hs : List (Nat × Byte)) : delivery (gs ++ hs) = delivery gs ++ delivery hs := List.flatMap_append

theorem delivery_split (k : Nat) (gs : List (Nat × Byte)) (es : List Event) :
    delivery gs ++ es = delivery (gs.take k) ++ (delivery (gs.drop k) ++ es) := by
  rw [← List.append_assoc, ← delivery_append, List.take_append_drop]

theorem delivered_split (k : Nat) (gs : List (Nat × Byte)) : delivered gs = delivered (gs.take k) ++ delivered (gs.drop k) := by
  rw [delivered, delivered, delivered, ← List.map_append, List.take_append_drop]

theorem InTime.take {t : Word} {gs : List (Nat × Byte)} (h : InTime t gs) (k : Nat) : InTime t (gs.take k) :=
  fun g hg => h g (List.mem_of_mem_take hg)

theorem InTime.drop {t : Word} {gs : List (Nat × Byte)} (h : InTime t gs) (k : Nat) : InTime t (gs.drop k) :=
  fun g hg => h g (List.mem_of_mem_drop hg)

@[simp] theorem forwarded_nil : forwarded [] = [] := rfl

theorem forwarded_stream (vs : List Byte) (calls : List PanelCall) :
    forwarded (.stream vs :: calls) = vs ++ forwarded calls := rfl

namespace Script

variable {size rounds remaining : Nat} {area : Word} {s : State} {gs : List (Nat × Byte)} {es rest : List Event}

/-- A chunk that arrives is forwarded, and the path goes on behind it. -/
theorem directChunks_arrives (hb : s.busy = false) (hsize : 1 ≤ size) (hrem : remaining + 1 < 2 ^ 32)
    (hf : area.toNat + size ≤ s.cfg.memBytes) (hin : InTime s.timeout gs) (hlen : gs.length = min size (remaining + 1))
    (henv : s.env = delivery gs ++ es) :
    ∃ u, ScriptStep (InRange area.toNat size) .none gs.length es s u ∧
      directChunks size area (rounds + 1) (remaining + 1) s =
        andThen (directChunks size area rounds (remaining + 1 - gs.length) u) fun v =>
          .next { v with panel := .stream (delivered gs) :: v.panel } := by
  have hpos : 0 < gs.length := by omega
  obtain ⟨t, hpass, hstep, hread⟩ := rdx_passes (area := area) hb (noTurn_delivery (List.length_pos_iff.1 hpos) henv)
    (n := gs.length) (by omega) (by omega) hin rfl henv
  obtain ⟨u, hu, hout⟩ := readOut_inside (a := area.toNat) (n := gs.length) hstep.idle hstep.host (by rw [hstep.cfg]; omega)
  have hbytes := map_byte_range' hread
  rw [delivered_length] at hbytes
  rw [hbytes] at hu
  rw [hstep.env, hstep.err] at hout
  refine ⟨u, (hstep.trans (hout.mono fun _ h => h.elim)).mono fun a ha => ⟨ha.1, by have := ha.2; omega⟩, ?_⟩
  rw [directChunks]
  simp only [← hlen]
  rw [hpass, hu, andThen_next]

/-- A chunk that stalls ends the path with one sleep call. -/
theorem directChunks_stalls (hb : s.busy = false) (hrem : remaining + 1 < 2 ^ 32) (hf : area.toNat + size ≤ s.cfg.memBytes)
    (hin : InTime s.timeout gs) (hlen : gs.length < min size (remaining + 1)) (henv : s.env = delivery gs ++ es)
    (hst : Stalls s.timeout es rest) :
    ∃ t, ScriptStep (InRange area.toNat size) .timeout gs.length rest s t ∧
      directChunks size area (rounds + 1) (remaining + 1) s = .next ⟨t, [.sleep], .failure⟩ := by
  obtain ⟨t, hfail, hstep⟩ := rdx_fails (area := area) (n := min size (remaining + 1)) hb (by omega) (by omega) hin hlen henv hst
  exact ⟨t, hstep.mono fun a ha => ⟨ha.1, by have := ha.2; omega⟩, by rw [directChunks]; exact hfail _ _⟩

/-- The bytes that remain arrive, and the panel gets them in order. -/
theorem directChunks_success (hb : s.busy = false) (hsize : 1 ≤ size) (hrem : remaining < 2 ^ 32) (hrounds : remaining ≤ rounds)
    (hf : area.toNat + size ≤ s.cfg.memBytes) (hin : InTime s.timeout gs) (hlen : gs.length = remaining)
    (henv : s.env = delivery gs ++ rest) :
    ∃ t : Transfer, directChunks size area rounds remaining s = .next t ∧ t.verdict = .success ∧
      forwarded t.panel = delivered gs ∧ (∀ c ∈ t.panel, ∃ vs, c = .stream vs ∧ vs.length ≤ size) ∧
      t.block.busy = false ∧ t.block.env = rest ∧ t.block.spos = s.spos + remaining ∧
      ∀ a, ¬ InRange area.toNat size a → t.block.byte a = s.byte a := by
  induction rounds generalizing remaining s gs with
  | zero =>
    obtain rfl : remaining = 0 := by omega
    obtain rfl := List.length_eq_zero_iff.1 hlen
    exact ⟨⟨s, [], .success⟩, by rw [directChunks], rfl, rfl, by simp, hb, henv, rfl, fun _ _ => rfl⟩
  | succ rounds ih =>
    cases remaining with
    | zero =>
      obtain rfl := List.length_eq_zero_iff.1 hlen
      exact ⟨⟨s, [], .success⟩, by rw [directChunks], rfl, rfl, by simp, hb, henv, rfl, fun _ _ => rfl⟩
    | succ remaining =>
      let c := min size (remaining + 1)
      have hc : (gs.take c).length = c := by rw [List.length_take]; omega
      obtain ⟨u, hstep, hrun⟩ := directChunks_arrives (rounds := rounds) hb hsize hrem hf (hin.take c) hc
        (henv.trans (delivery_split c gs rest))
      rw [hc] at hstep hrun
      obtain ⟨t, ht, hverdict, hfwd, hcalls, hidle, htenv, hspos, hkept⟩ := ih (remaining := remaining + 1 - c) (gs := gs.drop c)
        hstep.idle (by omega) (by omega) (by rwa [hstep.cfg]) (by rw [hstep.timeout]; exact hin.drop c)
        (by rw [List.length_drop, hlen]) hstep.env
      refine ⟨{ t with panel := .stream (delivered (gs.take c)) :: t.panel }, by rw [hrun, ht]; rfl, hverdict, ?_, ?_, hidle,
        htenv, ?_, fun a ha => (hkept a ha).trans (hstep.kept a ha)⟩
      · rw [forwarded_stream, hfwd, ← delivered_split]
      · refine List.forall_mem_cons.2 ⟨⟨_, rfl, ?_⟩, hcalls⟩
        rw [delivered_length, hc]
        exact Nat.min_le_left _ _
      · rw [hspos, hstep.spos]
        omega

/-- Up to the last complete chunk. -/
theorem take_chunks_succ {α : Type} {l : List α} (hsize : 1 ≤ size) (hle : size ≤ l.length) :
    l.take size ++ (l.drop size).take ((l.drop size).length / size * size) = l.take (l.length / size * size) := by
  rw [← List.take_add, List.length_drop, Nat.div_eq_sub_div (by omega) hle, Nat.succ_mul, Nat.add_comm size]

/-- The bytes that remain stall: the panel gets the complete chunks and then sleeps. -/
theorem directChunks_failure (hb : s.busy = false) (hsize : 1 ≤ size) (hrem : remaining < 2 ^ 32) (hrounds : remaining ≤ rounds)
    (hf : area.toNat + size ≤ s.cfg.memBytes) (hin : InTime s.timeout gs) (hlen : gs.length < remaining)
    (henv : s.env = delivery gs ++ es) (hst : Stalls s.timeout es rest) :
    ∃ (t : Transfer) (calls : List PanelCall), directChunks size area rounds remaining s = .next t ∧ t.verdict = .failure ∧
      t.panel = calls ++ [.sleep] ∧ (∀ c ∈ calls, ∃ vs, c = .stream vs ∧ vs.length = size) ∧
      forwarded calls = (delivered gs).take (gs.length / size * size) ∧
      t.block.busy = false ∧ t.block.err = .timeout ∧ t.block.env = rest ∧ t.block.spos = s.spos + gs.length ∧
      ∀ a, ¬ InRange area.toNat size a → t.block.byte a = s.byte a := by
  induction rounds generalizing remaining s gs with
  | zero => omega
  | succ rounds ih =>
    obtain ⟨m, rfl⟩ : ∃ m, remaining = m + 1 := ⟨remaining - 1, by omega⟩
    rcases Nat.lt_or_ge gs.length size with hshort | hlong
    · obtain ⟨t, hstep, hrun⟩ := directChunks_stalls (rounds := rounds) hb hrem hf hin (Nat.lt_min.2 ⟨hshort, hlen⟩) henv hst
      refine ⟨_, [], hrun, rfl, rfl, by simp, ?_, hstep.idle, hstep.err, hstep.env, hstep.spos, hstep.kept⟩
      rw [Nat.div_eq_of_lt hshort]
      simp
    · have hc : (gs.take size).length = size := by rw [List.length_take]; omega
      obtain ⟨u, hstep, hrun⟩ := directChunks_arrives (rounds := rounds) hb hsize hrem hf (hin.take size) (by omega)
        (henv.trans (delivery_split size gs es))
      rw [hc] at hstep hrun
      have hdrop : (gs.drop size).length = gs.length - size := List.length_drop
      obtain ⟨t, calls, ht, hverdict, hpanel, hcalls, hfwd, hidle, herr, htenv, hspos, hkept⟩ := ih
        (remaining := m + 1 - size) (gs := gs.drop size) hstep.idle (by omega) (by omega) (by rwa [hstep.cfg])
        (by rw [hstep.timeout]; exact hin.drop size) (by omega) hstep.env (by rwa [hstep.timeout])
      refine ⟨{ t with panel := .stream (delivered (gs.take size)) :: t.panel }, .stream (delivered (gs.take size)) :: calls,
        by rw [hrun, ht]; rfl, hverdict, by rw [hpanel]; rfl, ?_, ?_, hidle, herr, htenv, ?_,
        fun a ha => (hkept a ha).trans (hstep.kept a ha)⟩
      · exact List.forall_mem_cons.2 ⟨⟨_, rfl, by rw [delivered_length, hc]⟩, hcalls⟩
      · have hchunks := take_chunks_succ (l := delivered gs) hsize (by rwa [delivered_length])
        rw [forwarded_stream, hfwd, ← delivered_length, ← delivered_length gs, ← hchunks]
        simp only [delivered, List.map_take, List.map_drop]
      · rw [hspos, hstep.spos, hdrop]
        omega

end Script

/-- A well-formed panel's frame is shorter than 2^32 bytes (R8). -/
theorem frameBytes_lt {c : Config} (hwf : c.WF) : c.frameBytes < 2 ^ 32 := by
  obtain ⟨⟨-, -, -, -, -, hpixels⟩, -⟩ := hwf
  have hhalf : c.frameBytes * 2 ≤ c.width * c.height := by
    rw [Config.frameBytes, Nat.mul_right_comm]
    exact Nat.mul_le_mul_right _ (Nat.div_mul_le_self _ _)
  omega

/-- Settles O30: the length check, and the chunks of a frame that arrives or stalls. -/
theorem directPathForwardsTheFrame : Obligations.DirectPathForwardsTheFrame := by
  intro declared size area s hb hwf hsize hf
  have hframe := frameBytes_lt hwf
  refine ⟨fun ⟨n, hd, hn⟩ => ?_, fun hd => ?_⟩
  · subst hd
    exact if_neg (by simp [hn])
  · rw [Script.directPath, if_pos hd]
    exact ⟨fun gs rest hin hlen henv => Script.directChunks_success hb hsize hframe le_rfl hf hin hlen henv,
      fun gs es rest hin hlen henv hst => Script.directChunks_failure hb hsize hframe le_rfl hf hin hlen henv hst⟩

end Sys2Proof.Machine
end

