-- ==== Sys2Proof/Proofs/BmpPath.lean ====
section
/-! The BMP path (R110): that it hands over a whole frame or nothing whatever the stream does, and what it makes of a header that HDR
rejects. -/

namespace Sys2Proof.Machine

/-! ### Bytes of a delivery -/

/-- The `k`-th byte of a delivery. -/
def byteAt (gs : List (Nat × Byte)) (k : Nat) : Byte := (delivered gs).getD k 0

theorem byteAt_drop (gs : List (Nat × Byte)) (m k : Nat) : byteAt (gs.drop m) k = byteAt gs (m + k) := by
  rw [byteAt, byteAt, delivered, List.map_drop, List.getD, List.getD, List.getElem?_drop]
  rfl

theorem getElem?_take_delivered {gs : List (Nat × Byte)} {m k : Nat} (hk : k < m) (hm : m ≤ gs.length) :
    (delivered (gs.take m))[k]? = some (byteAt gs k) := by
  have hget : (delivered gs)[k]? = some ((delivered gs)[k]'(by rw [delivered_length]; omega)) := List.getElem?_eq_getElem _
  rw [byteAt, List.getD, hget, Option.getD_some, ← hget, delivered, List.map_take, List.getElem?_take_of_lt hk]
  rfl

theorem byteAt_take {gs : List (Nat × Byte)} {m k : Nat} (hk : k < m) : byteAt (gs.take m) k = byteAt gs k := by
  rw [byteAt, byteAt, delivered, List.map_take, List.getD, List.getD, List.getElem?_take_of_lt hk]
  rfl

/-- The triple that a pixel's three bytes make (R35). -/
def tripleAt (gs : List (Nat × Byte)) (o : Nat) : RGB := ⟨byteAt gs (o + 2), byteAt gs (o + 1), byteAt gs o⟩

theorem tripleAt_drop (gs : List (Nat × Byte)) (m o : Nat) : tripleAt (gs.drop m) o = tripleAt gs (m + o) := by
  simp only [tripleAt, byteAt_drop, Nat.add_assoc]

theorem tripleAt_take {gs : List (Nat × Byte)} {m o : Nat} (ho : o + 2 < m) : tripleAt (gs.take m) o = tripleAt gs o := by
  simp only [tripleAt, byteAt_take ho, byteAt_take (show o + 1 < m by omega), byteAt_take (show o < m by omega)]

namespace Script

/-! ### The path behind its header -/

/-- What the path does after HDR: the offset read back from RES and its test, then the pixels. -/
def bmpPixels (scratch base : Word) (height : Nat) (u : State) : Host.Outcome Transfer Fault Refusal :=
  andThen (run [.readReg .res] u) fun v =>
    if v.reply.value.toNat < 54 then .next ⟨v, [], .failure⟩
    else tested (skp (v.reply.value - 54)) [] v (bmpRows scratch base 0 height)

theorem bmpPath_eq (header scratch base : Word) (s : State) :
    bmpPath header scratch base s = tested (rdx header 54) [] s fun t =>
      tested (hdr header 54) [] t (bmpPixels scratch base s.cfg.height) := rfl

/-- The block after the host has read RES (R105). -/
def resRead (u : State) : State := { u with host := [], reply := .word u.res }

theorem bmpPixels_eq {u : State} (hb : u.busy = false) (scratch base : Word) (height : Nat) :
    bmpPixels scratch base height u =
      if u.res.toNat < 54 then .next ⟨resRead u, [], .failure⟩
      else tested (skp (u.res - 54)) [] (resRead u) (bmpRows scratch base 0 height) := by
  rw [bmpPixels, run_readReg .res hb]
  rfl

/-! ### Whatever the stream does -/

/-- The block between two scripts of a path. -/
structure AtRest (c : Config) (s : State) : Prop where
  finished : s.Finished
  noTurn : NoHostTurn s.env
  cfg : s.cfg = c

/-- A path that hands over one packed frame after its last command succeeded, or makes no call of the panel. -/
def WholeFrameOrNothing (c : Config) (t : Transfer) : Prop :=
  t.block.Finished ∧
    ((t.verdict = .success ∧ t.block.err = .none ∧ ∃ vs : List Byte, vs.length = c.frameBytes ∧ t.panel = [.packedBuffer vs]) ∨
      (t.verdict = .failure ∧ t.panel = [] ∧ (t.block.err ≠ .none ∨ t.block.res.toNat < 54)))

section
variable {c : Config} {i : Instr} {lines : List HostAction} {s u : State} {t : Transfer}

/-- A pseudo-instruction comes to its test; with an error nothing is handed over. -/
theorem tested_wholeFrameOrNothing {next : State → Host.Outcome Transfer Fault Refusal} (hp : PseudoOf i lines s u)
    (hb : s.busy = false) (hn : NoHostTurn s.env) (hc : s.cfg = c) (h : tested lines [] s next = .next t)
    (hnext : ∀ v, AtRest c v → v.err = .none → next v = .next t → WholeFrameOrNothing c t) : WholeFrameOrNothing c t := by
  have hub : (atGo u).busy = false := hp.idle.trans hb
  have hun : NoHostTurn (atGo u).env := hp.env ▸ hn
  obtain ⟨v, hv⟩ := exec_next_of_idle hub i
  have hend := exec_ended_of_noHostTurn hv hun
  have heff := exec_effect hv
  have hrest : AtRest c v.tested := by
    refine ⟨⟨hend.busy, rfl⟩, ?_, heff.cfg.trans (hp.cfg.trans hc)⟩
    obtain ⟨pre, he, -⟩ := heff.stream
    rw [he] at hun
    exact (noHostTurn_append.1 hun).2
  by_cases herr : v.err = .none
  · rw [passes_of_exec hp hb hv hend.busy herr] at h
    exact hnext _ hrest herr h
  · rw [fails_of_exec hp hb hv hend.busy herr] at h
    cases h
    exact ⟨hrest.finished, .inr ⟨rfl, rfl, .inl herr⟩⟩

theorem bmpRows_wholeFrameOrNothing {scratch base : Word} {n k : Nat} (hs : AtRest c s) (herr : s.err = .none)
    (h : bmpRows scratch base k n s = .next t) : WholeFrameOrNothing c t := by
  induction n generalizing k s with
  | zero =>
    obtain ⟨⟨v, vs⟩, hv, h⟩ := andThen_eq_next h
    cases h
    obtain ⟨hlen, hsame⟩ := readOut_next hs.finished.1 hs.finished.2 hv
    rw [hs.cfg] at hlen
    have hsame : v = { s with reply := v.reply } := hsame
    refine ⟨?_, .inl ⟨rfl, ?_, vs, hlen, rfl⟩⟩
    · show v.Finished
      rw [hsame]
      exact hs.finished
    · show v.err = .none
      rw [hsame]
      exact herr
  | succ n ih =>
    refine tested_wholeFrameOrNothing (cvr_pseudo hs.finished.1 _ _ _) hs.finished.1 hs.noTurn hs.cfg h fun v hv hverr h => ?_
    split_ifs at h
    · exact ih hv hverr h
    · exact tested_wholeFrameOrNothing (skp_pseudo hv.finished.1 _) hv.finished.1 hv.noTurn hv.cfg h fun w hw hwerr h =>
        ih hw hwerr h

end

end Script

/-- Settles O33: every script of the path is tested, its rows too, and the frame is read out after the last of them. -/
theorem bmpPathStopsAtTheFirstError : Obligations.BmpPathStopsAtTheFirstError := by
  intro header scratch base s t hb hn h
  rw [Script.bmpPath_eq] at h
  show Script.WholeFrameOrNothing s.cfg t
  refine Script.tested_wholeFrameOrNothing (Script.rdx_pseudo hb _ _) hb hn rfl h fun u hu _ h => ?_
  refine Script.tested_wholeFrameOrNothing (Script.hdr_pseudo hu.finished.1 _ _) hu.finished.1 hu.noTurn hu.cfg h fun v hv _ h => ?_
  have hw : Script.AtRest s.cfg (Script.resRead v) := ⟨⟨hv.finished.1, rfl⟩, hv.noTurn, hv.cfg⟩
  rw [Script.bmpPixels_eq hv.finished.1] at h
  split_ifs at h with hoff
  · cases h
    exact ⟨hw.finished, .inr ⟨rfl, rfl, .inr hoff⟩⟩
  · exact Script.tested_wholeFrameOrNothing (Script.skp_pseudo hw.finished.1 _) hw.finished.1 hw.noTurn hw.cfg h
      fun w hw hwerr h => Script.bmpRows_wholeFrameOrNothing hw hwerr h

/-! ### The header -/

namespace Script

section
variable {s : State} {header : Word}

/-- HDR on a header inside `MEM`: its error decides, and only RES and STATUS change. -/
theorem hdr_tested (hb : s.busy = false) (hn : s.NoTurn) (hf : header.toNat + 54 ≤ s.cfg.memBytes) :
    ∃ t, (headerError s.cfg (s.headerByte header.toNat) = .none → Passes (hdr header 54) s t) ∧
      (headerError s.cfg (s.headerByte header.toNat) ≠ .none → Fails (hdr header 54) s t) ∧
      ScriptStep (fun _ => False) (headerError s.cfg (s.headerByte header.toNat)) 0 s.env s t ∧
      t.res = headerRes s.cfg (s.headerByte header.toNat) := by
  have ht := exec_hdr_inside (s := atGo { s with arg0 := header, arg1 := 54 }) hb hn
    (show Config.hdrBytes ≤ (54 : Word).toNat by decide) hf
  exact ⟨_, passes_of_exec (hdr_pseudo hb _ _) hb ht rfl, fails_of_exec (hdr_pseudo hb _ _) hb ht rfl,
    ⟨rfl, rfl, rfl, rfl, rfl, rfl, rfl, fun _ _ => rfl⟩, rfl⟩

/-- The header area after the header's bytes have been read. -/
theorem headerByte_examined {gs : List (Nat × Byte)} (hlen : 54 ≤ gs.length)
    (hread : ∀ i v, (delivered (gs.take 54))[i]? = some v → s.byte (header.toNat + i) = v) :
    ∀ o ∈ examined, s.headerByte header.toNat o = (delivered gs).getD o 0 := by
  intro o ho
  have ho54 : o < 54 := by
    have h : ∀ o ∈ examined, o < 54 := by decide
    exact h o ho
  exact hread o _ (getElem?_take_delivered ho54 hlen)

end

/-- The path up to HDR, on a header that arrives: what it has read decides, and RES holds the answer. -/
theorem bmpPath_header {header scratch base : Word} {s : State} {gs : List (Nat × Byte)} {es : List Event} (hb : s.busy = false)
    (hf : header.toNat + 54 ≤ s.cfg.memBytes) (hin : InTime s.timeout gs) (hlen : 54 ≤ gs.length)
    (henv : s.env = delivery (gs.take 54) ++ es) (hes : es.head? ≠ some .hostTurn) :
    ∃ t, ScriptStep (InRange header.toNat 54) (headerError s.cfg fun o => (delivered gs).getD o 0) 54 es s t ∧
      t.res = headerRes s.cfg (fun o => (delivered gs).getD o 0) ∧
      bmpPath header scratch base s =
        if (headerError s.cfg fun o => (delivered gs).getD o 0) = .none then bmpPixels scratch base s.cfg.height t
        else .next ⟨t, [], .failure⟩ := by
  have hlen54 : (gs.take 54).length = 54 := by rw [List.length_take]; omega
  have hne : gs.take 54 ≠ [] := fun h => by rw [h] at hlen54; cases hlen54
  obtain ⟨t, hpass, hstep, hread⟩ := rdx_passes (area := header) (n := 54) hb (noTurn_delivery hne henv) (by decide) hf (hin.take 54)
    hlen54 henv
  have hexamined := headerByte_examined hlen hread
  have hnt : t.NoTurn := by rw [State.NoTurn, hstep.env]; exact hes
  obtain ⟨u, hok, hfail, hhdr, hres⟩ := hdr_tested (header := header) hstep.idle hnt (by rw [hstep.cfg]; exact hf)
  have herr := headerError_congr hexamined s.cfg
  rw [hstep.cfg, herr] at hok hfail hhdr
  rw [hstep.cfg, headerRes_congr hexamined s.cfg] at hres
  rw [hstep.env] at hhdr
  refine ⟨u, hstep.trans (hhdr.mono fun _ h => h.elim), hres, ?_⟩
  rw [bmpPath_eq]
  refine (hpass _ _).trans ?_
  split_ifs with h
  · exact hok h _ _
  · exact hfail h _ _

theorem headerRes_of_error {c : Config} {h : Nat → Byte} (he : headerError c h ≠ .none) : headerRes c h = 0 := by
  unfold headerRes
  split
  · next hn => exact absurd hn he
  · rfl

theorem headerRes_of_none {c : Config} {h : Nat → Byte} (he : headerError c h = .none) :
    headerRes c h = BitVec.ofNat 32 (le32 (h 10) (h 11) (h 12) (h 13)) := by
  rw [headerRes, he]

theorem le32_lt (b0 b1 b2 b3 : Byte) : le32 b0 b1 b2 b3 < 2 ^ 32 := by
  have h0 := b0.isLt
  have h1 := b1.isLt
  have h2 := b2.isLt
  have h3 := b3.isLt
  unfold le32
  omega

theorem toNat_ofNat_le32 (b0 b1 b2 b3 : Byte) : (BitVec.ofNat 32 (le32 b0 b1 b2 b3)).toNat = le32 b0 b1 b2 b3 :=
  toNat_ofNat_of_lt (le32_lt b0 b1 b2 b3)

end Script

/-- Settles O32: HDR's error fails its test; without an error the offset in RES fails the host's. -/
theorem bmpPathRejectsTheHeader : Obligations.BmpPathRejectsTheHeader := by
  intro header scratch base s gs rest hb hwf hf hin hlen henv hrest h off hreject
  have htake : gs.take 54 = gs := List.take_of_length_le hlen.le
  obtain ⟨t, hstep, hres, hpath⟩ := Script.bmpPath_header (scratch := scratch) (base := base) hb hf hin hlen.ge (by rwa [htake])
    (NoHostTurn.noTurn (s := s.withEnv rest) hrest)
  by_cases he : headerError s.cfg h = .none
  · have hoff : t.res.toNat < 54 := by
      rw [hres, Script.headerRes_of_none he, Script.toNat_ofNat_le32]
      exact hreject.resolve_left fun hn => hn he
    rw [if_pos he, Script.bmpPixels_eq hstep.idle, if_pos hoff] at hpath
    exact ⟨_, hpath, rfl, rfl, hstep.idle, hstep.err, by rw [if_pos he]; exact hres.trans (Script.headerRes_of_none he), hstep.env,
      hstep.spos, hstep.kept⟩
  · rw [if_neg he] at hpath
    exact ⟨_, hpath, rfl, rfl, hstep.idle, hstep.err, by rw [if_neg he]; exact hres.trans (Script.headerRes_of_error he), hstep.env,
      hstep.spos, hstep.kept⟩

end Sys2Proof.Machine
end

