-- ==== Sys2Proof/Proofs/BmpFile.lean ====
section
/-! The BMP path on a whole file (R110): each file row is converted to its place in the packed buffer, bottom-up, and leaves the rows
before it alone, so the frame that is read out holds every pixel. -/

namespace Sys2Proof.Machine

/-! ### The frame's numbers -/

/-- A frame packs two pixels in a byte (R55). -/
theorem two_mul_frameBytes {c : Config} (hwf : c.WF) : 2 * c.frameBytes = c.height * c.width := by
  obtain ⟨⟨heven, -⟩, -⟩ := hwf
  rw [Config.frameBytes, ← Nat.mul_assoc, Nat.mul_div_cancel' (Nat.dvd_of_mod_eq_zero heven), Nat.mul_comm]

/-- A row of the panel lies in the frame. -/
theorem row_le {c : Config} {n : Nat} (hn : n < c.height) : n * c.width + c.width ≤ c.height * c.width := by
  rw [← Nat.succ_mul]
  exact Nat.mul_le_mul_right _ hn

/-- Where the BMP path works: the scratch and the packed buffer, apart from each other and inside `MEM`. -/
structure FrameArea (c : Config) (scratch base : Nat) : Prop where
  wf : c.WF
  scratch_le : scratch + rowBytes c ≤ c.memBytes
  base_le : base + c.frameBytes ≤ c.memBytes
  apart : Apart scratch (rowBytes c) base c.frameBytes

/-- The bytes of these two areas. -/
def InFrameArea (c : Config) (scratch base a : Nat) : Prop :=
  InRange scratch (rowBytes c) a ∨ InRange base c.frameBytes a

namespace FrameArea
variable {c : Config} {scratch base n p : Nat} (h : FrameArea c scratch base)
include h

theorem packedAddr_inRange (hp : p < c.height * c.width) : InRange base c.frameBytes (packedAddr base p) := by
  have htwo := two_mul_frameBytes h.wf
  unfold InRange packedAddr
  omega

/-- The packed bytes of a row lie in the frame. -/
theorem packedLast_lt (hn : n < c.height) : packedLast c base (n * c.width) < base + c.frameBytes := by
  have htwo := two_mul_frameBytes h.wf
  have hrow := row_le hn
  obtain ⟨⟨-, hwidth, -⟩, -⟩ := h.wf
  unfold packedLast
  omega

theorem rowFits (hn : n < c.height) : RowFits c scratch (n * c.width) base :=
  ⟨h.scratch_le, (h.packedLast_lt hn).trans_le h.base_le⟩

theorem rowDisjoint (hn : n < c.height) : RowDisjoint c scratch (n * c.width) base := by
  have hlast := h.packedLast_lt hn
  rcases h.apart with ha | ha
  · exact .inl (ha.trans (Nat.le_add_right _ _))
  · exact .inr (by omega)

theorem packedAddr_not_scratch (hp : p < c.height * c.width) : ¬ InRange scratch (rowBytes c) (packedAddr base p) := by
  have hin := h.packedAddr_inRange hp
  rcases h.apart with ha | ha <;> unfold InRange at * <;> omega

theorem position_lt (hn : n < c.height) : n * c.width < 2 ^ 32 := by
  obtain ⟨⟨-, hwidth, -, -, -, hpixels⟩, -⟩ := h.wf
  have hrow := row_le hn
  rw [Nat.mul_comm] at hpixels
  omega

end FrameArea

namespace Script

/-! ### One row -/

section
variable {s : State} {gs : List (Nat × Byte)} {rest : List Event} {scratch base : Word} {n i : Nat}

/-- The pixels of panel row `n` are those of the file row at the front of `gs`, and every other pixel of the frame is as before. -/
structure RowDone (base n : Nat) (gs : List (Nat × Byte)) (s t : State) : Prop where
  row : ∀ x, x < s.cfg.width → t.pixel base (n * s.cfg.width + x) = s.cfg.code (quantize s.cfg (tripleAt gs (3 * x)))
  others : ∀ p, p < s.cfg.height * s.cfg.width → p < n * s.cfg.width ∨ n * s.cfg.width + s.cfg.width ≤ p →
    t.pixel base p = s.pixel base p

theorem RowDone.of_take {base n m : Nat} {s t : State} {gs : List (Nat × Byte)} (h : RowDone base n (gs.take m) s t)
    (hm : rowBytes s.cfg ≤ m) : RowDone base n gs s t where
  row x hx := by
    have ho : 3 * x + 2 < m := by
      unfold rowBytes at hm
      omega
    rw [h.row x hx, tripleAt_take ho]
  others := h.others

theorem cvr_passes (hb : s.busy = false) (harea : FrameArea s.cfg scratch.toNat base.toNat) (hn : n < s.cfg.height)
    (hin : InTime s.timeout gs) (hlen : rowBytes s.cfg ≤ gs.length)
    (henv : s.env = delivery (gs.take (rowBytes s.cfg)) ++ rest) :
    ∃ t, Passes (cvr scratch (BitVec.ofNat 32 (n * s.cfg.width)) base) s t ∧
      ScriptStep (InFrameArea s.cfg scratch.toNat base.toNat) .none (rowBytes s.cfg) rest s t ∧ RowDone base.toNat n gs s t := by
  have hrow : (gs.take (rowBytes s.cfg)).length = rowBytes s.cfg := by rw [List.length_take]; omega
  have hpos : 0 < rowBytes s.cfg := by
    obtain ⟨⟨-, hwidth, -⟩, -⟩ := harea.wf
    unfold rowBytes
    omega
  have hne : gs.take (rowBytes s.cfg) ≠ [] := List.length_pos_iff.1 (by rwa [hrow])
  have hnt := noTurn_delivery hne henv
  let s' := atGo { s with arg0 := scratch, arg1 := BitVec.ofNat 32 (n * s.cfg.width), arg2 := base }
  obtain ⟨-, -, hok, -⟩ := cvrConvertsOneRow.2 s' hb hnt harea.wf
  rw [show s'.arg1.toNat = n * s.cfg.width from toNat_ofNat_of_lt (harea.position_lt hn)] at hok
  obtain ⟨hscratch, hlast⟩ := harea.rowFits hn
  obtain ⟨t, ht, hframe, -, hpixel, hother, hkept⟩ := hok (fun ho => ho.elim hscratch.not_gt hlast.not_ge) (harea.rowDisjoint hn)
    _ rest (hin.take _) hrow henv
  have hframeBytes (a : Nat) (ha : ¬ InFrameArea s.cfg scratch.toNat base.toNat a) : t.byte a = s.byte a := by
    refine hkept a (fun hs => ha (.inl hs)) fun hp => ha (.inr ?_)
    exact ⟨(Nat.le_add_right _ _).trans hp.1, hp.2.trans_lt (harea.packedLast_lt hn)⟩
  obtain ⟨hbusy, herr, hstep⟩ := scriptStep_of_ended (d := s.draws) hframe hframeBytes
  refine ⟨t.tested, passes_of_exec (cvr_pseudo hb _ _ _) hb ht hbusy herr, { hstep with }, ?_, ?_⟩
  · intro x hx
    have hget (k : Nat) (hk : k < 3) : (delivered (gs.take (rowBytes s.cfg)))[3 * x + k]? = some (byteAt gs (3 * x + k)) :=
      getElem?_take_delivered (by unfold rowBytes; omega) hlen
    exact hpixel x _ _ _ hx (hget 0 (by decide)) (hget 1 (by decide)) (hget 2 (by decide))
  · exact fun p hp hout => hother p hout (harea.packedAddr_not_scratch hp)

/-- A file row with its padding (R102, R110). -/
theorem bmpRow_passes (hb : s.busy = false) (harea : FrameArea s.cfg scratch.toNat base.toNat) (hi : i + (n + 1) = s.cfg.height)
    (hin : InTime s.timeout gs) (hlen : rowBytes s.cfg + rowPadding s.cfg = gs.length) (henv : s.env = delivery gs ++ rest) :
    ∃ t, (∀ next, bmpRow scratch base i s next = next t) ∧
      ScriptStep (InFrameArea s.cfg scratch.toNat base.toNat) .none gs.length rest s t ∧ RowDone base.toNat n gs s t := by
  have hn : s.cfg.height - 1 - i = n := by omega
  obtain ⟨t, hpass, hstep, hdone⟩ := cvr_passes hb harea (n := n) (by omega) hin (by omega)
    (henv.trans (delivery_split (rowBytes s.cfg) gs rest))
  have hrow : ∀ next, bmpRow scratch base i s next =
      if rowPadding s.cfg = 0 then next t else tested (skp (BitVec.ofNat 32 (rowPadding s.cfg))) [] t next := by
    intro next
    rw [bmpRow, bottomUp, hn, hpass, hstep.cfg]
  have hdrop : (gs.drop (rowBytes s.cfg)).length = rowPadding s.cfg := by rw [List.length_drop]; omega
  by_cases hpad : rowPadding s.cfg = 0
  · rw [hpad, Nat.add_zero] at hlen
    rw [List.length_eq_zero_iff.1 (hdrop.trans hpad)] at hstep
    exact ⟨t, fun next => (hrow next).trans (if_pos hpad), hlen ▸ hstep, hdone⟩
  · have hne : gs.drop (rowBytes s.cfg) ≠ [] := fun h => hpad (by rw [← hdrop, h]; rfl)
    have hsmall : rowPadding s.cfg < 2 ^ 32 := by
      unfold rowPadding
      omega
    obtain ⟨u, hskp, hskip⟩ := skp_passes hstep.idle (noTurn_delivery hne hstep.env) hsmall
      (by rw [hstep.timeout]; exact hin.drop _) hdrop hstep.env
    have hsame (p : Nat) : u.pixel base.toNat p = t.pixel base.toNat p := State.pixel_congr (hskip.kept _ id)
    refine ⟨u, fun next => (hrow next).trans ((if_neg hpad).trans (hskp _ _)), ?_, ?_, ?_⟩
    · rw [← hlen]
      exact hstep.trans (hskip.mono fun _ h => h.elim)
    · exact fun x hx => (hsame _).trans (hdone.row x hx)
    · exact fun p hp hout => (hsame p).trans (hdone.others p hp hout)

end

/-! ### The frame -/

theorem pixelOf_range' {s : State} {base m p : Nat} (hp : p / 2 < m) :
    pixelOf ((List.range' base m).map s.byte) p = s.pixel base p := by
  have hget : ((List.range' base m).map s.byte).getD (p / 2) 0 = s.byte (base + p / 2) := by
    simp [List.getD, hp]
  rw [pixelOf, State.pixel, hget]

/-- The frame `vs` that is handed over when `n` rows remain in the state `s` and the file goes on with `gs`: the rows that remain come
from the file, bottom-up, the others are in `MEM` already. -/
structure FrameFrom (c : Config) (base n : Nat) (gs : List (Nat × Byte)) (s : State) (vs : List Byte) : Prop where
  length : vs.length = c.frameBytes
  fromFile : ∀ x y, x < c.width → y < n → pixelOf vs (y * c.width + x) =
    c.code (quantize c (tripleAt gs ((n - 1 - y) * (rowBytes c + rowPadding c) + 3 * x)))
  fromMem : ∀ p, n * c.width ≤ p → p < c.height * c.width → pixelOf vs p = s.pixel base p

/-- The frame after one more row. -/
theorem FrameFrom.step {c : Config} {base n : Nat} {gs : List (Nat × Byte)} {s t : State} {vs : List Byte}
    (h : FrameFrom c base n (gs.drop (rowBytes c + rowPadding c)) t vs) (hn : n < c.height) (hc : s.cfg = c)
    (hrow : RowDone base n gs s t) : FrameFrom c base (n + 1) gs s vs where
  length := h.length
  fromFile x y hx hy := by
    rcases Nat.lt_or_ge y n with hlt | hge
    · have hoff : rowBytes c + rowPadding c + ((n - 1 - y) * (rowBytes c + rowPadding c) + 3 * x) =
          (n + 1 - 1 - y) * (rowBytes c + rowPadding c) + 3 * x := by
        rw [← Nat.add_assoc, Nat.add_comm (rowBytes c + rowPadding c), ← Nat.succ_mul]
        congr 2
        omega
      rw [h.fromFile x y hx hlt, tripleAt_drop, hoff]
    · obtain rfl : y = n := by omega
      have hle := row_le hn
      subst hc
      rw [h.fromMem _ (Nat.le_add_right _ _) (by omega), hrow.row x hx, Nat.add_sub_cancel, Nat.sub_self, Nat.zero_mul, Nat.zero_add]
  fromMem p hle hlt := by
    rw [Nat.succ_mul] at hle
    subst hc
    rw [h.fromMem p (by omega) hlt, hrow.others p hlt (.inr hle)]

theorem bmpRows_frame {scratch base : Word} {c : Config} (harea : FrameArea c scratch.toNat base.toNat) {rest : List Event} {n i : Nat}
    {s : State} {gs : List (Nat × Byte)} (hs : s.Finished) (herr : s.err = .none) (hc : s.cfg = c) (hi : i + n = c.height)
    (hin : InTime s.timeout gs) (hlen : gs.length = n * (rowBytes c + rowPadding c)) (henv : s.env = delivery gs ++ rest) :
    ∃ (t : State) (vs : List Byte), bmpRows scratch base i n s = .next ⟨t, [.packedBuffer vs], .success⟩ ∧
      ScriptStep (InFrameArea c scratch.toNat base.toNat) .none gs.length rest s t ∧ FrameFrom c base.toNat n gs s vs := by
  induction n generalizing i s gs with
  | zero =>
    obtain rfl := List.length_eq_zero_iff.1 (hlen.trans (Nat.zero_mul _))
    obtain ⟨u, hu, hstep⟩ := readOut_inside (a := base.toNat) hs.1 hs.2 (by rw [hc]; exact harea.base_le)
    rw [herr, henv] at hstep
    rw [bmpRows, hc, hu, andThen_next]
    refine ⟨u, _, rfl, hstep.mono fun _ h => h.elim, by simp, fun _ _ _ hy => absurd hy (Nat.not_lt_zero _),
      fun p _ hp => pixelOf_range' ?_⟩
    have htwo := two_mul_frameBytes harea.wf
    omega
  | succ n ih =>
    let stride := rowBytes c + rowPadding c
    rw [Nat.succ_mul] at hlen
    have htake : (gs.take stride).length = stride := by rw [List.length_take]; omega
    obtain ⟨t, hpass, hstep, hrow⟩ := bmpRow_passes (i := i) (n := n) hs.1 (by rw [hc]; exact harea) (by rw [hc]; exact hi)
      (hin.take stride) (by rw [hc]; exact htake.symm) (henv.trans (delivery_split stride gs rest))
    rw [hc] at hstep
    obtain ⟨u, vs, hu, hrest, hframe⟩ := ih (i := i + 1) (gs := gs.drop stride) hstep.finished hstep.err (hstep.cfg.trans hc)
      (by omega) (by rw [hstep.timeout]; exact hin.drop stride) (by rw [List.length_drop]; omega) hstep.env
    refine ⟨u, vs, by rw [bmpRows, hpass, hu], ?_, hframe.step (by omega) hc (hrow.of_take ?_)⟩
    · have hboth := hstep.trans hrest
      rwa [← List.length_append, List.take_append_drop] at hboth
    · rw [hc]
      exact Nat.le_add_right _ _

/-- The host's computation of the bytes to skip is exact (R138). -/
theorem ofNat_sub_54 {off : Nat} (h : 54 ≤ off) (hlt : off < 2 ^ 32) :
    (BitVec.ofNat 32 off : Word) - 54 = BitVec.ofNat 32 (off - 54) := by
  have h54 : (54 : Word).toNat = 54 := rfl
  apply BitVec.eq_of_toNat_eq
  simp only [BitVec.toNat_sub, BitVec.toNat_ofNat, h54]
  omega

/-- The path behind an accepted header: `off` bytes of the file are past, `gs` are the bytes behind the header, and the frame is made of
those from `off` on. -/
theorem bmpPixels_frame {scratch base : Word} {c : Config} (harea : FrameArea c scratch.toNat base.toNat) {rest : List Event}
    {s : State} {gs : List (Nat × Byte)} {off : Nat} (hb : s.busy = false) (hc : s.cfg = c)
    (hres : s.res = BitVec.ofNat 32 off) (hoff : 54 ≤ off) (hlt : off < 2 ^ 32) (hin : InTime s.timeout gs) (hgs : gs ≠ [])
    (hlen : gs.length = off - 54 + c.height * (rowBytes c + rowPadding c)) (henv : s.env = delivery gs ++ rest) :
    ∃ (t u : State) (vs : List Byte), bmpPixels scratch base c.height s = .next ⟨t, [.packedBuffer vs], .success⟩ ∧
      ScriptStep (InFrameArea c scratch.toNat base.toNat) .none gs.length rest s t ∧
      FrameFrom c base.toNat c.height (gs.drop (off - 54)) u vs := by
  have hskipped : (gs.take (off - 54)).length = off - 54 := by
    rw [List.length_take]
    omega
  obtain ⟨u, hskp, hskip⟩ := skp_passes (s := resRead s) (n := off - 54) hb (noTurn_delivery hgs henv) (by omega)
    (hin.take _) hskipped (henv.trans (delivery_split (off - 54) gs rest))
  obtain ⟨t, vs, hrun, hstep, hframe⟩ := bmpRows_frame harea (i := 0) hskip.finished hskip.err (hskip.cfg.trans hc) (Nat.zero_add _)
    (by rw [hskip.timeout]; exact hin.drop _) (by rw [List.length_drop, hlen, Nat.add_sub_cancel_left]) hskip.env
  refine ⟨t, u, vs, ?_, ?_, hframe⟩
  · rw [bmpPixels_eq hb, hres, toNat_ofNat_of_lt hlt, if_neg hoff.not_gt, ofNat_sub_54 hoff hlt]
    exact (hskp _ _).trans hrun
  · have hboth := (hskip.mono fun _ h => h.elim).trans hstep
    rw [← hskipped, ← List.length_append, hskipped, List.take_append_drop] at hboth
    exact { hboth with }

end Script

/-- Settles O31: the header is accepted, its rest is skipped, and the rows fill the frame. -/
theorem bmpPathConvertsTheFile : Obligations.BmpPathConvertsTheFile := by
  intro header scratch base s gs rest hb hwf hheader hscratch hbase _ _ hsb hin henv h off stride hok hoff hlen
  have hlt : off < 2 ^ 32 := Script.le32_lt _ _ _ _
  have hrows : 0 < s.cfg.height * stride := by
    obtain ⟨⟨-, hwidth, hheight, -⟩, -⟩ := hwf
    exact Nat.mul_pos hheight (Nat.lt_of_lt_of_le (Nat.mul_pos (by decide) hwidth) (Nat.le_add_right _ _))
  have hlen' : (gs.drop 54).length = off - 54 + s.cfg.height * stride := by
    rw [List.length_drop]
    omega
  have hbehind : gs.drop 54 ≠ [] := List.length_pos_iff.1 (by omega)
  have hpixels : (gs.drop 54).drop (off - 54) = gs.drop off := by
    rw [List.drop_drop, Nat.add_sub_cancel' hoff]
  obtain ⟨t, hhdr, hres, hpath⟩ := Script.bmpPath_header (scratch := scratch) (base := base) hb hheader hin (by omega)
    (henv.trans (delivery_split 54 gs rest)) (noTurn_delivery (s := s.withEnv (delivery (gs.drop 54) ++ rest)) hbehind rfl)
  rw [hok] at hhdr
  obtain ⟨v, u, vs, hrun, hframe, hpix⟩ := Script.bmpPixels_frame (scratch := scratch) (base := base)
    ⟨hwf, hscratch, hbase, hsb⟩ hhdr.idle hhdr.cfg (hres.trans (Script.headerRes_of_none hok)) hoff hlt
    (by rw [hhdr.timeout]; exact hin.drop 54) hbehind hlen' hhdr.env
  rw [hpixels] at hpix
  have hall := (hhdr.mono (B := fun a => InRange header.toNat 54 a ∨ InFrameArea s.cfg scratch.toNat base.toNat a)
    fun _ ha => .inl ha).trans (hframe.mono fun _ ha => .inr ha)
  refine ⟨_, vs, hpath.trans ((if_pos hok).trans hrun), rfl, rfl, hpix.length, fun x y hx hy => ?pixel, hall.idle, hall.err,
    hall.env, ?stream, fun a ha hs hp => hall.kept a fun h => h.elim ha fun h => h.elim hs hp⟩
  case pixel =>
    have hfile := hpix.fromFile x y hx hy
    rw [tripleAt_drop, ← Nat.add_assoc] at hfile
    exact hfile
  case stream =>
    rw [hall.spos, hlen']
    omega

end Sys2Proof.Machine
end
